-- ==== Sys2Proof/Word.lean ====
section
/-! DEFINITION. The words of the block: 64-bit operand, result and timing words (00_scope.md R9), the 32-bit command
word (30_encoding.md R92), bytes of a frame payload. -/

namespace Sys2Proof

/-- A 64-bit word: an operand port, a result port, a timing word (R9: "all arithmetic is unsigned 64-bit"). -/
abbrev Word := BitVec 64

/-- A 32-bit word: the command word `cw` (R92), a controller code (R95), a timeout (R104). -/
abbrev Word32 := BitVec 32

/-- One byte of a payload or of a text (R65, R61). -/
abbrev Byte := BitVec 8

end Sys2Proof
end

