-- ==== Sys2Proof/Config.lean ====
section
/-! DEFINITION. The parameters of 00_scope.md R6. They are fixed for a run (R7, R291); the model carries them in a field of
State that no step writes (log entry 1), so that a statement about every state is a statement about every parameter value.
There is no uninterpreted constant: every free input (R52) is an event of State's list `env` (log entry 2). -/

namespace Sys2Proof

/-- `BYTE_ORDER` of R6: the order of bytes when a 64-bit word crosses a narrower interface. No rule reads it (R65, D36). -/
inductive ByteOrder where
  | little
  | big
  deriving DecidableEq, Repr

/-- The parameters of R6. `Name`, `Handle` are types of Syntax.lean; `TQ_BITS` and `MAX_PAYLOAD` are fixed below. -/
structure Params where
  /-- `CLOCK_MHZ`, the divisor of the time-quantum formula. -/
  clockMHz : Nat
  /-- `ARB_BASE`, the constant OR-ed into every arbitration word. -/
  arbBase : Word
  /-- `FD_BASE`, the constant OR-ed into every FD word. -/
  fdBase : Word
  /-- `TDCO_BITS`, the width of the TDC-offset-minus-one field. -/
  tdcoBits : Nat
  /-- `N_SESSIONS`, the number of session records. -/
  nSessions : Nat
  /-- `BYTE_ORDER`, read by no rule. -/
  byteOrder : ByteOrder
  deriving DecidableEq, Repr

/-- `TQ_BITS` of R6: the width of the time-quantum field in both words. -/
def tqBits : Nat := 13

/-- `MAX_PAYLOAD` of R6. -/
def maxPayload : Nat := 64

/-- The value column of R6: the document's example clock and the spec's defaults for the parameters it marks OPEN. -/
def Params.default : Params where
  clockMHz := 80
  arbBase := 0xA000000000000000#64
  fdBase := 0x00000000A0000000#64
  tdcoBits := 15
  nSessions := 4
  byteOrder := .little

end Sys2Proof
end

