-- ==== Sys2Proof/Syntax.lean ====
section
/-! DEFINITION. The syntax of the block: the enumerations of 30_encoding.md R99, the operations of R93 with the fields of
their command word (R92, R94), and the two rows of the opcode table that are register words (R80, R87). -/

namespace Sys2Proof

/-- A channel name (R6, R98 D18): opaque, only ever compared. DESIGN CHOICE, safe (log entry 3): a number stands for it. -/
structure Name where
  tag : Nat
  deriving DecidableEq, Repr

/-- A controller handle (R6, R24): opaque, passed back to the controller and never compared by the block. -/
structure Handle where
  bits : Word
  deriving DecidableEq, Repr

/-- OpenType of R99. Numbers 4 to 15 are reserved and have no constructor. -/
inductive OpenType where
  | classic
  | fd
  | fdBrs
  | fdNoIso
  deriving DecidableEq, Repr

/-- OpenMode of R99. Numbers 3 to 15 are reserved and have no constructor. -/
inductive OpenMode where
  | normal
  | listen
  | loopback
  deriving DecidableEq, Repr

/-- FrameType of R99. -/
inductive FrameType where
  | classic
  | remote
  | fd
  | fdBrs
  deriving DecidableEq, Repr

/-- Phase of R99 and R51: which of a handle's two timing registers. -/
inductive Phase where
  | arb
  | fd
  deriving DecidableEq, Repr

/-- CapabilityId of R99 and R56. -/
inductive Capability where
  | termination
  | echo
  | blink
  | txMode
  deriving DecidableEq, Repr

/-- The rows of spec/opcode_table.json. The first 21 are the operations of R93, with the fields R94 gives their command
word; the last two are the register words of R80 and R87, with the fields of their layouts. -/
inductive Instr where
  /-- ENC_ARB, R122. -/
  | encArb
  /-- ENC_FD, R124. -/
  | encFd
  /-- DEC_ARB, R126. -/
  | decArb
  /-- DEC_FD, R127. -/
  | decFd
  /-- DISCOVER, R151. -/
  | discover (sess : BitVec 8)
  /-- OPEN, R152. -/
  | openSess (sess : BitVec 8) (type : OpenType) (mode : OpenMode)
  /-- CLOSE, R153. -/
  | closeSess (sess : BitVec 8)
  /-- CFG_ARB_RAW, R171. -/
  | cfgArbRaw (sess : BitVec 8)
  /-- CFG_ARB_PAR, R172. -/
  | cfgArbPar (sess : BitVec 8)
  /-- CFG_FD_RAW, R173. -/
  | cfgFdRaw (sess : BitVec 8)
  /-- CFG_FD_PAR, R174. -/
  | cfgFdPar (sess : BitVec 8)
  /-- APPLY, R176: `temporary` is `cw[16]`. -/
  | apply (sess : BitVec 8) (temporary : Bool)
  /-- SEND, R191. -/
  | send (sess : BitVec 8)
  /-- SENDN, R193: `count` is `cw[31:16]`. -/
  | sendn (sess : BitVec 8) (count : BitVec 16)
  /-- RECV, R194. -/
  | recv (sess : BitVec 8)
  /-- RECVN, R195: `count` is `cw[31:16]`. -/
  | recvn (sess : BitVec 8) (count : BitVec 16)
  /-- PROBE_TERM, R211. -/
  | probeTerm (sess : BitVec 8)
  /-- PROBE_ECHO, R212. -/
  | probeEcho (sess : BitVec 8)
  /-- PROBE_BLINK, R213. -/
  | probeBlink (sess : BitVec 8)
  /-- PROBE_TXMODE, R214. -/
  | probeTxmode (sess : BitVec 8)
  /-- ERRTEXT, R215. -/
  | errtext
  /-- ARB_WORD, the layout of R80: a register word, never a command. -/
  | arbWord (tq : BitVec 13) (sjw ts1m1 ts2m1 : BitVec 8)
  /-- FD_WORD, the layout of R87 (with `TDCO_BITS` = 15): a register word, never a command. -/
  | fdWord (tdce : BitVec 1) (tdcom1 : BitVec 15) (tq : BitVec 13) (ts1m1 : BitVec 5) (ts2m1 sjwm1 : BitVec 4)
  deriving DecidableEq, Repr

/-- What stands on the command port: a 32-bit command word (format CMD32 of the opcode table, R92), or a 64-bit register
word (format REG64), which is no command and is refused (log entry 5). -/
inductive PortWord where
  | cmd32 (cw : Word32)
  | reg64 (v : Word)
  deriving DecidableEq, Repr

/-- Why a word on the command port is ill-formed: the reserved encodings of R100 (a) to (d). -/
inductive DecodeError where
  /-- R100 (a): an opcode not in R93. -/
  | reservedOpcode
  /-- R100 (b): a nonzero session field in a sessionless operation. -/
  | sessionNotZero
  /-- R100 (c): a nonzero must-be-zero immediate bit. -/
  | immediateNotZero
  /-- R100 (d): OpenType 4 to 15. -/
  | reservedOpenType
  /-- R100 (d): OpenMode 3 to 15. -/
  | reservedOpenMode
  /-- A 64-bit word that fits neither register layout (R80, R87). -/
  | notATimingWord
  deriving DecidableEq, Repr

/-- The session an operation names (R92); `none` for the five sessionless operations and the register words. -/
def Instr.session? : Instr → Option (BitVec 8)
  | .encArb => none
  | .encFd => none
  | .decArb => none
  | .decFd => none
  | .discover s => some s
  | .openSess s _ _ => some s
  | .closeSess s => some s
  | .cfgArbRaw s => some s
  | .cfgArbPar s => some s
  | .cfgFdRaw s => some s
  | .cfgFdPar s => some s
  | .apply s _ => some s
  | .send s => some s
  | .sendn s _ => some s
  | .recv s => some s
  | .recvn s _ => some s
  | .probeTerm s => some s
  | .probeEcho s => some s
  | .probeBlink s => some s
  | .probeTxmode s => some s
  | .errtext => none
  | .arbWord _ _ _ _ => none
  | .fdWord _ _ _ _ _ _ => none

/-- The mnemonic of R93 (assembler name, R96), and of the two register rows. -/
def Instr.mnemonic : Instr → String
  | .encArb => "ENC_ARB"
  | .encFd => "ENC_FD"
  | .decArb => "DEC_ARB"
  | .decFd => "DEC_FD"
  | .discover _ => "DISCOVER"
  | .openSess _ _ _ => "OPEN"
  | .closeSess _ => "CLOSE"
  | .cfgArbRaw _ => "CFG_ARB_RAW"
  | .cfgArbPar _ => "CFG_ARB_PAR"
  | .cfgFdRaw _ => "CFG_FD_RAW"
  | .cfgFdPar _ => "CFG_FD_PAR"
  | .apply _ _ => "APPLY"
  | .send _ => "SEND"
  | .sendn _ _ => "SENDN"
  | .recv _ => "RECV"
  | .recvn _ _ => "RECVN"
  | .probeTerm _ => "PROBE_TERM"
  | .probeEcho _ => "PROBE_ECHO"
  | .probeBlink _ => "PROBE_BLINK"
  | .probeTxmode _ => "PROBE_TXMODE"
  | .errtext => "ERRTEXT"
  | .arbWord _ _ _ _ => "ARB_WORD"
  | .fdWord _ _ _ _ _ _ => "FD_WORD"

end Sys2Proof
end

