-- ==== Sys2Proof/WellFormed.lean ====
section
/-! DEFINITION. Well-formedness of a decoded operation. The reserved values of 30_encoding.md R100 (a), (c), (d) have no
constructor and are refused by the decoder; what is left for a decoded operation is R100 (b), the session index, which
depends on the parameter `N_SESSIONS`. The operand checks R100 (e), (f) are on the frame list: Machine/Operands.lean. -/

namespace Sys2Proof

/-- R100 (b): the session index of a session operation is below `N_SESSIONS`. -/
def sessionInRange (nSessions : Nat) : Option (BitVec 8) → Bool
  | none => true
  | some s => decide (s.toNat < nSessions)

/-- A well-formed operation of a block with `nSessions` session records. -/
def Instr.wellFormed (nSessions : Nat) (i : Instr) : Bool :=
  sessionInRange nSessions i.session?

end Sys2Proof
end

