-- ==== Sys2Proof/Decode.lean ====
section
/-! DEFINITION. The decoder of the command word (30_encoding.md R92 to R94, R99, R100), total on any word and rejecting
by name, the decoder of the two register words (R80, R87), and the encoder. -/

namespace Sys2Proof

/-- The opcode `op = cw[7:0]` (R92). -/
def opField (cw : Word32) : BitVec 8 := cw.extractLsb' 0 8

/-- The session field `sess = cw[15:8]` (R92). -/
def sessField (cw : Word32) : BitVec 8 := cw.extractLsb' 8 8

/-- The immediate `imm = cw[31:16]` (R92). -/
def immField (cw : Word32) : BitVec 16 := cw.extractLsb' 16 16

/-- A command word from its three fields (R92). -/
def cmdWord (op : BitVec 8) (sess : BitVec 8) (imm : BitVec 16) : Word32 := imm ++ sess ++ op

/-- OpenType from its number (R99); 4 to 15 are reserved. -/
def openTypeOf (n : BitVec 4) : Option OpenType :=
  if n = 0#4 then some .classic
  else if n = 1#4 then some .fd
  else if n = 2#4 then some .fdBrs
  else if n = 3#4 then some .fdNoIso
  else none

/-- The number of an OpenType (R99). -/
def OpenType.number : OpenType → BitVec 4
  | .classic => 0#4
  | .fd => 1#4
  | .fdBrs => 2#4
  | .fdNoIso => 3#4

/-- OpenMode from its number (R99); 3 to 15 are reserved. -/
def openModeOf (n : BitVec 4) : Option OpenMode :=
  if n = 0#4 then some .normal
  else if n = 1#4 then some .listen
  else if n = 2#4 then some .loopback
  else none

/-- The number of an OpenMode (R99). -/
def OpenMode.number : OpenMode → BitVec 4
  | .normal => 0#4
  | .listen => 1#4
  | .loopback => 2#4

/-- A sessionless operation: `sess` and `imm` must be 0 (R92, R94, R100 (b), (c)). -/
def decodeSessionless (i : Instr) (sess : BitVec 8) (imm : BitVec 16) : Except DecodeError Instr :=
  if sess ≠ 0#8 then .error .sessionNotZero
  else if imm ≠ 0#16 then .error .immediateNotZero
  else .ok i

/-- A session operation without immediate: `imm` must be 0 (R94, R100 (c)). -/
def decodeSession (i : Instr) (imm : BitVec 16) : Except DecodeError Instr :=
  if imm ≠ 0#16 then .error .immediateNotZero else .ok i

/-- OPEN: `imm[3:0]` type, `imm[7:4]` mode, `imm[15:8]` must be 0 (R94). -/
def decodeOpen (sess : BitVec 8) (imm : BitVec 16) : Except DecodeError Instr :=
  if imm.extractLsb' 8 8 ≠ 0#8 then .error .immediateNotZero
  else
    match openTypeOf (imm.extractLsb' 0 4), openModeOf (imm.extractLsb' 4 4) with
    | some t, some m => .ok (.openSess sess t m)
    | none, _ => .error .reservedOpenType
    | some _, none => .error .reservedOpenMode

/-- APPLY: `imm[0]` temporary, `imm[15:1]` must be 0 (R94). -/
def decodeApply (sess : BitVec 8) (imm : BitVec 16) : Except DecodeError Instr :=
  if imm.extractLsb' 1 15 ≠ 0#15 then .error .immediateNotZero
  else .ok (.apply sess (imm.getLsbD 0))

/-- The opcode map of R93 over the fields of the command word. -/
def decodeFields (op : BitVec 8) (sess : BitVec 8) (imm : BitVec 16) : Except DecodeError Instr :=
  if op = 0x10#8 then decodeSessionless .encArb sess imm
  else if op = 0x11#8 then decodeSessionless .encFd sess imm
  else if op = 0x12#8 then decodeSessionless .decArb sess imm
  else if op = 0x13#8 then decodeSessionless .decFd sess imm
  else if op = 0x20#8 then decodeSession (.discover sess) imm
  else if op = 0x21#8 then decodeOpen sess imm
  else if op = 0x22#8 then decodeSession (.closeSess sess) imm
  else if op = 0x30#8 then decodeSession (.cfgArbRaw sess) imm
  else if op = 0x31#8 then decodeSession (.cfgArbPar sess) imm
  else if op = 0x32#8 then decodeSession (.cfgFdRaw sess) imm
  else if op = 0x33#8 then decodeSession (.cfgFdPar sess) imm
  else if op = 0x34#8 then decodeApply sess imm
  else if op = 0x40#8 then decodeSession (.send sess) imm
  else if op = 0x41#8 then .ok (.sendn sess imm)
  else if op = 0x42#8 then decodeSession (.recv sess) imm
  else if op = 0x43#8 then .ok (.recvn sess imm)
  else if op = 0x50#8 then decodeSession (.probeTerm sess) imm
  else if op = 0x51#8 then decodeSession (.probeEcho sess) imm
  else if op = 0x52#8 then decodeSession (.probeBlink sess) imm
  else if op = 0x53#8 then decodeSession (.probeTxmode sess) imm
  else if op = 0x60#8 then decodeSessionless .errtext sess imm
  else .error .reservedOpcode

/-- The decoder of a 32-bit command word (R92 to R94). -/
def decodeCmd (cw : Word32) : Except DecodeError Instr :=
  decodeFields (opField cw) (sessField cw) (immField cw)

/-- The fixed-bit mask of an arbitration word (R80): bits 63:45 and 31:24. -/
def arbFixedMask : Word := 0xFFFFE000FF000000#64

/-- The fixed-bit mask of an FD word with a 15-bit offset field (R87): bits 63:56, 39:32 and 31:26. -/
def fdFixedMask : Word := 0xFF0000FFFC000000#64

/-- The fields of an arbitration word (R80). -/
def arbFields (v : Word) : Instr :=
  .arbWord (v.extractLsb' 32 13) (v.extractLsb' 16 8) (v.extractLsb' 8 8) (v.extractLsb' 0 8)

/-- The fields of an FD word (R87). -/
def fdFields (v : Word) : Instr :=
  .fdWord (v.extractLsb' 55 1) (v.extractLsb' 40 15) (v.extractLsb' 13 13) (v.extractLsb' 8 5) (v.extractLsb' 4 4)
    (v.extractLsb' 0 4)

/-- The two register layouts of the opcode table (rows of format REG64): the fixed bits tell which it is (R80, R87). -/
def decodeReg (v : Word) : Except DecodeError Instr :=
  if v &&& arbFixedMask = Params.default.arbBase then .ok (arbFields v)
  else if v &&& fdFixedMask = Params.default.fdBase then .ok (fdFields v)
  else .error .notATimingWord

/-- The decoder of what stands on the command port. -/
def decode : PortWord → Except DecodeError Instr
  | .cmd32 cw => decodeCmd cw
  | .reg64 v => decodeReg v

/-- The immediate of OPEN (R94). -/
def openImm (t : OpenType) (m : OpenMode) : BitVec 16 := 0#8 ++ m.number ++ t.number

/-- The immediate of APPLY (R94). -/
def applyImm (temporary : Bool) : BitVec 16 := 0#15 ++ BitVec.ofBool temporary

/-- The arbitration word with the given fields, laid out as the table of R80. -/
def arbLayout (tq : BitVec 13) (sjw ts1m1 ts2m1 : BitVec 8) : Word :=
  0xA#4 ++ 0#15 ++ tq ++ 0#8 ++ sjw ++ ts1m1 ++ ts2m1

/-- The FD word with the given fields, laid out as the table of R87. -/
def fdLayout (tdce : BitVec 1) (tdcom1 : BitVec 15) (tq : BitVec 13) (ts1m1 : BitVec 5) (ts2m1 sjwm1 : BitVec 4) : Word :=
  0#8 ++ tdce ++ tdcom1 ++ 0#8 ++ 0xA#4 ++ 0#2 ++ tq ++ ts1m1 ++ ts2m1 ++ sjwm1

/-- The encoder: the word of an operation by R92 to R94, or of a register row by R80, R87. -/
def encode : Instr → PortWord
  | .encArb => .cmd32 (cmdWord 0x10#8 0#8 0#16)
  | .encFd => .cmd32 (cmdWord 0x11#8 0#8 0#16)
  | .decArb => .cmd32 (cmdWord 0x12#8 0#8 0#16)
  | .decFd => .cmd32 (cmdWord 0x13#8 0#8 0#16)
  | .discover s => .cmd32 (cmdWord 0x20#8 s 0#16)
  | .openSess s t m => .cmd32 (cmdWord 0x21#8 s (openImm t m))
  | .closeSess s => .cmd32 (cmdWord 0x22#8 s 0#16)
  | .cfgArbRaw s => .cmd32 (cmdWord 0x30#8 s 0#16)
  | .cfgArbPar s => .cmd32 (cmdWord 0x31#8 s 0#16)
  | .cfgFdRaw s => .cmd32 (cmdWord 0x32#8 s 0#16)
  | .cfgFdPar s => .cmd32 (cmdWord 0x33#8 s 0#16)
  | .apply s t => .cmd32 (cmdWord 0x34#8 s (applyImm t))
  | .send s => .cmd32 (cmdWord 0x40#8 s 0#16)
  | .sendn s c => .cmd32 (cmdWord 0x41#8 s c)
  | .recv s => .cmd32 (cmdWord 0x42#8 s 0#16)
  | .recvn s c => .cmd32 (cmdWord 0x43#8 s c)
  | .probeTerm s => .cmd32 (cmdWord 0x50#8 s 0#16)
  | .probeEcho s => .cmd32 (cmdWord 0x51#8 s 0#16)
  | .probeBlink s => .cmd32 (cmdWord 0x52#8 s 0#16)
  | .probeTxmode s => .cmd32 (cmdWord 0x53#8 s 0#16)
  | .errtext => .cmd32 (cmdWord 0x60#8 0#8 0#16)
  | .arbWord tq sjw ts1 ts2 => .reg64 (arbLayout tq sjw ts1 ts2)
  | .fdWord e o tq ts1 ts2 sjw => .reg64 (fdLayout e o tq ts1 ts2 sjw)

/-- The port word of a row of the opcode table: 32 bits are a command word (CMD32), 64 bits a register word (REG64). -/
def tableWord (nbits w : Nat) : Option PortWord :=
  if nbits = 32 then some (.cmd32 (BitVec.ofNat 32 w))
  else if nbits = 64 then some (.reg64 (BitVec.ofNat 64 w))
  else none

/-- What the decoder reads from a row's word, whose bits are numbered as spec/opcode_table.json numbers them. -/
def decodeTableWord (nbits w : Nat) : Option Instr :=
  match tableWord nbits w with
  | some p =>
    match decode p with
    | .ok i => some i
    | .error _ => none
  | none => none

end Sys2Proof
end

