-- ==== Sys2Proof/Machine/State.lean ====
section
/-! DEFINITION. The state of the block and of the environment it writes (10_state.md R20 to R37), as plain data, and its
value after reset (R37, 70_reset_and_hazards.md R272). Operations over it are in Memory.lean and Ops.lean. -/

namespace Sys2Proof.Machine

/-- Memory of whole 64-bit words: a list of (key, word), keys strictly rising (`Memory.wf`, Memory.lean). A key that is not
listed holds no value (R272: "an Option that is none until written"). There is no byte-addressed space (R50, R66). -/
abbrev Memory := List (Nat × Word)

/-- `S[s].state` of R23; the numbers shown on a port are in Flags.lean. -/
inductive LifeState where
  | unbound
  | discovered
  | opened
  | closed
  deriving DecidableEq, Repr

/-- The result kinds of R230, in the order of their numbers. -/
inductive ResultKind where
  | ok
  | channelNotFound
  | channelBusy
  | invalidChannelState
  | unsupportedMode
  | unsupportedFeature
  | invalidTimingParameter
  | timeout
  | ioFailure
  deriving DecidableEq, Repr

/-- The frame record of R98. Only the first `len` bytes of `data` are payload; `len` 65 to 127 is reserved (R100 (e)). -/
structure Frame where
  id : BitVec 29
  type : FrameType
  ext : Bool
  len : BitVec 7
  data : Vector Byte 64
  timestamp : Word
  transmitted : Bool
  deriving DecidableEq, Repr

/-- The calls on the controller port (R53 to R61). `readTiming` is on the list and called by no operation (R58). -/
inductive CtlCall where
  | enumerate
  | bind (n : Name)
  | unbind (h : Handle)
  | queryCapability (h : Handle) (id : Capability)
  | writeTiming (h : Handle) (ph : Phase) (v : Word)
  | readTiming (h : Handle) (ph : Phase)
  | transmit (h : Handle) (f : Frame) (t : Word32)
  | receive (h : Handle) (t : Word32)
  | errorText (code : Word32)
  deriving DecidableEq, Repr

/-- The answer of `CtlTransmit` (R59). -/
inductive TxAnswer where
  | ok
  | timeout (code : Word32)
  | ioFailure (code : Word32)
  deriving DecidableEq, Repr

/-- The answer of `CtlReceive` (R60). -/
inductive RxAnswer where
  | ok (f : Frame)
  | timeout (code : Word32)
  | ioFailure (code : Word32)
  deriving DecidableEq, Repr

/-- The answers of the controller, one constructor per call of R53 to R61 (D37). A call without a result returns `unbound`
or `written`; `bound none` is the answer `NotFound` of R54. -/
inductive CtlAnswer where
  | names (l : List Name)
  | bound (h : Option Handle)
  | unbound
  | capability (b : Bool)
  | written
  | timing (v : Word)
  | transmitted (r : TxAnswer)
  | received (r : RxAnswer)
  | text (t : List Byte)
  deriving DecidableEq, Repr

/-- A command as presented on the command side of R30: the command word, the operand ports `a0 .. a4`, the name operand and
the frame list. `req` is the model's number for the requestor that waits for the response (R28). -/
structure Cmd where
  req : Nat
  word : PortWord
  a0 : Word
  a1 : Word
  a2 : Word
  a3 : Word
  a4 : Word
  nameIn : Name
  framesIn : List Frame
  deriving DecidableEq, Repr

/-- The result ports of R30 other than `status`. -/
structure Results where
  r0 : Word := 0#64
  r1 : Word := 0#64
  r2 : Word := 0#64
  r3 : Word := 0#64
  r4 : Word := 0#64
  r5 : Word := 0#64
  framesOut : List Frame := []
  textOut : List Byte := []
  deriving DecidableEq, Repr

/-- A response: the status word of R95 and the result ports (R30). -/
structure Response where
  status : Word
  res : Results
  deriving DecidableEq, Repr

/-- `S[s].last_error` of R27. -/
structure LastError where
  kind : ResultKind
  code : Word32
  deriving DecidableEq, Repr

/-- The in-flight record of R28: the command (with the requestor to answer and its operands), the index of the next frame,
the frames collected so far, and the controller call issued and not yet answered. A DISCOVER that holds its session and
waits for `dlock` (R151) has no call. -/
structure InFlight where
  instr : Instr
  cmd : Cmd
  next : Nat
  got : List Frame
  call : Option CtlCall
  deriving DecidableEq, Repr

/-- The session record of R22, with the in-flight record of R28. -/
structure Session where
  state : LifeState
  name : Option Name
  handle : Option Handle
  openType : Option OpenType
  openMode : Option OpenMode
  arbStaged : Option Word
  fdStaged : Option Word
  lastError : LastError
  busy : Bool
  inflight : Option InFlight
  deriving DecidableEq, Repr

/-- The reset value of a session record (R37). -/
def Session.reset : Session where
  state := .unbound
  name := none
  handle := none
  openType := none
  openMode := none
  arbStaged := none
  fdStaged := none
  lastError := ⟨.ok, 0#32⟩
  busy := false
  inflight := none

/-- A command presented while its session was busy, waiting to be admitted (R63). -/
structure Held where
  instr : Instr
  cmd : Cmd
  deriving DecidableEq, Repr

/-- On whose behalf a controller call is made: a session (R36 (I6)), or an ERRTEXT of a requestor (R215). -/
inductive Caller where
  | session (k : Nat)
  | lookup (req : Nat)
  deriving DecidableEq, Repr

/-- The events of the history of R35. -/
inductive HistEvent where
  | issue (c : Cmd) (i : Instr)
  | ctlCall (who : Caller) (c : CtlCall)
  | ctlRet (who : Caller) (a : CtlAnswer)
  | complete (req : Nat) (r : Response)
  deriving DecidableEq, Repr

/-- The events of the world outside the block, in the order they come (log entry 2): free inputs of the spec's step relation. -/
inductive EnvEvent where
  /-- A requestor presents a command (R8, R21). -/
  | present (c : Cmd)
  /-- The controller answers the outstanding call of session `k` (R52). -/
  | answer (k : Nat) (a : CtlAnswer)
  /-- The controller answers the `j`-th outstanding `CtlErrorText` (R61, R215). -/
  | text (j : Nat) (t : List Byte)
  /-- The `j`-th held command is the next admitted on its session (R64). -/
  | admission (j : Nat)
  /-- The DISCOVER of session `k` waiting for `dlock` takes it (R29, R151). -/
  | grant (k : Nat)
  /-- The reset input is asserted (R270). -/
  | reset
  deriving DecidableEq, Repr

/-- The state: block state (R20 (a) to (c), R63), ports (R30), environment state the block writes (R32, R33), the event
history (R35), and the model's own `params` (R6, log entry 1) and `env` (log entry 2). -/
structure State where
  /-- The parameters of R6; no step writes them. -/
  params : Params
  /-- The session arena of R20 (a), R50. -/
  sessions : List Session
  /-- The global discover lock of R29. -/
  dlock : Bool
  /-- Commands held (R63), in the order they came; the order is not that of admission (R64). -/
  held : List Held
  /-- ERRTEXT commands whose `CtlErrorText` is outstanding. -/
  lookups : List Cmd
  /-- A command stands on the command port and is not yet taken (R71). -/
  portValid : Bool
  /-- The command port and the operand ports (R30). -/
  port : Cmd
  /-- The response ports (R30), as the last response wrote them. -/
  resp : Response
  /-- The requestor that response was delivered to. -/
  respTo : Nat
  /-- `CTL.timing[h][ph]` of R32: the value the register is known to hold; none after `CtlUnbind` and after reset. -/
  ctlTiming : Memory
  /-- The record of the last word written to each timing register, kept through unbind and reset. -/
  ctlWritten : Memory
  /-- `NV[n][ph]` of R33. -/
  nv : Memory
  /-- The event history of R35. -/
  history : List HistEvent
  /-- The events of the world outside still to come. -/
  env : List EnvEvent
  deriving DecidableEq, Repr

/-- Faults: states in which an operation has nothing to act on. No state a run reaches from reset is one (R36 (I1)). -/
inductive Fault where
  /-- Raised by CLOSE, APPLY, the frame operations and the probes on a session in an accepted state whose `handle` is
  `none`; R36 (I1) rules it out. Safe: the machine stops where the spec gives nothing. -/
  | noHandle
  /-- Raised by APPLY on a session in an accepted state whose `name` is `none`; R36 (I1) rules it out. Safe. -/
  | noName
  deriving DecidableEq, Repr

/-- Refusals: what the spec gives no meaning (R12 (d), R100). -/
inductive Refusal where
  /-- An instruction without a meaning in this model; raised by no arm of `exec`. Safe. -/
  | notModelled (mnemonic : String)
  /-- R100 (a) to (d): raised by the step when the word on the command port does not decode. Safe. -/
  | reservedEncoding (why : DecodeError)
  /-- R100 (b): `sess >= N_SESSIONS`; raised by the step and by every session operation. Safe. -/
  | sessionOutOfRange
  /-- R100 (e): a frame that SEND or SENDN would give to the controller has `len` 65 to 127. Safe. -/
  | frameTooLong
  /-- R100 (f): `frames_in` is shorter than SEND or SENDN needs. Safe. -/
  | framesMissing
  /-- A register word (format REG64) presented as a command: "a timing word is data carried on an operand port and is never
  decoded as a command" (30_encoding.md); raised by the rows ARB_WORD and FD_WORD. Safe. -/
  | timingWordIsNoCommand
  deriving DecidableEq, Repr

/-- The three outcomes of an operation or a step. -/
abbrev Result := Host.Outcome State Fault Refusal

/-- What stands on the ports after reset (R272: they "carry nothing between commands; no reset value needed").
DESIGN CHOICE, unsafe (log entry 4): zero. -/
def Cmd.zero : Cmd where
  req := 0
  word := .cmd32 0#32
  a0 := 0#64
  a1 := 0#64
  a2 := 0#64
  a3 := 0#64
  a4 := 0#64
  nameIn := ⟨0⟩
  framesIn := []

/-- The response ports after reset: zero and empty. DESIGN CHOICE, unsafe (log entry 4). -/
def Response.zero : Response := ⟨0#64, {}⟩

/-- The state right after reset (R37, R272), at first power-up, with the parameters of R6's value column (log entry 1) and
no event of the world outside to come (log entry 2). -/
def State.reset : State where
  params := Params.default
  sessions := List.replicate Params.default.nSessions Session.reset
  dlock := false
  held := []
  lookups := []
  portValid := false
  port := Cmd.zero
  resp := Response.zero
  respTo := 0
  ctlTiming := []
  ctlWritten := []
  nv := []
  history := []
  env := []

end Sys2Proof.Machine
end

