-- ==== Sys2Proof/Machine/Memory.lean ====
section
/-! DEFINITION. The two indexed stores of 64-bit words, `CTL.timing` (10_state.md R32) and `NV` (R33): their keys, the
canonical form of the list that holds one, and the operations on it. A word is read and written whole (R66, R67 (a)). -/

namespace Sys2Proof.Machine

/-- The number of a phase (R51, R99). -/
def phaseNumber : Phase → Nat
  | .arb => 0
  | .fd => 1

/-- The key of the timing register of handle `h` and phase `ph` (R50, R51). -/
def timingKey (h : Handle) (ph : Phase) : Nat := 2 * h.bits.toNat + phaseNumber ph

/-- The key of the non-volatile word of name `n` and phase `ph` (R33, R50). -/
def nvKey (n : Name) (ph : Phase) : Nat := 2 * n.tag + phaseNumber ph

/-- The canonical form: keys strictly rising, so equal stores are equal lists. -/
abbrev Memory.wf (m : Memory) : Prop := m.Pairwise (fun x y => x.1 < y.1)

/-- The word at a key; `none` where nothing is held. -/
def Memory.read : Memory → Nat → Option Word
  | [], _ => none
  | (k, v) :: m, a => if k = a then some v else Memory.read m a

/-- The store with `v` at key `a`. -/
def Memory.write : Memory → Nat → Word → Memory
  | [], a, v => [(a, v)]
  | (k, w) :: m, a, v =>
    if a < k then (a, v) :: (k, w) :: m
    else if a = k then (a, v) :: m
    else (k, w) :: Memory.write m a v

/-- The store with nothing at key `a`. -/
def Memory.erase : Memory → Nat → Memory
  | [], _ => []
  | (k, w) :: m, a => if k = a then m else (k, w) :: Memory.erase m a

end Sys2Proof.Machine
end

