-- ==== Sys2Proof/Machine/Operands.lean ====
section
/-! DEFINITION. Operand forms: the assembly of a timing word from parameters and its disassembly (30_encoding.md R80 to R91,
R101, 40_codec.md R120 to R127), the timeout and code operands (R97, R104), the frame list (R98, R100 (e), (f)). Checks are
on unbounded naturals (R10, R130). -/

namespace Sys2Proof.Machine

/-- Bits that hold fields in an arbitration word (R80). -/
def arbFieldMask : Word := ~~~arbFixedMask

/-- The fixed-bit mask of an FD word: that of R87, grown by bits 54 down to `40 + TDCO_BITS` when `TDCO_BITS < 15` (R87). -/
def fdMask (p : Params) : Word := fdFixedMask ||| BitVec.ofNat 64 ((2 ^ 15 - 2 ^ p.tdcoBits) * 2 ^ 40)

/-- The constraints of R6 on the parameters, with what R101 (f) and R87 say of the bases (log entry 12): they share no bit with a
field, nor with a bit of the offset field that `TDCO_BITS` leaves reserved. -/
def paramsValid (p : Params) : Bool :=
  decide (1 ≤ p.clockMHz) && decide (p.clockMHz < 2 ^ 32) && decide (1 ≤ p.tdcoBits) && decide (p.tdcoBits ≤ 15) &&
    decide (1 ≤ p.nSessions) && decide (p.nSessions ≤ 256) && decide (p.arbBase &&& arbFieldMask = 0#64) &&
    decide (p.fdBase &&& ~~~fdFixedMask = 0#64)

/-- `TQ(p) = floor(p * 1000 / CLOCK_MHZ)` (R101 (a), R120). -/
def timeQuantum (p : Params) (prescaler : Nat) : Nat := prescaler * 1000 / p.clockMHz

/-- `PackArb` of R121. -/
def packArb (p : Params) (tq ts1 ts2 sjw : Nat) : Word :=
  p.arbBase ||| (BitVec.ofNat 64 tq <<< 32) ||| (BitVec.ofNat 64 sjw <<< 16) ||| (BitVec.ofNat 64 (ts1 - 1) <<< 8) |||
    BitVec.ofNat 64 (ts2 - 1)

/-- `TDCE` of R88: the enable bit is set iff the offset is strictly positive. -/
def tdcEnable (off : Nat) : Nat := if off = 0 then 0 else 1

/-- `PackFd` of R123. -/
def packFd (p : Params) (tq ts1 ts2 sjw off : Nat) : Word :=
  p.fdBase ||| (BitVec.ofNat 64 (tdcEnable off) <<< 55) ||| (BitVec.ofNat 64 (off - 1) <<< 40) |||
    (BitVec.ofNat 64 tq <<< 13) ||| (BitVec.ofNat 64 (ts1 - 1) <<< 8) ||| (BitVec.ofNat 64 (ts2 - 1) <<< 4) |||
    BitVec.ofNat 64 (sjw - 1)

/-- The first check of R122 and R124: no operand that must be positive is 0. -/
def anyZero (prescaler ts1 ts2 sjw : Nat) : Bool := prescaler == 0 || ts1 == 0 || ts2 == 0 || sjw == 0

/-- The second check of R122: a field of the arbitration word would not fit. -/
def arbOverflow (tq ts1 ts2 sjw : Nat) : Bool :=
  decide (2 ^ tqBits ≤ tq) || decide (2 ^ 8 ≤ ts1 - 1) || decide (2 ^ 8 ≤ ts2 - 1) || decide (2 ^ 8 ≤ sjw)

/-- The second and third checks of R124: a field of the FD word would not fit. -/
def fdOverflow (p : Params) (tq ts1 ts2 sjw off : Nat) : Bool :=
  decide (2 ^ tqBits ≤ tq) || decide (2 ^ 5 ≤ ts1 - 1) || decide (2 ^ 4 ≤ ts2 - 1) || decide (2 ^ 4 ≤ sjw - 1) ||
    (decide (0 < off) && decide (2 ^ p.tdcoBits ≤ off - 1))

/-- The word ENC_ARB computes (R122), `none` where it raises InvalidTimingParameter. -/
def encodeArb (p : Params) (prescaler ts1 ts2 sjw : Nat) : Option Word :=
  if anyZero prescaler ts1 ts2 sjw then none
  else if arbOverflow (timeQuantum p prescaler) ts1 ts2 sjw then none
  else some (packArb p (timeQuantum p prescaler) ts1 ts2 sjw)

/-- The word ENC_FD computes (R124), `none` where it raises InvalidTimingParameter. -/
def encodeFd (p : Params) (prescaler ts1 ts2 sjw off : Nat) : Option Word :=
  if anyZero prescaler ts1 ts2 sjw then none
  else if fdOverflow p (timeQuantum p prescaler) ts1 ts2 sjw off then none
  else some (packFd p (timeQuantum p prescaler) ts1 ts2 sjw off)

/-- The canonical check for an arbitration word (R86). -/
def canonicalArb (p : Params) (v : Word) : Bool :=
  decide (v &&& arbFixedMask = p.arbBase) && decide (v.extractLsb' 16 8 ≠ 0#8)

/-- The canonical check for an FD word (R91). -/
def canonicalFd (p : Params) (v : Word) : Bool :=
  decide (v &&& fdMask p = p.fdBase) && (v.getLsbD 55 || decide (v.extractLsb' 40 15 = 0#15))

/-- What DEC_ARB returns (R126). -/
structure ArbParams where
  tq : Nat
  ts1 : Nat
  ts2 : Nat
  sjw : Nat
  deriving DecidableEq, Repr

/-- What DEC_FD returns (R127). -/
structure FdParams where
  tq : Nat
  ts1 : Nat
  ts2 : Nat
  sjw : Nat
  off : Nat
  en : Nat
  deriving DecidableEq, Repr

/-- The fields of an arbitration word with the decrements undone (R126). -/
def unpackArb (v : Word) : ArbParams where
  tq := (v.extractLsb' 32 13).toNat
  ts1 := (v.extractLsb' 8 8).toNat + 1
  ts2 := (v.extractLsb' 0 8).toNat + 1
  sjw := (v.extractLsb' 16 8).toNat

/-- The fields of an FD word with the decrements undone (R127). -/
def unpackFd (v : Word) : FdParams where
  tq := (v.extractLsb' 13 13).toNat
  ts1 := (v.extractLsb' 8 5).toNat + 1
  ts2 := (v.extractLsb' 4 4).toNat + 1
  sjw := (v.extractLsb' 0 4).toNat + 1
  off := if v.getLsbD 55 then (v.extractLsb' 40 15).toNat + 1 else 0
  en := (v.extractLsb' 55 1).toNat

/-- DEC_ARB's result (R126), `none` where it raises InvalidTimingParameter. -/
def decodeArb (p : Params) (v : Word) : Option ArbParams := if canonicalArb p v then some (unpackArb v) else none

/-- DEC_FD's result (R127), `none` where it raises InvalidTimingParameter. -/
def decodeFd (p : Params) (v : Word) : Option FdParams := if canonicalFd p v then some (unpackFd v) else none

/-- The word ENC_ARB computes from the operand ports of a command (R122). -/
def Cmd.arbWord? (p : Params) (c : Cmd) : Option Word :=
  encodeArb p c.a0.toNat c.a1.toNat c.a2.toNat c.a3.toNat

/-- The word ENC_FD computes from the operand ports of a command (R124). -/
def Cmd.fdWord? (p : Params) (c : Cmd) : Option Word :=
  encodeFd p c.a0.toNat c.a1.toNat c.a2.toNat c.a3.toNat c.a4.toNat

/-- `a0[31:0]`: the timeout operand of the frame operations, a signed 32-bit value (R104), and the code operand of ERRTEXT,
unsigned (R215). The upper 32 bits are ignored (R97). -/
def Cmd.low32 (c : Cmd) : Word32 := c.a0.extractLsb' 0 32

/-- What a timeout asks of the controller (R104, R244 (a)). The block passes the operand on and never looks at it. -/
inductive TimeoutPolicy where
  | poll
  | unbounded
  | bounded
  deriving DecidableEq, Repr

/-- 0 polls, a negative value waits without limit, a positive one bounds the wait (R104). -/
def timeoutPolicy (t : Word32) : TimeoutPolicy :=
  if t = 0#32 then .poll else if t.toInt < 0 then .unbounded else .bounded

/-- The payload of a frame: `data[0 .. len-1]` (R98). -/
def Frame.payload (f : Frame) : List Byte := f.data.toList.take f.len.toNat

/-- `len` is not one of the reserved values 65 to 127 (R98, R100 (e)). -/
def Frame.lenOk (f : Frame) : Bool := decide (f.len.toNat ≤ maxPayload)

/-- A frame all of whose bits are 0. -/
def Frame.zero : Frame where
  id := 0#29
  type := .classic
  ext := false
  len := 0#7
  data := Vector.replicate 64 0#8
  timestamp := 0#64
  transmitted := false

/-- How many entries of `frames_in` an operation reads (R97). -/
def framesNeeded : Instr → Nat
  | .send _ => 1
  | .sendn _ count => count.toNat
  | _ => 0

/-- R100 (e), (f) for an operation that reads `n` frames of the list; later entries are ignored (R97, U7). -/
def framesRefused (n : Nat) (frames : List Frame) : Option Refusal :=
  if frames.length < n then some .framesMissing
  else if (frames.take n).all Frame.lenOk then none
  else some .frameTooLong

/-- The `i`-th frame of a batch of `count` (R193). -/
def batchFrame? (frames : List Frame) (count i : Nat) : Option Frame := if i < count then frames[i]? else none

end Sys2Proof.Machine
end

