-- ==== Sys2Proof/Machine/Flags.lean ====
section
/-! DEFINITION. The block has no condition codes (10_state.md R31). Its one-bit quantities and the words made of them: the
status word of a response (30_encoding.md R95), the acceptance table (41_lifecycle.md R150), the `Bound` predicate (R29) and
the error matrix (60_exceptions.md R239). The status read-out port (R31) is in Readout.lean. -/

namespace Sys2Proof.Machine

/-- The number of a result kind (R95, R230). -/
def ResultKind.number : ResultKind → BitVec 4
  | .ok => 0#4
  | .channelNotFound => 1#4
  | .channelBusy => 2#4
  | .invalidChannelState => 3#4
  | .unsupportedMode => 4#4
  | .unsupportedFeature => 5#4
  | .invalidTimingParameter => 6#4
  | .timeout => 7#4
  | .ioFailure => 8#4

/-- The number of a lifecycle state (R23). -/
def LifeState.number : LifeState → BitVec 2
  | .unbound => 0#2
  | .discovered => 1#2
  | .opened => 2#2
  | .closed => 3#2

/-- The status word of R95: kind in bits 3:0, zeros in 31:4, code in 63:32. -/
def statusWord (kind : ResultKind) (code : Word32) : Word := code ++ 0#28 ++ kind.number

/-- A response (R30, R95). -/
def mkResponse (kind : ResultKind) (code : Word32) (res : Results) : Response := ⟨statusWord kind code, res⟩

/-- `last_error` after an operation (R27): `Ok` leaves it unchanged. -/
def lastErrorAfter (old : LastError) (kind : ResultKind) (code : Word32) : LastError :=
  if kind = .ok then old else ⟨kind, code⟩

/-- DISCOVER's column of R150. -/
def acceptsUnbound (st : LifeState) : Bool := st == .unbound

/-- OPEN's row of R150. -/
def acceptsDiscovered (st : LifeState) : Bool := st == .discovered

/-- CLOSE's and the frame operations' rows of R150. -/
def acceptsOpen (st : LifeState) : Bool := st == .opened

/-- The configure operations', APPLY's and the probes' rows of R150: the states in which the session holds a bound handle. -/
def acceptsBound (st : LifeState) : Bool := st == .discovered || st == .opened

/-- The acceptance table of R150 over the instructions; an operation without a session is always accepted. -/
def acceptedIn (i : Instr) (st : LifeState) : Bool :=
  match i with
  | .discover _ => acceptsUnbound st
  | .openSess _ _ _ => acceptsDiscovered st
  | .closeSess _ => acceptsOpen st
  | .cfgArbRaw _ => acceptsBound st
  | .cfgArbPar _ => acceptsBound st
  | .cfgFdRaw _ => acceptsBound st
  | .cfgFdPar _ => acceptsBound st
  | .apply _ _ => acceptsBound st
  | .send _ => acceptsOpen st
  | .sendn _ _ => acceptsOpen st
  | .recv _ => acceptsOpen st
  | .recvn _ _ => acceptsOpen st
  | .probeTerm _ => acceptsBound st
  | .probeEcho _ => acceptsBound st
  | .probeBlink _ => acceptsBound st
  | .probeTxmode _ => acceptsBound st
  | .encArb => true
  | .encFd => true
  | .decArb => true
  | .decFd => true
  | .errtext => true
  | .arbWord _ _ _ _ => true
  | .fdWord _ _ _ _ _ _ => true

/-- A session that holds its name: `Discovered` or `Open` (R29). -/
def Session.live (r : Session) : Bool := acceptsBound r.state

/-- `Bound(n)` of R29: some session in `Discovered` or `Open` has the name. -/
def State.bound (s : State) (n : Name) : Bool := s.sessions.any (fun r => r.live && r.name == some n)

/-- The kinds an operation can end with: the rows of the table of R239. -/
def allowedKinds : Instr → List ResultKind
  | .encArb => [.ok, .invalidTimingParameter]
  | .encFd => [.ok, .invalidTimingParameter]
  | .decArb => [.ok, .invalidTimingParameter]
  | .decFd => [.ok, .invalidTimingParameter]
  | .discover _ => [.ok, .channelNotFound, .channelBusy, .invalidChannelState]
  | .openSess _ _ _ => [.ok, .invalidChannelState, .unsupportedMode, .unsupportedFeature]
  | .closeSess _ => [.ok, .invalidChannelState]
  | .cfgArbRaw _ => [.ok, .invalidChannelState]
  | .cfgArbPar _ => [.ok, .invalidChannelState, .invalidTimingParameter]
  | .cfgFdRaw _ => [.ok, .invalidChannelState]
  | .cfgFdPar _ => [.ok, .invalidChannelState, .invalidTimingParameter]
  | .apply _ _ => [.ok, .invalidChannelState]
  | .send _ => [.ok, .invalidChannelState, .timeout, .ioFailure]
  | .sendn _ _ => [.ok, .invalidChannelState, .timeout, .ioFailure]
  | .recv _ => [.ok, .invalidChannelState, .timeout, .ioFailure]
  | .recvn _ _ => [.ok, .invalidChannelState, .timeout, .ioFailure]
  | .probeTerm _ => [.ok, .invalidChannelState, .unsupportedFeature]
  | .probeEcho _ => [.ok, .invalidChannelState, .unsupportedFeature]
  | .probeBlink _ => [.ok, .invalidChannelState, .unsupportedFeature]
  | .probeTxmode _ => [.ok, .invalidChannelState, .unsupportedFeature]
  | .errtext => [.ok]
  | .arbWord _ _ _ _ => []
  | .fdWord _ _ _ _ _ _ => []

end Sys2Proof.Machine
end

