-- ==== Sys2Proof/Machine/Ops.lean ====
section
/-! DEFINITION. The shared operations over the state: the history (10_state.md R35), the session lock and admission
(20_memory.md R63), controller calls and their answers (R52 to R62), `raise` (60_exceptions.md R236) and the normal end of an
operation, writes of the environment (R32, R33), and reset (70_reset_and_hazards.md R270). -/

namespace Sys2Proof.Machine

/-- The state with an event added at the end of the history (R35). -/
def State.record (s : State) (e : HistEvent) : State := { s with history := s.history ++ [e] }

/-- The state with the record of session `k` changed by `f`; there is no other way a session record is written (R22). -/
def State.updSession (s : State) (k : Nat) (f : Session → Session) : State :=
  { s with sessions := s.sessions.modify k f }

/-- The in-flight record of session `k` (R28). -/
def State.inflight? (s : State) (k : Nat) : Option InFlight :=
  match s.sessions[k]? with
  | some r => r.inflight
  | none => none

/-- The in-flight record made by admission (R28, R63): no frame attempted, no call issued. -/
def startFlight (i : Instr) (c : Cmd) : InFlight where
  instr := i
  cmd := c
  next := 0
  got := []
  call := none

/-- The record of a session whose lock is taken (R28, R63). -/
def Session.locked (f : InFlight) (r : Session) : Session := { r with busy := true, inflight := some f }

/-- The record of a session with a controller call issued (R28). -/
def Session.calling (f : InFlight) (c : CtlCall) (r : Session) : Session :=
  { r with inflight := some { f with call := some c } }

/-- The record of a session whose operation has ended: lock free, no in-flight record, `last_error` (R27, R63). -/
def Session.completed (kind : ResultKind) (code : Word32) (r : Session) : Session :=
  { r with busy := false, inflight := none, lastError := lastErrorAfter r.lastError kind code }

/-- `lock(s)` of R63: `busy` set, the in-flight record created, `Issue` recorded (R35). -/
def State.lock (s : State) (k : Nat) (i : Instr) : State :=
  (s.updSession k (Session.locked (startFlight i s.port))).record (.issue s.port i)

/-- A command presented while its session is busy is held, unanswered and unrejected (R63). -/
def State.hold (s : State) (i : Instr) : State := { s with held := s.held ++ [⟨i, s.port⟩] }

/-- A controller call on behalf of session `k` (R52, R62), with `f` as the progress made so far (R28). -/
def State.call (s : State) (k : Nat) (f : InFlight) (c : CtlCall) : State :=
  (s.updSession k (Session.calling f c)).record (.ctlCall (.session k) c)

/-- The response written to the response ports in full and delivered (R30, R35). -/
def State.deliver (s : State) (req : Nat) (r : Response) : State :=
  State.record { s with resp := r, respTo := req } (.complete req r)

/-- The end of an operation of session `k` (R63 `unlock`, R236 (b) to (d)): `last_error`, the lock, the response. -/
def State.complete (s : State) (k : Nat) (req : Nat) (kind : ResultKind) (code : Word32) (res : Results) : State :=
  (s.updSession k (Session.completed kind code)).deliver req (mkResponse kind code res)

/-- `raise K(code)` of R236 for an operation of session `k`: the block's whole "trap entry". `res` is the partial result the
batch operations report with it (R236 (b)); nothing is saved and control goes nowhere (R236, R245). -/
def State.raise (s : State) (k : Nat) (req : Nat) (kind : ResultKind) (code : Word32) (res : Results) : State :=
  s.complete k req kind code res

/-- `return Ok(...)` (R11) for an operation of session `k`. -/
def State.finishOk (s : State) (k : Nat) (req : Nat) (res : Results) : State := s.complete k req .ok 0#32 res

/-- `raise K(code)` while holding `dlock`, which is released (R151, R236 (d)). -/
def State.raiseDiscover (s : State) (k : Nat) (req : Nat) (kind : ResultKind) : State :=
  State.raise { s with dlock := false } k req kind 0#32 {}

/-- A sessionless operation that needs no controller call (R131): issued and answered at once, no lock, no `last_error`. -/
def State.answerAtOnce (s : State) (i : Instr) (kind : ResultKind) (res : Results) : State :=
  (s.record (.issue s.port i)).deliver s.port.req (mkResponse kind 0#32 res)

/-- Every operation that names a session (R63, R240): a session index out of range is refused (R100 (b)); a taken lock holds
the command; then the lock is taken and the lifecycle check of R150 made, `InvalidChannelState` before anything else (R233);
then the rest of the operation, `body`, runs on the session's index, its new in-flight record, its record as it was before
the lock was taken, and the state. -/
def sessionOp (sess : BitVec 8) (i : Instr) (s : State) (body : Nat → InFlight → Session → State → Result) : Result :=
  match s.sessions[sess.toNat]? with
  | none => .refused .sessionOutOfRange
  | some r =>
    if r.busy then .next (s.hold i)
    else if acceptedIn i r.state then body sess.toNat (startFlight i s.port) r (s.lock sess.toNat i)
    else .next ((s.lock sess.toNat i).raise sess.toNat s.port.req .invalidChannelState 0#32 {})

/-- `let some h = S[s].handle`, which R36 (I1) makes total in the states it stands in. -/
def withHandle (r : Session) (body : Handle → Result) : Result :=
  match r.handle with
  | some h => body h
  | none => .fault .noHandle

/-- The answers a call can have: those of its signature (R53 to R61). -/
def CtlCall.admits : CtlCall → CtlAnswer → Bool
  | .enumerate, .names _ => true
  | .bind _, .bound _ => true
  | .unbind _, .unbound => true
  | .queryCapability _ _, .capability _ => true
  | .writeTiming _ _ _, .written => true
  | .readTiming _ _, .timing _ => true
  | .transmit _ _ _, .transmitted _ => true
  | .receive _ _, .received _ => true
  | .errorText _, .text _ => true
  | _, _ => false

/-- `CTL.timing[h][ph] <- some v` (R32, R57), and the record of what was last written there. -/
def State.writeTiming (s : State) (h : Handle) (ph : Phase) (v : Word) : State :=
  { s with
    ctlTiming := s.ctlTiming.write (timingKey h ph) v
    ctlWritten := s.ctlWritten.write (timingKey h ph) v }

/-- After `CtlUnbind(h)` the registers of `h` hold no value the spec states (R32, U23). -/
def State.forgetTiming (s : State) (h : Handle) : State :=
  { s with ctlTiming := (s.ctlTiming.erase (timingKey h .arb)).erase (timingKey h .fd) }

/-- `NV[n][ph] <- some v` (R33, R176). -/
def State.writeNv (s : State) (n : Name) (ph : Phase) (v : Word) : State :=
  { s with nv := s.nv.write (nvKey n ph) v }

/-- The reset event (R270): block state to the values of R37, in-flight and held commands dropped without a response, no
controller call, `NV` and what was written to the controller untouched; what the timing registers hold is unspecified from
then on (R32, R272). The ports carry nothing (R272, log entry 4). -/
def State.assertReset (s : State) : State :=
  { s with
    sessions := List.replicate s.params.nSessions Session.reset
    dlock := false
    held := []
    lookups := []
    portValid := false
    port := Cmd.zero
    resp := Response.zero
    respTo := 0
    ctlTiming := []
    history := [] }

end Sys2Proof.Machine
end

