-- ==== Sys2Proof/Machine/Codec.lean ====
section
/-! DEFINITION. The codec operations (40_codec.md R120 to R131). They name no session, take no lock and always answer (R131). -/

namespace Sys2Proof.Machine

/-- The answer of an encode operation: `r0` the word, or InvalidTimingParameter with `r0` = 0 (R122, R124). -/
def answerEncode (i : Instr) (w : Option Word) (s : State) : State :=
  match w with
  | some v => s.answerAtOnce i .ok { r0 := v }
  | none => s.answerAtOnce i .invalidTimingParameter {}

/-- ENC_ARB (R122). -/
def execEncArb (s : State) : Result := .next (answerEncode .encArb (s.port.arbWord? s.params) s)

/-- ENC_FD (R124). -/
def execEncFd (s : State) : Result := .next (answerEncode .encFd (s.port.fdWord? s.params) s)

/-- The result words of DEC_ARB (R126). -/
def arbResults (q : ArbParams) : Results :=
  { r0 := BitVec.ofNat 64 q.tq, r1 := BitVec.ofNat 64 q.ts1, r2 := BitVec.ofNat 64 q.ts2, r3 := BitVec.ofNat 64 q.sjw }

/-- The result words of DEC_FD (R127). -/
def fdResults (q : FdParams) : Results :=
  { r0 := BitVec.ofNat 64 q.tq, r1 := BitVec.ofNat 64 q.ts1, r2 := BitVec.ofNat 64 q.ts2, r3 := BitVec.ofNat 64 q.sjw,
    r4 := BitVec.ofNat 64 q.off, r5 := BitVec.ofNat 64 q.en }

/-- DEC_ARB (R126). -/
def execDecArb (s : State) : Result :=
  match decodeArb s.params s.port.a0 with
  | some q => .next (s.answerAtOnce .decArb .ok (arbResults q))
  | none => .next (s.answerAtOnce .decArb .invalidTimingParameter {})

/-- DEC_FD (R127). -/
def execDecFd (s : State) : Result :=
  match decodeFd s.params s.port.a0 with
  | some q => .next (s.answerAtOnce .decFd .ok (fdResults q))
  | none => .next (s.answerAtOnce .decFd .invalidTimingParameter {})

end Sys2Proof.Machine
end

