-- ==== Sys2Proof/Machine/Answers.lean ====
section
/-! DEFINITION. How an operation in flight goes on when the controller answers its call (20_memory.md R52 to R62): the part of
each operation's pseudocode after a `Ctl...` line, one definition per operation, and `settle`, which runs an operation as long
as the next events of the world outside are its answers. The part before the first call is in Lifecycle.lean, Configure.lean,
FrameIo.lean and Probe.lean. -/

namespace Sys2Proof.Machine

/-- How an operation goes on when its outstanding call is answered: session, in-flight record, answer, state with the answer
recorded; `none` if the operation makes no such call. -/
abbrev Resume := Nat → InFlight → CtlAnswer → State → Option State

/-! ### DISCOVER and CLOSE -/

/-- DISCOVER takes `dlock` and calls `CtlEnumerate` (R151). -/
def discoverEnumerate (k : Nat) (f : InFlight) (s : State) : State :=
  State.call { s with dlock := true } k f .enumerate

/-- DISCOVER after the enumeration: absent name, bound name, or the bind (R151; the order of R240). DESIGN CHOICE (unsafe for a
claim about the event order): R151 orders the two checks but does not say when after the return of `CtlEnumerate` they fall; the
model makes them in the same transition as that return, so no CLOSE of another session comes between (log entry 25). -/
def discoverNamed (k : Nat) (f : InFlight) (names : List Name) (s : State) : State :=
  if f.cmd.nameIn ∉ names then s.raiseDiscover k f.cmd.req .channelNotFound
  else if s.bound f.cmd.nameIn then s.raiseDiscover k f.cmd.req .channelBusy
  else s.call k f (.bind f.cmd.nameIn)

/-- The record of a session that has its channel (R151). -/
def Session.discoveredAs (n : Name) (h : Handle) (r : Session) : Session :=
  { r with name := some n, handle := some h, state := .discovered }

/-- The record of a closed session: everything but `state` is kept (R153). -/
def Session.closedNow (r : Session) : Session := { r with state := .closed }

/-- DISCOVER's state write: `name`, `handle`, `state`, then `dlock` is released (R151). -/
def discoverBound (k : Nat) (f : InFlight) (n : Name) (h : Handle) (s : State) : State :=
  State.finishOk
    { s.updSession k (Session.discoveredAs n h) with dlock := false }
    k f.cmd.req {}

/-- DISCOVER going on with an answer (R151). -/
def resumeDiscover : Resume := fun k f a s =>
  match f.call, a with
  | some .enumerate, .names l => some (discoverNamed k f l s)
  | some (.bind _), .bound none => some (s.raiseDiscover k f.cmd.req .channelNotFound)
  | some (.bind n), .bound (some h) => some (discoverBound k f n h s)
  | _, _ => none

/-- CLOSE after the unbind (R153). -/
def closeUnbound (k : Nat) (f : InFlight) (h : Handle) (s : State) : State :=
  ((s.forgetTiming h).updSession k Session.closedNow).finishOk k f.cmd.req {}

/-- CLOSE going on with the return of `CtlUnbind` (R153). -/
def resumeClose : Resume := fun k f a s =>
  match f.call, a with
  | some (.unbind h), .unbound => some (closeUnbound k f h s)
  | _, _ => none

/-! ### APPLY -/

/-- The staged FD word of session `k` (R26). -/
def State.fdStaged? (s : State) (k : Nat) : Option Word :=
  match s.sessions[k]? with
  | some r => r.fdStaged
  | none => none

/-- The name of session `k` (R24). -/
def State.name? (s : State) (k : Nat) : Option Name :=
  match s.sessions[k]? with
  | some r => r.name
  | none => none

/-- APPLY's second half: the FD word if one is staged, else the end (R176). -/
def applyFd (k : Nat) (f : InFlight) (h : Handle) (s : State) : State :=
  match s.fdStaged? k with
  | some w => s.call k f (.writeTiming h .fd w)
  | none => s.finishOk k f.cmd.req {}

/-- APPLY from its start: the arbitration word if one is staged, else the FD half (R176). -/
def applyArb (k : Nat) (f : InFlight) (r : Session) (h : Handle) (s : State) : State :=
  match r.arbStaged with
  | some v => s.call k f (.writeTiming h .arb v)
  | none => applyFd k f h s

/-- What a returned `CtlWriteTiming` leaves: the register, and with `temporary` = 0 the non-volatile word (R176). -/
def State.applied (s : State) (temporary : Bool) (k : Nat) (h : Handle) (ph : Phase) (v : Word) : State :=
  match temporary, s.name? k with
  | false, some n => (s.writeTiming h ph v).writeNv n ph v
  | _, _ => s.writeTiming h ph v

/-- APPLY going on with the return of a `CtlWriteTiming` (R176). -/
def resumeApply (temporary : Bool) : Resume := fun k f a s =>
  match f.call, a with
  | some (.writeTiming h .arb v), .written => some (applyFd k f h (s.applied temporary k h .arb v))
  | some (.writeTiming h .fd v), .written => some ((s.applied temporary k h .fd v).finishOk k f.cmd.req {})
  | _, _ => none

/-! ### The frame operations -/

/-- SEND going on with the answer of `CtlTransmit` (R191). -/
def resumeSend : Resume := fun k f a s =>
  match f.call, a with
  | some (.transmit _ _ _), .transmitted .ok => some (s.finishOk k f.cmd.req {})
  | some (.transmit _ _ _), .transmitted (.timeout c) => some (s.raise k f.cmd.req .timeout c {})
  | some (.transmit _ _ _), .transmitted (.ioFailure c) => some (s.raise k f.cmd.req .ioFailure c {})
  | _, _ => none

/-- SENDN at index `i`: the next frame is given to the controller, or the batch is done (R193). -/
def sendnFrom (count : Nat) (k : Nat) (f : InFlight) (h : Handle) (t : Word32) (i : Nat) (s : State) : State :=
  match batchFrame? f.cmd.framesIn count i with
  | some fr => s.call k { f with next := i } (.transmit h fr t)
  | none => s.finishOk k f.cmd.req { r0 := BitVec.ofNat 64 i }

/-- SENDN going on with the answer for frame `f.next` (R193): the first that is not `Ok` ends the batch, `r0` counting the
frames accepted before it. -/
def resumeSendn (count : Nat) : Resume := fun k f a s =>
  match f.call, a with
  | some (.transmit h _ t), .transmitted .ok => some (sendnFrom count k f h t (f.next + 1) s)
  | some (.transmit _ _ _), .transmitted (.timeout c) =>
    some (s.raise k f.cmd.req .timeout c { r0 := BitVec.ofNat 64 f.next })
  | some (.transmit _ _ _), .transmitted (.ioFailure c) =>
    some (s.raise k f.cmd.req .ioFailure c { r0 := BitVec.ofNat 64 f.next })
  | _, _ => none

/-- RECV going on with the answer of `CtlReceive` (R194): the frame is passed through unchanged. -/
def resumeRecv : Resume := fun k f a s =>
  match f.call, a with
  | some (.receive _ _), .received (.ok fr) => some (s.finishOk k f.cmd.req { framesOut := [fr] })
  | some (.receive _ _), .received (.timeout c) => some (s.raise k f.cmd.req .timeout c {})
  | some (.receive _ _), .received (.ioFailure c) => some (s.raise k f.cmd.req .ioFailure c {})
  | _, _ => none

/-- RECVN with `got` collected: another `CtlReceive`, or the batch is done (R195). -/
def recvnFrom (count : Nat) (k : Nat) (f : InFlight) (h : Handle) (t : Word32) (got : List Frame) (s : State) : State :=
  if got.length < count then s.call k { f with next := got.length, got := got } (.receive h t)
  else s.finishOk k f.cmd.req { r0 := BitVec.ofNat 64 got.length, framesOut := got }

/-- The partial result of RECVN (R195): the frames received so far and their number. -/
def recvnResults (f : InFlight) : Results := { r0 := BitVec.ofNat 64 f.got.length, framesOut := f.got }

/-- RECVN going on with an answer (R195): the frames are kept in arrival order, the first failure ends the batch. -/
def resumeRecvn (count : Nat) : Resume := fun k f a s =>
  match f.call, a with
  | some (.receive h t), .received (.ok fr) => some (recvnFrom count k f h t (f.got ++ [fr]) s)
  | some (.receive _ _), .received (.timeout c) => some (s.raise k f.cmd.req .timeout c (recvnResults f))
  | some (.receive _ _), .received (.ioFailure c) => some (s.raise k f.cmd.req .ioFailure c (recvnResults f))
  | _, _ => none

/-! ### The probes -/

/-- A probe going on with the controller's answer (R210): `false` is UnsupportedFeature with `r0` = 0. -/
def resumeProbe : Resume := fun k f a s =>
  match f.call, a with
  | some (.queryCapability _ _), .capability true => some (s.finishOk k f.cmd.req { r0 := 1#64 })
  | some (.queryCapability _ _), .capability false => some (s.raise k f.cmd.req .unsupportedFeature 0#32 {})
  | _, _ => none

/-! ### Any operation -/

/-- How the command in flight goes on with an answer: the rule of its own operation. -/
def resumeAny : Resume := fun k f a s =>
  match f.instr with
  | .discover _ => resumeDiscover k f a s
  | .closeSess _ => resumeClose k f a s
  | .apply _ temporary => resumeApply temporary k f a s
  | .send _ => resumeSend k f a s
  | .sendn _ count => resumeSendn count.toNat k f a s
  | .recv _ => resumeRecv k f a s
  | .recvn _ count => resumeRecvn count.toNat k f a s
  | .probeTerm _ => resumeProbe k f a s
  | .probeEcho _ => resumeProbe k f a s
  | .probeBlink _ => resumeProbe k f a s
  | .probeTxmode _ => resumeProbe k f a s
  | .encArb => none
  | .encFd => none
  | .decArb => none
  | .decFd => none
  | .openSess _ _ _ => none
  | .cfgArbRaw _ => none
  | .cfgArbPar _ => none
  | .cfgFdRaw _ => none
  | .cfgFdPar _ => none
  | .errtext => none
  | .arbWord _ _ _ _ => none
  | .fdWord _ _ _ _ _ _ => none

/-- The answer `a` to the outstanding call of session `k`: recorded (R35), and the operation goes on. `none` when the session
has no outstanding call or `a` is not of the call's type: such an answer is no answer (R52, R270 (b)). -/
def answered (k : Nat) (a : CtlAnswer) (s : State) : Option State :=
  match s.inflight? k with
  | none => none
  | some f =>
    match f.call with
    | none => none
    | some c => if c.admits a then resumeAny k f a (s.record (.ctlRet (.session k) a)) else none

/-- The operation in flight on session `k` runs on as long as the next events of the world outside are the answers to its
calls; then it is complete, or waits for an answer that has not come yet (R52, R281). -/
def drain (k : Nat) : List EnvEvent → State → State
  | [], s => s
  | e :: rest, s =>
    match e with
    | .answer j a =>
      if j = k then
        match answered k a { s with env := rest } with
        | some s' => drain k rest s'
        | none => s
      else s
    | _ => s

/-- `drain` on the events that are to come. -/
def settle (k : Nat) (s : State) : State := drain k s.env s

end Sys2Proof.Machine
end

