-- ==== Sys2Proof/Machine/Configure.lean ====
section
/-! DEFINITION. The configuration operations (42_config.md R170 to R177). -/

namespace Sys2Proof.Machine

/-- The record of a session with a word staged for a phase (R26). -/
def Session.staged (ph : Phase) (v : Word) (r : Session) : Session :=
  match ph with
  | .arb => { r with arbStaged := some v }
  | .fd => { r with fdStaged := some v }

/-- Stage a word for a phase: the whole 64-bit word is replaced, the other phase untouched (R26, R175). -/
def State.stage (s : State) (k : Nat) (ph : Phase) (v : Word) : State := s.updSession k (Session.staged ph v)

/-- The end of a parameter form: the encoder's word is staged, or InvalidTimingParameter (R172, R174). -/
def stageEncoded (k : Nat) (f : InFlight) (ph : Phase) (w : Option Word) (s : State) : State :=
  match w with
  | some v => (s.stage k ph v).finishOk k f.cmd.req {}
  | none => s.raise k f.cmd.req .invalidTimingParameter 0#32 {}

/-- CFG_ARB_RAW (R171): any 64-bit word is staged unchecked. -/
def execCfgArbRaw (sess : BitVec 8) (s : State) : Result :=
  sessionOp sess (.cfgArbRaw sess) s fun k f _ s1 => .next ((s1.stage k .arb f.cmd.a0).finishOk k f.cmd.req {})

/-- CFG_ARB_PAR (R172). -/
def execCfgArbPar (sess : BitVec 8) (s : State) : Result :=
  sessionOp sess (.cfgArbPar sess) s fun k f _ s1 => .next (stageEncoded k f .arb (f.cmd.arbWord? s1.params) s1)

/-- CFG_FD_RAW (R173): any 64-bit word is staged unchecked. -/
def execCfgFdRaw (sess : BitVec 8) (s : State) : Result :=
  sessionOp sess (.cfgFdRaw sess) s fun k f _ s1 => .next ((s1.stage k .fd f.cmd.a0).finishOk k f.cmd.req {})

/-- CFG_FD_PAR (R174). -/
def execCfgFdPar (sess : BitVec 8) (s : State) : Result :=
  sessionOp sess (.cfgFdPar sess) s fun k f _ s1 => .next (stageEncoded k f .fd (f.cmd.fdWord? s1.params) s1)

/-- APPLY (R176). -/
def execApply (sess : BitVec 8) (temporary : Bool) (s : State) : Result :=
  sessionOp sess (.apply sess temporary) s fun k f r s1 =>
    withHandle r fun h =>
      match r.name with
      | some _ => .next (settle k (applyArb k f r h s1))
      | none => .fault .noName

end Sys2Proof.Machine
end

