-- ==== Sys2Proof/Machine/FrameIo.lean ====
section
/-! DEFINITION. The frame operations SEND, SENDN, RECV, RECVN (43_frame_io.md R190 to R197). -/

namespace Sys2Proof.Machine

/-- A frame operation reads its frames from the command: the ill-formed lists of R100 (e), (f) are refused before the lock
(R240 (1)). -/
def withFrames (i : Instr) (s : State) (body : Result) : Result :=
  match framesRefused (framesNeeded i) s.port.framesIn with
  | some why => .refused why
  | none => body

/-- SEND (R191): one `CtlTransmit` of `frames_in[0]`, the timeout passed on unchanged (R190, R192). -/
def execSend (sess : BitVec 8) (s : State) : Result :=
  withFrames (.send sess) s <|
    sessionOp sess (.send sess) s fun k f r s1 =>
      withHandle r fun h =>
        match f.cmd.framesIn with
        | fr :: _ => .next (settle k (s1.call k f (.transmit h fr f.cmd.low32)))
        | [] => .refused .framesMissing

/-- SENDN (R193). -/
def execSendn (sess : BitVec 8) (count : BitVec 16) (s : State) : Result :=
  withFrames (.sendn sess count) s <|
    sessionOp sess (.sendn sess count) s fun k f r s1 =>
      withHandle r fun h =>
        .next (settle k (sendnFrom count.toNat k f h f.cmd.low32 0 s1))

/-- RECV (R194). -/
def execRecv (sess : BitVec 8) (s : State) : Result :=
  sessionOp sess (.recv sess) s fun k f r s1 =>
    withHandle r fun h => .next (settle k (s1.call k f (.receive h f.cmd.low32)))

/-- RECVN (R195). -/
def execRecvn (sess : BitVec 8) (count : BitVec 16) (s : State) : Result :=
  sessionOp sess (.recvn sess count) s fun k f r s1 =>
    withHandle r fun h =>
      .next (settle k (recvnFrom count.toNat k f h f.cmd.low32 [] s1))

end Sys2Proof.Machine
end

