-- ==== Sys2Proof/Machine/Lifecycle.lean ====
section
/-! DEFINITION. The lifecycle operations DISCOVER, OPEN, CLOSE (41_lifecycle.md R150 to R156). -/

namespace Sys2Proof.Machine

/-- DISCOVER (R151). While another DISCOVER has `dlock` it waits, holding its session's lock. -/
def execDiscover (sess : BitVec 8) (s : State) : Result :=
  sessionOp sess (.discover sess) s fun k f _ s1 =>
    if s1.dlock then .next s1 else .next (settle k (discoverEnumerate k f s1))

/-- The record of an opened session (R152). -/
def Session.openedAs (type : OpenType) (mode : OpenMode) (r : Session) : Session :=
  { r with openType := some type, openMode := some mode, state := .opened }

/-- OPEN (R152): mode before type, no controller call. -/
def execOpen (sess : BitVec 8) (type : OpenType) (mode : OpenMode) (s : State) : Result :=
  sessionOp sess (.openSess sess type mode) s fun k f _ s1 =>
    if mode ≠ .normal then .next (s1.raise k f.cmd.req .unsupportedMode 0#32 {})
    else if type = .fdNoIso then .next (s1.raise k f.cmd.req .unsupportedFeature 0#32 {})
    else
      .next ((s1.updSession k (Session.openedAs type mode)).finishOk k f.cmd.req {})

/-- CLOSE (R153). -/
def execClose (sess : BitVec 8) (s : State) : Result :=
  sessionOp sess (.closeSess sess) s fun k f r s1 =>
    withHandle r fun h => .next (settle k (s1.call k f (.unbind h)))

end Sys2Proof.Machine
end

