-- ==== Sys2Proof/Machine/Probe.lean ====
section
/-! DEFINITION. The capability probes and the error-text lookup (44_probe_lookup.md R210 to R216). -/

namespace Sys2Proof.Machine

/-- The common rule of the four probes (R210). -/
def probe (id : Capability) (sess : BitVec 8) (i : Instr) (s : State) : Result :=
  sessionOp sess i s fun k f r s1 =>
    withHandle r fun h => .next (settle k (s1.call k f (.queryCapability h id)))

/-- PROBE_TERM (R211). -/
def execProbeTerm (sess : BitVec 8) (s : State) : Result := probe .termination sess (.probeTerm sess) s

/-- PROBE_ECHO (R212). -/
def execProbeEcho (sess : BitVec 8) (s : State) : Result := probe .echo sess (.probeEcho sess) s

/-- PROBE_BLINK (R213). -/
def execProbeBlink (sess : BitVec 8) (s : State) : Result := probe .blink sess (.probeBlink sess) s

/-- PROBE_TXMODE (R214). -/
def execProbeTxmode (sess : BitVec 8) (s : State) : Result := probe .txMode sess (.probeTxmode sess) s

/-- The end of an ERRTEXT (R215): `text_out` is the controller's answer; always `Ok`. -/
def lookupDone (c : Cmd) (t : List Byte) (s : State) : State :=
  (s.record (.ctlRet (.lookup c.req) (.text t))).deliver c.req (mkResponse .ok 0#32 { textOut := t })

/-- The `j`-th outstanding lookup gets its text; anything else is no answer. -/
def answerText (j : Nat) (t : List Byte) (s : State) : State :=
  match s.lookups[j]? with
  | some c => lookupDone c t { s with lookups := s.lookups.eraseIdx j }
  | none => s

/-- ERRTEXT issued and its `CtlErrorText` outstanding (R215): sessionless, no lock. -/
def lookupStart (s : State) : State :=
  State.record { s.record (.issue s.port .errtext) with lookups := s.lookups ++ [s.port] }
    (.ctlCall (.lookup s.port.req) (.errorText s.port.low32))

/-- If the next event of the world outside is the text of the `j`-th lookup, that lookup is done. -/
def settleText (j : Nat) (s : State) : State :=
  match s.env with
  | .text j' t :: rest => if j' = j then answerText j t { s with env := rest } else s
  | _ => s

/-- ERRTEXT (R215). -/
def execErrtext (s : State) : Result := .next (settleText s.lookups.length (lookupStart s))

end Sys2Proof.Machine
end

