-- ==== Sys2Proof/Machine/RegisterWords.lean ====
section
/-! DEFINITION. The two rows of format REG64 of the opcode table (30_encoding.md R80, R87). "The two formats are different
spaces: a timing word is data carried on an operand port and is never decoded as a command." Presented as a command, one is
refused by name; as data it is what the operand ports and staged words hold (Operands.lean). -/

namespace Sys2Proof.Machine

/-- ARB_WORD (R80) presented as a command: refused. -/
def execArbWord (_tq : BitVec 13) (_sjw _ts1m1 _ts2m1 : BitVec 8) (_s : State) : Result :=
  .refused .timingWordIsNoCommand

/-- FD_WORD (R87) presented as a command: refused. -/
def execFdWord (_tdce : BitVec 1) (_tdcom1 : BitVec 15) (_tq : BitVec 13) (_ts1m1 : BitVec 5) (_ts2m1 _sjwm1 : BitVec 4)
    (_s : State) : Result :=
  .refused .timingWordIsNoCommand

end Sys2Proof.Machine
end

