-- ==== Sys2Proof/Machine/Dispatch.lean ====
section
/-! DEFINITION. What each instruction does when it is taken from the command port: one arm per constructor. The operands are
those of `s.port` (10_state.md R30, 30_encoding.md R97). -/

namespace Sys2Proof.Machine

def exec (i : Instr) (s : State) : Host.Outcome State Fault Refusal :=
  match i with
  | .encArb => Sys2Proof.Machine.execEncArb s
  | .encFd => Sys2Proof.Machine.execEncFd s
  | .decArb => Sys2Proof.Machine.execDecArb s
  | .decFd => Sys2Proof.Machine.execDecFd s
  | .discover sess => Sys2Proof.Machine.execDiscover sess s
  | .openSess sess type mode => Sys2Proof.Machine.execOpen sess type mode s
  | .closeSess sess => Sys2Proof.Machine.execClose sess s
  | .cfgArbRaw sess => Sys2Proof.Machine.execCfgArbRaw sess s
  | .cfgArbPar sess => Sys2Proof.Machine.execCfgArbPar sess s
  | .cfgFdRaw sess => Sys2Proof.Machine.execCfgFdRaw sess s
  | .cfgFdPar sess => Sys2Proof.Machine.execCfgFdPar sess s
  | .apply sess temporary => Sys2Proof.Machine.execApply sess temporary s
  | .send sess => Sys2Proof.Machine.execSend sess s
  | .sendn sess count => Sys2Proof.Machine.execSendn sess count s
  | .recv sess => Sys2Proof.Machine.execRecv sess s
  | .recvn sess count => Sys2Proof.Machine.execRecvn sess count s
  | .probeTerm sess => Sys2Proof.Machine.execProbeTerm sess s
  | .probeEcho sess => Sys2Proof.Machine.execProbeEcho sess s
  | .probeBlink sess => Sys2Proof.Machine.execProbeBlink sess s
  | .probeTxmode sess => Sys2Proof.Machine.execProbeTxmode sess s
  | .errtext => Sys2Proof.Machine.execErrtext s
  | .arbWord tq sjw ts1m1 ts2m1 => Sys2Proof.Machine.execArbWord tq sjw ts1m1 ts2m1 s
  | .fdWord tdce tdcom1 tq ts1m1 ts2m1 sjwm1 => Sys2Proof.Machine.execFdWord tdce tdcom1 tq ts1m1 ts2m1 sjwm1 s

end Sys2Proof.Machine
end

