-- ==== Sys2Proof/Machine/Events.lean ====
section
/-! DEFINITION. What happens in one step: the command on the command port is taken (10_state.md R21), or the next event of the
world outside comes: a command is presented (R8), the controller answers (20_memory.md R52), a held command is admitted (R64),
a waiting DISCOVER gets `dlock` (R29), reset is asserted (70_reset_and_hazards.md R270). -/

namespace Sys2Proof.Machine

/-- The command on the port is taken: the port is free again, its operands stay readable for the operation (R30, R71). -/
def State.taken (s : State) : State := { s with portValid := false }

/-- The word on the command port is decoded and run (R12, R92): a reserved encoding or a session out of range is refused
before anything else (R100, R240 (1)). -/
def takeCommand (s : State) : Result :=
  match decode s.port.word with
  | .error e => .refused (.reservedEncoding e)
  | .ok i => if i.wellFormed s.params.nSessions then exec i s.taken else .refused .sessionOutOfRange

/-- A command presented on the command port (R8, R21, R30). -/
def State.present (s : State) (c : Cmd) : State := { s with portValid := true, port := c }

/-- The controller answers session `k` (R52): the operation in flight goes on. An answer nobody waits for is dropped, as one
to a call that reset has abandoned is (R270 (b)). -/
def onAnswer (k : Nat) (a : CtlAnswer) (s : State) : State :=
  match answered k a s with
  | some s' => settle k s'
  | none => s

/-- The session of a held command is free (R63). A command without a session is never held. -/
def State.freeFor (s : State) (i : Instr) : Bool :=
  match i.session? with
  | none => false
  | some sess =>
    match s.sessions[sess.toNat]? with
    | some r => !r.busy
    | none => false

/-- The `j`-th held command is admitted (R64), with the operands it was presented with (R71). It stays held while its
session is busy. -/
def onAdmit (j : Nat) (s : State) : Result :=
  match s.held[j]? with
  | none => .next s
  | some c =>
    if s.freeFor c.instr then exec c.instr { s with held := s.held.eraseIdx j, port := c.cmd }
    else .next s

/-- The session `k` is in a DISCOVER that waits for `dlock` (R151). -/
def State.waitsForDlock (s : State) (k : Nat) : Option InFlight :=
  match s.inflight? k with
  | some f =>
    match f.instr, f.call with
    | .discover _, none => some f
    | _, _ => none
  | none => none

/-- The waiting DISCOVER of session `k` takes `dlock` if it is free (R29, R151), and goes on. -/
def onGrant (k : Nat) (s : State) : State :=
  match s.waitsForDlock k with
  | some f => if s.dlock then s else settle k (discoverEnumerate k f s)
  | none => s

/-- The next event of the world outside. With none to come nothing happens: the block waits. -/
def nextEvent (s : State) : Result :=
  match s.env with
  | [] => .next s
  | e :: rest =>
    match e with
    | .present c => .next (State.present { s with env := rest } c)
    | .answer k a => .next (onAnswer k a { s with env := rest })
    | .text j t => .next (answerText j t { s with env := rest })
    | .admission j => onAdmit j { s with env := rest }
    | .grant k => .next (onGrant k { s with env := rest })
    | .reset => .next (State.assertReset { s with env := rest })

/-- The command whose word is `p` and whose every operand bit is 0: operand words 0, name 0, and as many zero frames as the
operation reads (R97, R100 (f)). -/
def Cmd.ofWord (req : Nat) (p : PortWord) : Cmd :=
  { Cmd.zero with
    req := req
    word := p
    framesIn :=
      match decode p with
      | .ok i => List.replicate (framesNeeded i) Frame.zero
      | .error _ => [] }

/-- A row of the opcode table presented as the next command (log entry 7); a row of another width is no command. -/
def State.presentRow (s : State) (nbits w : Nat) : State :=
  match tableWord nbits w with
  | some p => s.present (Cmd.ofWord s.port.req p)
  | none => s

end Sys2Proof.Machine
end

