-- ==== Sys2Proof/Machine/Step.lean ====
section
/-! DEFINITION. One step of the machine, and the presentation of an instruction's word as the next command. -/

namespace Sys2Proof.Machine

/-- One step: the command on the command port if there is one, else the next event of the world outside. -/
def step (s : State) : Host.Outcome State Fault Refusal :=
  if s.portValid then takeCommand s else nextEvent s

/-- `s` with the instruction whose bits are `w` presented on the command port, where `step` takes its next command; its
operand words, name and frames are zeros (log entry 7). -/
def State.withFetchWord (s : State) (nbits w : Nat) : State := s.presentRow nbits w

end Sys2Proof.Machine
end

