-- ==== Sys2Proof/Machine/Readout.lean ====
section
/-! DEFINITION. The status read-out port of a session (10_state.md R31). A value read while a command is in flight on the session
may be the one from before or the one from after that command's writes (R31, U33): which, and with what the command will end, is a
free choice, the argument `ReadMoment`. Reading takes no lock and changes nothing. -/

namespace Sys2Proof.Machine

/-- The status read-out port of R31. -/
structure Readout where
  state : BitVec 2
  busy : Bool
  nameSome : Bool
  handleSome : Bool
  openTypeSome : Bool
  openModeSome : Bool
  arbStagedSome : Bool
  fdStagedSome : Bool
  openType : Option OpenType
  openMode : Option OpenMode
  lastError : LastError
  deriving DecidableEq, Repr

/-- A session record as the port presents it (R31). -/
def Session.shown (r : Session) : Readout where
  state := r.state.number
  busy := r.busy
  nameSome := r.name.isSome
  handleSome := r.handle.isSome
  openTypeSome := r.openType.isSome
  openModeSome := r.openMode.isSome
  arbStagedSome := r.arbStaged.isSome
  fdStagedSome := r.fdStaged.isSome
  openType := r.openType
  openMode := r.openMode
  lastError := r.lastError

/-- How a command in flight may end, as far as its session's record can tell: with `Ok` (and the handle, if it is a DISCOVER), or
with an error (R230). -/
inductive Ending where
  | ok (h : Handle)
  | error (kind : ResultKind) (code : Word32)
  deriving DecidableEq, Repr

/-- The endings of a command that is in flight: the kinds of its row of R239, but for the lifecycle check it has passed (R150); a
code other than 0 comes with `Timeout` and `IoFailure` only (R95). -/
def Ending.possible (i : Instr) : Ending → Bool
  | .ok _ => true
  | .error kind code =>
    decide (kind ∈ allowedKinds i) && kind != .ok && kind != .invalidChannelState &&
      (code == 0#32 || kind == .timeout || kind == .ioFailure)

/-- What an operation that waits for the controller writes to its session's record when it ends `Ok`: DISCOVER (R151) and CLOSE
(R153); the others that wait write none of it (R176, R191 to R195, R210). OPEN and the configure operations never wait (R152,
R170): they are not in flight between two steps, and the read before and the one after them are those of the two states. -/
def Session.okWrites (f : InFlight) (h : Handle) (r : Session) : Session :=
  match f.instr with
  | .discover _ => r.discoveredAs f.cmd.nameIn h
  | .closeSess _ => r.closedNow
  | _ => r

/-- The record after the writes of the command in flight, when it ends so (R27, R63, R236). -/
def Session.endedWith (f : InFlight) (r : Session) : Ending → Session
  | .ok h => (r.okWrites f h).completed .ok 0#32
  | .error kind code => r.completed kind code

/-- When a read of the port falls, seen from the command in flight: before its writes, or after them, when the lock may be still
taken or free again. DESIGN CHOICE (unsafe): the lock's own setting at admission (R28) is counted as no write of the command, so
the value from before its writes has `busy` true (log entry 16). -/
inductive ReadMoment where
  | before
  | after (e : Ending) (busy : Bool)
  deriving DecidableEq, Repr

/-- What the port of a session presents (R31): the record, or, while a command is in flight on it, the record after that command's
writes. Before the writes the lock shows as the record has it, taken while a command is in flight: a DESIGN CHOICE (unsafe), since
R31 leaves open whether a read then may still show it free (log entry 16). -/
def Session.readout (m : ReadMoment) (r : Session) : Readout :=
  match m, r.inflight with
  | .after e busy, some f => if e.possible f.instr then { (r.endedWith f e).shown with busy := busy } else r.shown
  | _, _ => r.shown

/-- The read-out ports of the block, one per session record (R31). -/
def State.readout (s : State) (k : Nat) (m : ReadMoment) : Option Readout := s.sessions[k]?.map (Session.readout m)

end Sys2Proof.Machine
end

