-- ==== Sys2Proof/Safety.lean ====
section
/-! DEFINITION. The terms claims use: the outcome of a step read as data, the invariants of 10_state.md R36, the premise
`HANDLE_UNIQUE` (20_memory.md R52), the alternation of controller calls (R36 (I6), R68 (b)) and the end of a run
(70_reset_and_hazards.md R290). -/

namespace Sys2Proof.Machine

/-- The next state, if there is one. -/
def nextOf : Result → Option State
  | .next s => some s
  | .fault _ => none
  | .refused _ => none

/-- The refusal, if there is one. -/
def refusalOf : Result → Option Refusal
  | .next _ => none
  | .fault _ => none
  | .refused r => some r

/-- The fault, if there is one. -/
def faultOf : Result → Option Fault
  | .next _ => none
  | .fault f => some f
  | .refused _ => none

/-- The 21 operations of R93; the two other rows of the opcode table are register words. -/
def isOperation : Instr → Bool
  | .arbWord _ _ _ _ => false
  | .fdWord _ _ _ _ _ _ => false
  | _ => true

/-- The controller calls in a history, in order (R35, R62). -/
def callsIn (h : List HistEvent) : List CtlCall :=
  h.filterMap fun e =>
    match e with
    | .ctlCall _ c => some c
    | _ => none

/-- The responses in a history, in order (R35). -/
def responsesIn (h : List HistEvent) : List Response :=
  h.filterMap fun e =>
    match e with
    | .complete _ r => some r
    | _ => none

/-- The kind and code a SEND reports for the controller's answer (R191, R237, R238). -/
def TxAnswer.result : TxAnswer → ResultKind × Word32
  | .ok => (.ok, 0#32)
  | .timeout c => (.timeout, c)
  | .ioFailure c => (.ioFailure, c)

/-- The kind, the code and the frame list a RECV reports for the controller's answer (R194, R237, R238). -/
def RxAnswer.result : RxAnswer → ResultKind × Word32 × List Frame
  | .ok f => (.ok, 0#32, [f])
  | .timeout c => (.timeout, c, [])
  | .ioFailure c => (.ioFailure, c, [])

/-- The capability each probe asks about (R211 to R214). -/
def capability? : Instr → Option Capability
  | .probeTerm _ => some .termination
  | .probeEcho _ => some .echo
  | .probeBlink _ => some .blink
  | .probeTxmode _ => some .txMode
  | _ => none

/-- The word of a phase staged in a session record (R26). -/
def Session.stagedWord (r : Session) : Phase → Option Word
  | .arb => r.arbStaged
  | .fd => r.fdStaged

/-- The controller call outstanding for a command in flight is one its operation makes (R62), with the session's handle. A
DISCOVER waiting for `dlock` has none (R151). -/
def callFits (r : Session) (f : InFlight) : Prop :=
  match f.instr with
  | .discover _ => f.call = none ∨ f.call = some .enumerate ∨ f.call = some (.bind f.cmd.nameIn)
  | .closeSess _ => ∃ h, r.handle = some h ∧ f.call = some (.unbind h)
  | .apply _ _ => ∃ h ph v, r.handle = some h ∧ r.stagedWord ph = some v ∧ f.call = some (.writeTiming h ph v)
  | .send _ => ∃ h fr, r.handle = some h ∧ f.call = some (.transmit h fr f.cmd.low32)
  | .sendn _ _ => ∃ h fr, r.handle = some h ∧ f.call = some (.transmit h fr f.cmd.low32)
  | .recv _ => ∃ h, r.handle = some h ∧ f.call = some (.receive h f.cmd.low32)
  | .recvn _ _ => ∃ h, r.handle = some h ∧ f.call = some (.receive h f.cmd.low32)
  | .probeTerm _ => ∃ h, r.handle = some h ∧ f.call = some (.queryCapability h .termination)
  | .probeEcho _ => ∃ h, r.handle = some h ∧ f.call = some (.queryCapability h .echo)
  | .probeBlink _ => ∃ h, r.handle = some h ∧ f.call = some (.queryCapability h .blink)
  | .probeTxmode _ => ∃ h, r.handle = some h ∧ f.call = some (.queryCapability h .txMode)
  | .encArb => False
  | .encFd => False
  | .decArb => False
  | .decFd => False
  | .openSess _ _ _ => False
  | .cfgArbRaw _ => False
  | .cfgArbPar _ => False
  | .cfgFdRaw _ => False
  | .cfgFdPar _ => False
  | .errtext => False
  | .arbWord _ _ _ _ => False
  | .fdWord _ _ _ _ _ _ => False

/-- What R36 (I1), (I2), (I4), (I5) say of one session record, and R28 of its lock and in-flight record. -/
structure SessionInv (r : Session) : Prop where
  /-- (I1), first half. -/
  name_none : r.name = none ↔ r.state = .unbound
  /-- (I1), second half. -/
  handle_none : r.handle = none ↔ r.state = .unbound
  /-- (I2) for the open type. -/
  type_none : r.openType = none ↔ r.state = .unbound ∨ r.state = .discovered
  /-- (I2) for the open mode. -/
  mode_none : r.openMode = none ↔ r.state = .unbound ∨ r.state = .discovered
  /-- (I4). -/
  staged_none : r.state = .unbound → r.arbStaged = none ∧ r.fdStaged = none
  /-- (I5) for the open type. -/
  type_value : r.openType ≠ some .fdNoIso
  /-- (I5) for the open mode. -/
  mode_value : r.openMode = none ∨ r.openMode = some .normal
  /-- R28: an in-flight record exactly while `busy`. -/
  busy_flight : r.busy = r.inflight.isSome
  /-- R150: the command in flight was accepted and the state is still the one it was accepted in. -/
  flight_accepted : ∀ f, r.inflight = some f → acceptedIn f.instr r.state = true
  /-- R62: its outstanding call is one of its own. -/
  flight_call : ∀ f, r.inflight = some f → callFits r f

/-- Session `k` has the discover lock: its DISCOVER is past `acquire dlock` (R29, R151). -/
def State.holdsDlock (s : State) (k : Nat) : Prop :=
  ∃ f sess, s.inflight? k = some f ∧ f.instr = .discover sess ∧ f.call ≠ none

/-- Session `k` has a controller call issued and not answered (R28). -/
def State.outstanding (s : State) (k : Nat) : Bool :=
  match s.inflight? k with
  | some f => f.call.isSome
  | none => false

/-- One event of the history, seen from session `k`: is a call of that session pending after it? `none` once two of its calls
have overlapped. -/
def pendingStep (k : Nat) (acc : Option Bool) (e : HistEvent) : Option Bool :=
  match e with
  | .ctlCall (.session j) _ => if j = k then (if acc = some false then some true else none) else acc
  | .ctlRet (.session j) _ => if j = k then (if acc = some true then some false else none) else acc
  | .ctlCall (.lookup _) _ => acc
  | .ctlRet (.lookup _) _ => acc
  | .issue _ _ => acc
  | .complete _ _ => acc

/-- `CtlCall` and `CtlRet` of session `k` alternate in the history, beginning with `CtlCall` (R36 (I6), R68 (b)): `some b`
says they do and whether one is pending at the end, `none` that they do not. -/
def pendingAfter (k : Nat) (h : List HistEvent) : Option Bool := h.foldl (pendingStep k) (some false)

/-- The invariant of the machine: R36 with the facts about `dlock` (R29, R151) that make (I3) hold in every interleaving. -/
structure Inv (s : State) : Prop where
  /-- R20 (a): `N_SESSIONS` records. -/
  arena : s.sessions.length = s.params.nSessions
  /-- R36 (I1), (I2), (I4), (I5), R28. -/
  session : ∀ (k : Nat) (r : Session), s.sessions[k]? = some r → SessionInv r
  /-- R36 (I3): two sessions in `Discovered` or `Open` have different names. -/
  names : ∀ (j k : Nat) (r q : Session), s.sessions[j]? = some r → s.sessions[k]? = some q → r.live = true → q.live = true →
    r.name = q.name → j = k
  /-- R29: `dlock` is taken exactly while a DISCOVER is past it. -/
  dlock_held : s.dlock = true ↔ ∃ k, s.holdsDlock k
  /-- R29: at most one. -/
  dlock_one : ∀ j k, s.holdsDlock j → s.holdsDlock k → j = k
  /-- R70 (b): while a bind is outstanding its name is still free. -/
  bind_free : ∀ k f n, s.inflight? k = some f → f.call = some (.bind n) → s.bound n = false
  /-- R36 (I6): calls of one session never overlap. -/
  calls : ∀ k, pendingAfter k s.history = some (s.outstanding k)
  /-- The stores are in canonical form. -/
  timing_wf : s.ctlTiming.wf
  written_wf : s.ctlWritten.wf
  nv_wf : s.nv.wf

/-- No two sessions in `Discovered` or `Open` hold one handle: what `HANDLE_UNIQUE` gives (R36 (I6), R52). -/
def State.uniqueHandles (s : State) : Prop :=
  ∀ (j k : Nat) (r q : Session), s.sessions[j]? = some r → s.sessions[k]? = some q → r.live = true → q.live = true →
    r.handle = q.handle → j = k

/-- The premise `HANDLE_UNIQUE` of R52 for the step from `s` to `t`: a `CtlBind` that returns in it, which its history shows,
does not answer with the handle of a session in `Discovered` or `Open` at that moment. No session becomes or stops being one
before that return in the same step, so these are the sessions of `s`. A handle given back by CLOSE may be answered again. -/
def State.handleUnique (s t : State) : Prop :=
  ∀ (new : List HistEvent) (k : Nat) (h : Handle), t.history = s.history ++ new →
    .ctlRet (.session k) (.bound (some h)) ∈ new →
    ∀ (j : Nat) (r : Session), s.sessions[j]? = some r → r.live = true → r.handle ≠ some h

/-- The state after `n` steps, if every one of them has a next state. -/
def State.run : Nat → State → Option State
  | 0, s => some s
  | n + 1, s =>
    match step s with
    | .next t => t.run n
    | .fault _ => none
    | .refused _ => none

/-- `HANDLE_UNIQUE` along the first `n` steps from a state: each bind answer is judged at its own moment (R52, R291). -/
def State.handleUniqueFor : Nat → State → Prop
  | 0, _ => True
  | n + 1, s => ∀ t, step s = .next t → s.handleUnique t ∧ t.handleUniqueFor n

/-- The run has ended (R290): nothing presented, held or in flight, `dlock` free, no lookup outstanding, and no command left
to present. -/
def State.ended (s : State) : Prop :=
  s.portValid = false ∧ s.held = [] ∧ s.lookups = [] ∧ s.dlock = false ∧
    (∀ (k : Nat) (r : Session), s.sessions[k]? = some r → r.busy = false) ∧ ∀ c, EnvEvent.present c ∉ s.env

end Sys2Proof.Machine
end

