-- ==== Sys2Proof/Certificates/Slice0/Obligations.lean ====
section
/-! DEFINITION. The statements about the model, one `def Obligations.<Name> : Prop` each. A docstring names the rules of spec/
a statement formalises. In the statements about an operation, `r` is the record of the session it names and the next state is
written out: what is not in the record update is unchanged, so each is also the operation's frame. The model's own choices that
the statements about operations share: the world outside is the list `env` (log entry 2), the answers that come next are taken
in the same step (log entry 10), and the history names the session or requestor of each call (log entry 13). -/

section
open Sys2Proof Sys2Proof.Machine

/-! ### Encoding -/

/-- R80, R87, R92 to R94, R99: decoding the encoding of an instruction gives it back, for every instruction with every value
of its fields. -/
def Obligations.DecodeOfEncode : Prop :=
  ∀ i : Instr, decode (encode i) = .ok i

/-- R80, R87, R92 to R94, R99: a word that decodes is the encoding of what it decodes to, so no bit is dropped and no two words
are one instruction. -/
def Obligations.EncodeOfDecode : Prop :=
  ∀ (p : PortWord) (i : Instr), decode p = .ok i → encode i = p

/-- R92 to R94, R99, R80, R87: words of 95_test_vectors.md V5, S2 and V2, each decoded. -/
def Obligations.DecodeWrittenWords : Prop :=
  decode (.cmd32 0x00000010#32) = .ok .encArb ∧
  decode (.cmd32 0x00000013#32) = .ok .decFd ∧
  decode (.cmd32 0x00000120#32) = .ok (.discover 1#8) ∧
  decode (.cmd32 0x00110121#32) = .ok (.openSess 1#8 .fd .listen) ∧
  decode (.cmd32 0x00230021#32) = .ok (.openSess 0#8 .fdNoIso .loopback) ∧
  decode (.cmd32 0x00000322#32) = .ok (.closeSess 3#8) ∧
  decode (.cmd32 0x00000333#32) = .ok (.cfgFdPar 3#8) ∧
  decode (.cmd32 0x00010234#32) = .ok (.apply 2#8 true) ∧
  decode (.cmd32 0xFFFF0141#32) = .ok (.sendn 1#8 65535#16) ∧
  decode (.cmd32 0x00050043#32) = .ok (.recvn 0#8 5#16) ∧
  decode (.cmd32 0x00000152#32) = .ok (.probeBlink 1#8) ∧
  decode (.cmd32 0x00000060#32) = .ok .errtext ∧
  decode (.reg64 0xA000007D00010B02#64) = .ok (.arbWord 125#13 1#8 11#8 2#8) ∧
  decode (.reg64 0x00800F00A0032E33#64) = .ok (.fdWord 1#1 15#15 25#13 14#5 3#4 3#4)

/-- R100 (a) to (d): the reserved encodings, each rejected by the name of its clause. -/
def Obligations.ReservedEncodings : Prop :=
  ∀ cw : Word32,
    (cw.extractLsb' 0 8 ∉ [0x10#8, 0x11#8, 0x12#8, 0x13#8, 0x20#8, 0x21#8, 0x22#8, 0x30#8, 0x31#8, 0x32#8, 0x33#8, 0x34#8,
        0x40#8, 0x41#8, 0x42#8, 0x43#8, 0x50#8, 0x51#8, 0x52#8, 0x53#8, 0x60#8] →
      decodeCmd cw = .error .reservedOpcode) ∧
    (cw.extractLsb' 0 8 ∈ [0x10#8, 0x11#8, 0x12#8, 0x13#8, 0x60#8] → cw.extractLsb' 8 8 ≠ 0#8 →
      decodeCmd cw = .error .sessionNotZero) ∧
    (cw.extractLsb' 0 8 ∈ [0x10#8, 0x11#8, 0x12#8, 0x13#8, 0x60#8] → cw.extractLsb' 8 8 = 0#8 →
      cw.extractLsb' 16 16 ≠ 0#16 → decodeCmd cw = .error .immediateNotZero) ∧
    (cw.extractLsb' 0 8 ∈ [0x20#8, 0x22#8, 0x30#8, 0x31#8, 0x32#8, 0x33#8, 0x40#8, 0x42#8, 0x50#8, 0x51#8, 0x52#8, 0x53#8] →
      cw.extractLsb' 16 16 ≠ 0#16 → decodeCmd cw = .error .immediateNotZero) ∧
    (cw.extractLsb' 0 8 = 0x34#8 → cw.extractLsb' 17 15 ≠ 0#15 → decodeCmd cw = .error .immediateNotZero) ∧
    (cw.extractLsb' 0 8 = 0x21#8 → cw.extractLsb' 24 8 ≠ 0#8 → decodeCmd cw = .error .immediateNotZero) ∧
    (cw.extractLsb' 0 8 = 0x21#8 → cw.extractLsb' 24 8 = 0#8 → 4 ≤ (cw.extractLsb' 16 4).toNat →
      decodeCmd cw = .error .reservedOpenType) ∧
    (cw.extractLsb' 0 8 = 0x21#8 → cw.extractLsb' 24 8 = 0#8 → (cw.extractLsb' 16 4).toNat < 4 →
      3 ≤ (cw.extractLsb' 20 4).toNat → decodeCmd cw = .error .reservedOpenMode)

/-! ### The step -/

/-- R12 (d), R100, R240 (1): an ill-formed command on the port is refused by the step, by name. That only the frames the
operation reads are looked at is the model's reading of R97 and R100 (e) (log entry 8). -/
def Obligations.IllFormedRefused : Prop :=
  ∀ s : State, s.portValid = true →
    (∀ e, decode s.port.word = .error e → step s = .refused (.reservedEncoding e)) ∧
    (∀ i, decode s.port.word = .ok i →
      (∀ sess, i.session? = some sess → s.params.nSessions ≤ sess.toNat → step s = .refused .sessionOutOfRange) ∧
      (i.wellFormed s.params.nSessions = true → s.port.framesIn.length < framesNeeded i → step s = .refused .framesMissing) ∧
      (i.wellFormed s.params.nSessions = true → framesNeeded i ≤ s.port.framesIn.length →
        (∃ f ∈ s.port.framesIn.take (framesNeeded i), 64 < f.len.toNat) → step s = .refused .frameTooLong))

/-- R21, R92: a step with a well-formed command on the port is that instruction's `exec`, with the port free again. That the command
is taken before the next event of `env`, reset included, is the model's choice (log entry 20). -/
def Obligations.StepRunsTheCommand : Prop :=
  ∀ (s : State) (i : Instr), s.portValid = true → decode s.port.word = .ok i → i.wellFormed s.params.nSessions = true →
    step s = exec i { s with portValid := false }

/-- R281, R290: with no command on the port and nothing to come from outside, the block waits: the step changes nothing. That
the world outside is the list `env` is the model's (log entry 2). -/
def Obligations.StepWaits : Prop :=
  ∀ s : State, s.portValid = false → s.env = [] → step s = .next s

/-- R100 and 30_encoding.md: the rows of format REG64 are data and never a command; presented as one, each is refused. -/
def Obligations.TimingWordsAreNoCommands : Prop :=
  (∀ tq sjw ts1 ts2 s, exec (.arbWord tq sjw ts1 ts2) s = .refused .timingWordIsNoCommand) ∧
  (∀ e off tq ts1 ts2 sjw s, exec (.fdWord e off tq ts1 ts2 sjw) s = .refused .timingWordIsNoCommand)

/-! ### The codec -/

/-- R120: the time quantum, that it does not decrease, where it is 0, that a zero quantum is packed like any other value, and
the rule's values at 80 MHz. -/
def Obligations.TimeQuantum : Prop :=
  (∀ p k, timeQuantum p k = k * 1000 / p.clockMHz) ∧
  (∀ p j k, j ≤ k → timeQuantum p j ≤ timeQuantum p k) ∧
  (∀ p k, 1 ≤ p.clockMHz → (timeQuantum p k = 0 ↔ k * 1000 < p.clockMHz) ∧
    (timeQuantum p k = 0 → k = 0 ∨ 1000 < p.clockMHz)) ∧
  (∀ p k ts1 ts2 sjw off, timeQuantum p k = 0 → 1 ≤ k → 1 ≤ ts1 → 1 ≤ ts2 → 1 ≤ sjw → ts2 ≤ 16 → sjw ≤ 16 → ts1 ≤ 32 →
    off ≤ 2 ^ p.tdcoBits →
    encodeArb p k ts1 ts2 sjw = some (packArb p 0 ts1 ts2 sjw) ∧
      encodeFd p k ts1 ts2 sjw off = some (packFd p 0 ts1 ts2 sjw off)) ∧
  [1, 2, 3, 4, 5, 8, 10, 20, 40, 655, 656].map (timeQuantum Params.default) =
    [12, 25, 37, 50, 62, 100, 125, 250, 500, 8187, 8200]

/-- R80 to R85, R121: the fields of a packed arbitration word, for every value of each parameter of R6. That a base has no bit in a
field is the model's condition (log entry 12). -/
def Obligations.ArbWordFields : Prop :=
  ∀ (p : Params) (tq ts1 ts2 sjw : Nat), paramsValid p = true → tq < 2 ^ 13 → 1 ≤ ts1 → ts1 ≤ 256 → 1 ≤ ts2 → ts2 ≤ 256 →
    1 ≤ sjw → sjw ≤ 255 →
    ((packArb p tq ts1 ts2 sjw).extractLsb' 32 13).toNat = tq ∧
    ((packArb p tq ts1 ts2 sjw).extractLsb' 16 8).toNat = sjw ∧
    ((packArb p tq ts1 ts2 sjw).extractLsb' 8 8).toNat = ts1 - 1 ∧
    ((packArb p tq ts1 ts2 sjw).extractLsb' 0 8).toNat = ts2 - 1 ∧
    packArb p tq ts1 ts2 sjw &&& 0xFFFFE000FF000000#64 = p.arbBase

/-- R87 to R90, R123: the fields of a packed FD word; an offset of 0 leaves the enable bit and the offset field clear.
That a base has no bit in a field is the model's condition (log entry 12). -/
def Obligations.FdWordFields : Prop :=
  ∀ (p : Params) (tq ts1 ts2 sjw off : Nat), paramsValid p = true → tq < 2 ^ 13 → 1 ≤ ts1 → ts1 ≤ 32 → 1 ≤ ts2 → ts2 ≤ 16 →
    1 ≤ sjw → sjw ≤ 16 → off ≤ 2 ^ p.tdcoBits →
    ((packFd p tq ts1 ts2 sjw off).extractLsb' 13 13).toNat = tq ∧
    ((packFd p tq ts1 ts2 sjw off).extractLsb' 8 5).toNat = ts1 - 1 ∧
    ((packFd p tq ts1 ts2 sjw off).extractLsb' 4 4).toNat = ts2 - 1 ∧
    ((packFd p tq ts1 ts2 sjw off).extractLsb' 0 4).toNat = sjw - 1 ∧
    ((packFd p tq ts1 ts2 sjw off).extractLsb' 40 15).toNat = off - 1 ∧
    (packFd p tq ts1 ts2 sjw off).getLsbD 55 = decide (0 < off) ∧
    packFd p tq ts1 ts2 sjw off &&& fdMask p = p.fdBase

/-- R87: the fixed bits of an FD word are 63:56, 39:32, 31:26, and with `TDCO_BITS` below 15 bits 54 down to
`40 + TDCO_BITS`. The condition on the parameters is R6 with log entry 12. -/
def Obligations.FdFixedBits : Prop :=
  ∀ (p : Params) (i : Nat), paramsValid p = true → i < 64 →
    (fdMask p).getLsbD i =
      (decide (56 ≤ i) || (decide (40 + p.tdcoBits ≤ i) && decide (i ≤ 54)) || (decide (26 ≤ i) && decide (i ≤ 39)))

/-- R122: ENC_ARB, its word, and that it always answers, with the packed word or with InvalidTimingParameter exactly when an
operand is 0 or a field would not fit. -/
def Obligations.EncArbPacksOrRejects : Prop :=
  ∀ s : State,
    let tq := s.port.a0.toNat * 1000 / s.params.clockMHz
    let bad := s.port.a0.toNat = 0 ∨ s.port.a1.toNat = 0 ∨ s.port.a2.toNat = 0 ∨ s.port.a3.toNat = 0 ∨ 2 ^ 13 ≤ tq ∨
      2 ^ 8 ≤ s.port.a1.toNat - 1 ∨ 2 ^ 8 ≤ s.port.a2.toNat - 1 ∨ 2 ^ 8 ≤ s.port.a3.toNat
    let resp : Response :=
      if bad then ⟨statusWord .invalidTimingParameter 0#32, {}⟩
      else ⟨statusWord .ok 0#32, { r0 := packArb s.params tq s.port.a1.toNat s.port.a2.toNat s.port.a3.toNat }⟩
    encode .encArb = .cmd32 (0x0000#16 ++ 0x00#8 ++ 0x10#8) ∧
    exec .encArb s = .next
      { s with
        resp := resp
        respTo := s.port.req
        history := s.history ++ [.issue s.port .encArb, .complete s.port.req resp] }

/-- R124: ENC_FD, the same with the FD widths and the offset. -/
def Obligations.EncFdPacksOrRejects : Prop :=
  ∀ s : State,
    let tq := s.port.a0.toNat * 1000 / s.params.clockMHz
    let bad := s.port.a0.toNat = 0 ∨ s.port.a1.toNat = 0 ∨ s.port.a2.toNat = 0 ∨ s.port.a3.toNat = 0 ∨ 2 ^ 13 ≤ tq ∨
      2 ^ 5 ≤ s.port.a1.toNat - 1 ∨ 2 ^ 4 ≤ s.port.a2.toNat - 1 ∨ 2 ^ 4 ≤ s.port.a3.toNat - 1 ∨
      (0 < s.port.a4.toNat ∧ 2 ^ s.params.tdcoBits ≤ s.port.a4.toNat - 1)
    let resp : Response :=
      if bad then ⟨statusWord .invalidTimingParameter 0#32, {}⟩
      else
        ⟨statusWord .ok 0#32,
          { r0 := packFd s.params tq s.port.a1.toNat s.port.a2.toNat s.port.a3.toNat s.port.a4.toNat }⟩
    encode .encFd = .cmd32 (0x0000#16 ++ 0x00#8 ++ 0x11#8) ∧
    exec .encFd s = .next
      { s with
        resp := resp
        respTo := s.port.req
        history := s.history ++ [.issue s.port .encFd, .complete s.port.req resp] }

/-- R126, R86: DEC_ARB, its word, and that it always answers, with the fields or with InvalidTimingParameter exactly
when the word is not canonical. -/
def Obligations.DecArbUnpacksOrRejects : Prop :=
  ∀ s : State,
    let v := s.port.a0
    let resp : Response :=
      if v &&& 0xFFFFE000FF000000#64 = s.params.arbBase ∧ v.extractLsb' 16 8 ≠ 0#8 then
        ⟨statusWord .ok 0#32,
          { r0 := (v.extractLsb' 32 13).setWidth 64
            r1 := (v.extractLsb' 8 8).setWidth 64 + 1#64
            r2 := (v.extractLsb' 0 8).setWidth 64 + 1#64
            r3 := (v.extractLsb' 16 8).setWidth 64 }⟩
      else ⟨statusWord .invalidTimingParameter 0#32, {}⟩
    encode .decArb = .cmd32 (0x0000#16 ++ 0x00#8 ++ 0x12#8) ∧
    exec .decArb s = .next
      { s with
        resp := resp
        respTo := s.port.req
        history := s.history ++ [.issue s.port .decArb, .complete s.port.req resp] }

/-- R127, R91: DEC_FD, the same with the FD layout; the offset is 0 when the enable bit is clear. -/
def Obligations.DecFdUnpacksOrRejects : Prop :=
  ∀ s : State,
    let v := s.port.a0
    let resp : Response :=
      if v &&& fdMask s.params = s.params.fdBase ∧ (v.getLsbD 55 = true ∨ v.extractLsb' 40 15 = 0#15) then
        ⟨statusWord .ok 0#32,
          { r0 := (v.extractLsb' 13 13).setWidth 64
            r1 := (v.extractLsb' 8 5).setWidth 64 + 1#64
            r2 := (v.extractLsb' 4 4).setWidth 64 + 1#64
            r3 := (v.extractLsb' 0 4).setWidth 64 + 1#64
            r4 := if v.getLsbD 55 = true then (v.extractLsb' 40 15).setWidth 64 + 1#64 else 0#64
            r5 := if v.getLsbD 55 = true then 1#64 else 0#64 }⟩
      else ⟨statusWord .invalidTimingParameter 0#32, {}⟩
    encode .decFd = .cmd32 (0x0000#16 ++ 0x00#8 ++ 0x13#8) ∧
    exec .decFd s = .next
      { s with
        resp := resp
        respTo := s.port.req
        history := s.history ++ [.issue s.port .decFd, .complete s.port.req resp] }

/-- R129 (a), (b), (e): what ENC_ARB and ENC_FD answer, DEC_ARB and DEC_FD turn back into the quantum and the operands; bit 55
tells whether the offset is positive. The condition on the parameters is R6 with log entry 12. -/
def Obligations.EncodeThenDecode : Prop :=
  ∀ s e u : State, paramsValid s.params = true → u.params = s.params → u.port.a0 = e.resp.res.r0 →
    e.resp.status = statusWord .ok 0#32 →
    (exec .encArb s = .next e →
      ∃ d, exec .decArb u = .next d ∧
        d.resp = ⟨statusWord .ok 0#32,
          { r0 := BitVec.ofNat 64 (timeQuantum s.params s.port.a0.toNat), r1 := s.port.a1, r2 := s.port.a2,
            r3 := s.port.a3 }⟩) ∧
    (exec .encFd s = .next e →
      e.resp.res.r0.getLsbD 55 = decide (s.port.a4 ≠ 0#64) ∧
      ∃ d, exec .decFd u = .next d ∧
        d.resp = ⟨statusWord .ok 0#32,
          { r0 := BitVec.ofNat 64 (timeQuantum s.params s.port.a0.toNat), r1 := s.port.a1, r2 := s.port.a2,
            r3 := s.port.a3, r4 := s.port.a4, r5 := if s.port.a4 = 0#64 then 0#64 else 1#64 }⟩)

/-- R129 (c), (d): what DEC_ARB and DEC_FD answer packs back into the word they were given. The condition on the parameters
is R6 with log entry 12. -/
def Obligations.DecodeThenPack : Prop :=
  ∀ s d : State, paramsValid s.params = true → d.resp.status = statusWord .ok 0#32 →
    (exec .decArb s = .next d →
      packArb s.params d.resp.res.r0.toNat d.resp.res.r1.toNat d.resp.res.r2.toNat d.resp.res.r3.toNat = s.port.a0) ∧
    (exec .decFd s = .next d →
      packFd s.params d.resp.res.r0.toNat d.resp.res.r1.toNat d.resp.res.r2.toNat d.resp.res.r3.toNat
        d.resp.res.r4.toNat = s.port.a0)

/-- R129 (f), R126, R127: with the base constants of R6 no word is accepted by both decoders. -/
def Obligations.NoWordIsBoth : Prop :=
  ∀ s d e : State, s.params.arbBase = 0xA000000000000000#64 → s.params.fdBase = 0x00000000A0000000#64 →
    exec .decArb s = .next d → exec .decFd s = .next e →
    d.resp.status = statusWord .invalidTimingParameter 0#32 ∨ e.resp.status = statusWord .invalidTimingParameter 0#32

/-- R95, R230: the fields of the status word, and the numbers of the kinds. -/
def Obligations.StatusWordFields : Prop :=
  (∀ kind code, (statusWord kind code).extractLsb' 0 4 = kind.number ∧ (statusWord kind code).extractLsb' 4 28 = 0#28 ∧
    (statusWord kind code).extractLsb' 32 32 = code) ∧
  [ResultKind.ok, .channelNotFound, .channelBusy, .invalidChannelState, .unsupportedMode, .unsupportedFeature,
    .invalidTimingParameter, .timeout, .ioFailure].map ResultKind.number =
    [0#4, 1#4, 2#4, 3#4, 4#4, 5#4, 6#4, 7#4, 8#4]

/-! ### Admission and acceptance -/

/-- R150: the states each session operation is accepted in; an operation without a session is accepted in every state. -/
def Obligations.AcceptanceTable : Prop :=
  ∀ (sess : BitVec 8) (t : OpenType) (m : OpenMode) (b : Bool) (c : BitVec 16),
    let accepted := fun i => [LifeState.unbound, .discovered, .opened, .closed].filter (acceptedIn i)
    accepted (.discover sess) = [.unbound] ∧ accepted (.openSess sess t m) = [.discovered] ∧
    accepted (.closeSess sess) = [.opened] ∧
    accepted (.cfgArbRaw sess) = [.discovered, .opened] ∧ accepted (.cfgArbPar sess) = [.discovered, .opened] ∧
    accepted (.cfgFdRaw sess) = [.discovered, .opened] ∧ accepted (.cfgFdPar sess) = [.discovered, .opened] ∧
    accepted (.apply sess b) = [.discovered, .opened] ∧
    accepted (.send sess) = [.opened] ∧ accepted (.sendn sess c) = [.opened] ∧
    accepted (.recv sess) = [.opened] ∧ accepted (.recvn sess c) = [.opened] ∧
    accepted (.probeTerm sess) = [.discovered, .opened] ∧ accepted (.probeEcho sess) = [.discovered, .opened] ∧
    accepted (.probeBlink sess) = [.discovered, .opened] ∧ accepted (.probeTxmode sess) = [.discovered, .opened] ∧
    ∀ i ∈ [Instr.encArb, .encFd, .decArb, .decFd, .errtext], accepted i = [.unbound, .discovered, .opened, .closed]

/-- R150, R233, R236: a session operation in a state that does not accept it ends with InvalidChannelState, code 0 and no
result, has made no controller call and has changed nothing but `last_error`. -/
def Obligations.RejectedByState : Prop :=
  ∀ (i : Instr) (sess : BitVec 8) (s : State) (r : Session), i.session? = some sess →
    framesRefused (framesNeeded i) s.port.framesIn = none → s.sessions[sess.toNat]? = some r → r.busy = false →
    acceptedIn i r.state = false →
    exec i s = .next
      { s with
        sessions := s.sessions.set sess.toNat { r with lastError := ⟨.invalidChannelState, 0#32⟩, inflight := none }
        resp := ⟨statusWord .invalidChannelState 0#32, {}⟩
        respTo := s.port.req
        history := s.history ++
          [.issue s.port i, .complete s.port.req ⟨statusWord .invalidChannelState 0#32, {}⟩] }

/-- R63, R278: a command on a session whose lock is taken is held, unanswered and unrejected, and changes nothing else. -/
def Obligations.HeldWhileBusy : Prop :=
  ∀ (i : Instr) (sess : BitVec 8) (s : State) (r : Session), i.session? = some sess →
    framesRefused (framesNeeded i) s.port.framesIn = none → s.sessions[sess.toNat]? = some r → r.busy = true →
    exec i s = .next { s with held := s.held ++ [⟨i, s.port⟩] }

/-- R64, R71: any held command whose session is free can be the next admitted; it runs with the operands it was presented
with. That the choice is the event `admission` is the model's (log entries 2 and 9). -/
def Obligations.AnyHeldCommandIsAdmitted : Prop :=
  ∀ (s : State) (j : Nat) (c : Held) (sess : BitVec 8) (r : Session) (rest : List EnvEvent), s.portValid = false →
    s.env = .admission j :: rest → s.held[j]? = some c → c.instr.session? = some sess → s.sessions[sess.toNat]? = some r →
    r.busy = false →
    step s = exec c.instr { s with env := rest, held := s.held.eraseIdx j, port := c.cmd }

/-- R28, R62, R281: an operation whose controller call is not answered yet holds its lock, with the call outstanding in the
in-flight record and no response given. DISCOVER's is in `DiscoverWaits`. -/
def Obligations.CallOutstanding : Prop :=
  ∀ (i : Instr) (c : CtlCall) (sess : BitVec 8) (count : BitVec 16) (temporary : Bool) (s : State) (r : Session) (h : Handle)
    (f : Frame) (ph : Phase) (v : Word),
    (i, c) ∈ [(.closeSess sess, .unbind h), (.apply sess temporary, .writeTiming h ph v),
      (.send sess, .transmit h f (s.port.a0.extractLsb' 0 32)),
      (.sendn sess count, .transmit h f (s.port.a0.extractLsb' 0 32)),
      (.recv sess, .receive h (s.port.a0.extractLsb' 0 32)), (.recvn sess count, .receive h (s.port.a0.extractLsb' 0 32)),
      (.probeTerm sess, .queryCapability h .termination), (.probeEcho sess, .queryCapability h .echo),
      (.probeBlink sess, .queryCapability h .blink), (.probeTxmode sess, .queryCapability h .txMode)] →
    s.sessions[sess.toNat]? = some r → r.busy = false → acceptedIn i r.state = true → r.handle = some h →
    (i = .apply sess temporary → r.name ≠ none ∧
      ((r.arbStaged = some v ∧ ph = .arb) ∨ (r.arbStaged = none ∧ r.fdStaged = some v ∧ ph = .fd))) →
    (i = .send sess ∨ i = .sendn sess count → s.port.framesIn.head? = some f ∧
      framesRefused (framesNeeded i) s.port.framesIn = none) →
    (i = .sendn sess count ∨ i = .recvn sess count → count ≠ 0#16) → s.env = [] →
    exec i s = .next
      { s with
        sessions := s.sessions.set sess.toNat { r with busy := true, inflight := some ⟨i, s.port, 0, [], some c⟩ }
        history := s.history ++ [.issue s.port i, .ctlCall (.session sess.toNat) c] }

/-- R52, R281: an answer of the controller, whichever call of whichever operation it answers and however late it comes. First: it
makes no difference whether the answer to an operation's first call comes at once or in a later step. Second: the same for any
call, when the step that ended by issuing it has taken the events `taken`. Third: whatever other agents have done meanwhile, the
answer to the call outstanding on session `k` (with no further answer for `k` next in `env`) ends the operation or issues its next
call, as its rule says: R151, R153, R176, R191, R193, R194, R195, R210. That DISCOVER makes its two checks in the same step as the
enumeration's return is the model's choice (log entry 25). -/
def Obligations.AnswerSoonerOrLater : Prop :=
  (∀ (i : Instr) (sess : BitVec 8) (s t : State) (r : Session) (a : CtlAnswer) (rest : List EnvEvent),
    i.session? = some sess → s.portValid = false → s.sessions[sess.toNat]? = some r → r.busy = false → s.env = [] →
    exec i s = .next t → (answered sess.toNat a { t with env := rest }).isSome = true →
    step { t with env := .answer sess.toNat a :: rest } = exec i { s with env := .answer sess.toNat a :: rest }) ∧
  (∀ (k : Nat) (s t : State) (taken : List EnvEvent) (new : List HistEvent) (c : CtlCall) (a : CtlAnswer)
    (rest : List EnvEvent), step { s with env := taken } = .next t → t.env = [] →
    t.history = s.history ++ new ++ [.ctlCall (.session k) c] → (answered k a { t with env := rest }).isSome = true →
    step { t with env := .answer k a :: rest } = step { s with env := taken ++ .answer k a :: rest }) ∧
  (∀ (k : Nat) (s : State) (r : Session) (f : InFlight) (rest : List EnvEvent), s.portValid = false →
    s.sessions[k]? = some r → r.inflight = some f → (∀ a, rest.head? ≠ some (.answer k a)) →
    let after := fun (a : CtlAnswer) => step { s with env := .answer k a :: rest }
    let ends := fun (a : CtlAnswer) (kind : ResultKind) (code : Word32) (res : Results) (q : Session) =>
      { s with
        sessions := s.sessions.set k
          { q with
            lastError := if kind = .ok then q.lastError else ⟨kind, code⟩
            busy := false
            inflight := none }
        resp := ⟨statusWord kind code, res⟩
        respTo := f.cmd.req
        history := s.history ++ [.ctlRet (.session k) a, .complete f.cmd.req ⟨statusWord kind code, res⟩]
        env := rest }
    let calls := fun (a : CtlAnswer) (g : InFlight) (c : CtlCall) =>
      { s with
        sessions := s.sessions.set k { r with inflight := some { g with call := some c } }
        history := s.history ++ [.ctlRet (.session k) a, .ctlCall (.session k) c]
        env := rest }
    (∀ sess names, f.instr = .discover sess → f.call = some .enumerate →
      after (.names names) = .next
        (if f.cmd.nameIn ∉ names then { ends (.names names) .channelNotFound 0#32 {} r with dlock := false }
        else if s.bound f.cmd.nameIn then { ends (.names names) .channelBusy 0#32 {} r with dlock := false }
        else calls (.names names) f (.bind f.cmd.nameIn))) ∧
    (∀ sess n, f.instr = .discover sess → f.call = some (.bind n) →
      after (.bound none) = .next { ends (.bound none) .channelNotFound 0#32 {} r with dlock := false } ∧
      ∀ h, after (.bound (some h)) = .next
        { ends (.bound (some h)) .ok 0#32 {} { r with state := .discovered, name := some n, handle := some h } with
          dlock := false }) ∧
    (∀ sess h, f.instr = .closeSess sess → f.call = some (.unbind h) → s.ctlTiming.wf →
      ∃ m : Memory,
        after .unbound = .next { ends .unbound .ok 0#32 {} { r with state := .closed } with ctlTiming := m } ∧
        (∀ ph, m.read (timingKey h ph) = none) ∧
        ∀ a, a ≠ timingKey h .arb → a ≠ timingKey h .fd → m.read a = s.ctlTiming.read a) ∧
    (∀ sess temporary n h ph v, f.instr = .apply sess temporary → f.call = some (.writeTiming h ph v) → r.name = some n →
      after .written = .next
        { (match ph, r.fdStaged with
            | .arb, some w => calls .written f (.writeTiming h .fd w)
            | _, _ => ends .written .ok 0#32 {} r) with
          ctlTiming := s.ctlTiming.write (timingKey h ph) v
          ctlWritten := s.ctlWritten.write (timingKey h ph) v
          nv := if temporary then s.nv else s.nv.write (nvKey n ph) v }) ∧
    (∀ sess h x t a, f.instr = .send sess → f.call = some (.transmit h x t) →
      after (.transmitted a) = .next (ends (.transmitted a) a.result.1 a.result.2 {} r)) ∧
    (∀ sess count h x t a, f.instr = .sendn sess count → f.call = some (.transmit h x t) →
      after (.transmitted a) = .next
        (if a = .ok then
          (match if f.next + 1 < count.toNat then f.cmd.framesIn[f.next + 1]? else none with
            | some y => calls (.transmitted a) { f with next := f.next + 1 } (.transmit h y t)
            | none => ends (.transmitted a) .ok 0#32 { r0 := BitVec.ofNat 64 (f.next + 1) } r)
        else ends (.transmitted a) a.result.1 a.result.2 { r0 := BitVec.ofNat 64 f.next } r)) ∧
    (∀ sess h t a, f.instr = .recv sess → f.call = some (.receive h t) →
      after (.received a) = .next (ends (.received a) a.result.1 a.result.2.1 { framesOut := a.result.2.2 } r)) ∧
    (∀ sess count h t a, f.instr = .recvn sess count → f.call = some (.receive h t) →
      let got := f.got ++ a.result.2.2
      after (.received a) = .next
        (if a.result.1 = .ok ∧ got.length < count.toNat then
          calls (.received a) { f with next := got.length, got := got } (.receive h t)
        else ends (.received a) a.result.1 a.result.2.1 { r0 := BitVec.ofNat 64 got.length, framesOut := got } r)) ∧
    (∀ sess h id b, f.instr ∈ [.probeTerm sess, .probeEcho sess, .probeBlink sess, .probeTxmode sess] →
      f.call = some (.queryCapability h id) →
      after (.capability b) = .next
        (if b then ends (.capability b) .ok 0#32 { r0 := 1#64 } r
        else ends (.capability b) .unsupportedFeature 0#32 {} r)))

/-! ### Lifecycle -/

/-- R151: DISCOVER of an enumerated, unbound name whose bind the controller answers. That its checks and the issue of the bind fall
in the same step as the enumeration's return is the model's choice (log entry 25). -/
def Obligations.DiscoverBinds : Prop :=
  ∀ (sess : BitVec 8) (s : State) (r : Session) (names : List Name) (h : Handle) (rest : List EnvEvent),
    s.sessions[sess.toNat]? = some r → r.busy = false → r.state = .unbound → s.dlock = false →
    s.env = .answer sess.toNat (.names names) :: .answer sess.toNat (.bound (some h)) :: rest →
    s.port.nameIn ∈ names → s.bound s.port.nameIn = false →
    exec (.discover sess) s = .next
      { s with
        sessions := s.sessions.set sess.toNat
          { r with state := .discovered, name := some s.port.nameIn, handle := some h, inflight := none }
        resp := ⟨statusWord .ok 0#32, {}⟩
        respTo := s.port.req
        history := s.history ++
          [.issue s.port (.discover sess), .ctlCall (.session sess.toNat) .enumerate,
            .ctlRet (.session sess.toNat) (.names names), .ctlCall (.session sess.toNat) (.bind s.port.nameIn),
            .ctlRet (.session sess.toNat) (.bound (some h)), .complete s.port.req ⟨statusWord .ok 0#32, {}⟩]
        env := rest }

/-- R151, R231, R232, R240 (5): the three ways DISCOVER fails after its state check, in their order, with the calls each has
made; the session stays as it was but for `last_error`, and `dlock` is free again. That the name and `Bound` are judged at the very
return of the enumeration is the model's choice (log entry 25). -/
def Obligations.DiscoverFails : Prop :=
  ∀ (sess : BitVec 8) (s : State) (r : Session) (names : List Name) (rest : List EnvEvent),
    s.sessions[sess.toNat]? = some r → r.busy = false → r.state = .unbound → s.dlock = false →
    let failed := fun (kind : ResultKind) (events : List HistEvent) (env : List EnvEvent) =>
      { s with
        sessions := s.sessions.set sess.toNat { r with lastError := ⟨kind, 0#32⟩, inflight := none }
        resp := ⟨statusWord kind 0#32, {}⟩
        respTo := s.port.req
        history := s.history ++
          [.issue s.port (.discover sess), .ctlCall (.session sess.toNat) .enumerate,
            .ctlRet (.session sess.toNat) (.names names)] ++ events ++
          [.complete s.port.req ⟨statusWord kind 0#32, {}⟩]
        env := env }
    (s.env = .answer sess.toNat (.names names) :: rest → s.port.nameIn ∉ names →
      exec (.discover sess) s = .next (failed .channelNotFound [] rest)) ∧
    (s.env = .answer sess.toNat (.names names) :: rest → s.port.nameIn ∈ names → s.bound s.port.nameIn = true →
      exec (.discover sess) s = .next (failed .channelBusy [] rest)) ∧
    (s.env = .answer sess.toNat (.names names) :: .answer sess.toNat (.bound none) :: rest → s.port.nameIn ∈ names →
      s.bound s.port.nameIn = false →
      exec (.discover sess) s = .next
        (failed .channelNotFound
          [.ctlCall (.session sess.toNat) (.bind s.port.nameIn), .ctlRet (.session sess.toNat) (.bound none)] rest))

/-- R29, R151, R281: while another DISCOVER has `dlock` a DISCOVER waits, its own session locked, no call made; when `dlock` is
free it takes it and enumerates, at once or by the grant after a wait. That the grant is the event `grant` is the model's
(log entries 2 and 9). -/
def Obligations.DiscoverWaits : Prop :=
  (∀ (sess : BitVec 8) (s : State) (r : Session), s.sessions[sess.toNat]? = some r → r.busy = false →
    r.state = .unbound → s.dlock = true →
    exec (.discover sess) s = .next
      { s with
        sessions := s.sessions.set sess.toNat
          { r with busy := true, inflight := some ⟨.discover sess, s.port, 0, [], none⟩ }
        history := s.history ++ [.issue s.port (.discover sess)] }) ∧
  (∀ (sess : BitVec 8) (s : State) (r : Session), s.sessions[sess.toNat]? = some r → r.busy = false →
    r.state = .unbound → s.dlock = false → s.env = [] →
    exec (.discover sess) s = .next
      { s with
        dlock := true
        sessions := s.sessions.set sess.toNat
          { r with busy := true, inflight := some ⟨.discover sess, s.port, 0, [], some .enumerate⟩ }
        history := s.history ++ [.issue s.port (.discover sess), .ctlCall (.session sess.toNat) .enumerate] }) ∧
  (∀ (k : Nat) (sess : BitVec 8) (s : State) (r : Session) (f : InFlight), s.portValid = false → s.dlock = false →
    s.env = [.grant k] → s.sessions[k]? = some r → r.inflight = some f → f.instr = .discover sess → f.call = none →
    step s = .next
      { s with
        dlock := true
        sessions := s.sessions.set k { r with inflight := some { f with call := some .enumerate } }
        history := s.history ++ [.ctlCall (.session k) .enumerate]
        env := [] })

/-- R152, R234, R240 (4): OPEN in `Discovered`: the mode before the type, and otherwise the session is `Open`; no controller
call in any case. -/
def Obligations.OpenChecksModeThenType : Prop :=
  ∀ (sess : BitVec 8) (type : OpenType) (mode : OpenMode) (s : State) (r : Session), s.sessions[sess.toNat]? = some r →
    r.busy = false → r.state = .discovered →
    let kind : ResultKind :=
      if mode ≠ .normal then .unsupportedMode else if type = .fdNoIso then .unsupportedFeature else .ok
    exec (.openSess sess type mode) s = .next
      { s with
        sessions := s.sessions.set sess.toNat
          (if kind = .ok then { r with state := .opened, openType := some type, openMode := some mode, inflight := none }
          else { r with lastError := ⟨kind, 0#32⟩, inflight := none })
        resp := ⟨statusWord kind 0#32, {}⟩
        respTo := s.port.req
        history := s.history ++
          [.issue s.port (.openSess sess type mode), .complete s.port.req ⟨statusWord kind 0#32, {}⟩] }

/-- R153, R32: CLOSE in `Open` calls `CtlUnbind` once and leaves the session `Closed` with everything else kept; the two timing
registers of the handle hold no known value afterwards and every other word of the stores is as before. That
`ctlWritten` keeps its words is the model's (log entry 6). -/
def Obligations.CloseUnbindsOnce : Prop :=
  ∀ (sess : BitVec 8) (s : State) (r : Session) (h : Handle) (rest : List EnvEvent), s.sessions[sess.toNat]? = some r →
    r.busy = false → r.state = .opened → r.handle = some h → s.env = .answer sess.toNat .unbound :: rest → s.ctlTiming.wf →
    ∃ m : Memory,
      exec (.closeSess sess) s = .next
        { s with
          sessions := s.sessions.set sess.toNat { r with state := .closed, inflight := none }
          resp := ⟨statusWord .ok 0#32, {}⟩
          respTo := s.port.req
          ctlTiming := m
          history := s.history ++
            [.issue s.port (.closeSess sess), .ctlCall (.session sess.toNat) (.unbind h),
              .ctlRet (.session sess.toNat) .unbound, .complete s.port.req ⟨statusWord .ok 0#32, {}⟩]
          env := rest } ∧
      (∀ ph, m.read (timingKey h ph) = none) ∧
      ∀ a, a ≠ timingKey h .arb → a ≠ timingKey h .fd → m.read a = s.ctlTiming.read a

/-- R154, R270: the only changes of a session's `state` in one step are those of DISCOVER, OPEN, CLOSE and reset. -/
def Obligations.StateTransitions : Prop :=
  ∀ (s t : State) (k : Nat) (r q : Session), Inv s → step s = .next t → s.sessions[k]? = some r → t.sessions[k]? = some q →
    q.state = r.state ∨ (r.state = .unbound ∧ q.state = .discovered) ∨ (r.state = .discovered ∧ q.state = .opened) ∨
      (r.state = .opened ∧ q.state = .closed) ∨
      (s.portValid = false ∧ (∃ rest, s.env = .reset :: rest) ∧ q.state = .unbound)

/-! ### Configuration -/

/-- R171, R173: a RAW form, its word, and that it stages any 64-bit word unchecked, for its own phase only, in `Discovered` and
`Open`, and is InvalidChannelState in the other states. -/
def Obligations.ConfigureRawStagesUnchecked : Prop :=
  ∀ (sess : BitVec 8) (s : State) (r : Session), s.sessions[sess.toNat]? = some r → r.busy = false →
    let done := fun (i : Instr) (kind : ResultKind) (q : Session) =>
      { s with
        sessions := s.sessions.set sess.toNat { q with inflight := none }
        resp := ⟨statusWord kind 0#32, {}⟩
        respTo := s.port.req
        history := s.history ++ [.issue s.port i, .complete s.port.req ⟨statusWord kind 0#32, {}⟩] }
    let failed := { r with lastError := ⟨.invalidChannelState, 0#32⟩ }
    encode (.cfgArbRaw sess) = .cmd32 (0x0000#16 ++ sess ++ 0x30#8) ∧
    encode (.cfgFdRaw sess) = .cmd32 (0x0000#16 ++ sess ++ 0x32#8) ∧
    exec (.cfgArbRaw sess) s = .next
      (if r.state = .discovered ∨ r.state = .opened then done (.cfgArbRaw sess) .ok { r with arbStaged := some s.port.a0 }
      else done (.cfgArbRaw sess) .invalidChannelState failed) ∧
    exec (.cfgFdRaw sess) s = .next
      (if r.state = .discovered ∨ r.state = .opened then done (.cfgFdRaw sess) .ok { r with fdStaged := some s.port.a0 }
      else done (.cfgFdRaw sess) .invalidChannelState failed)

/-- R172, R174, R102: a PAR form gives what ENC_ARB or ENC_FD answers to the same operands: its word staged for the form's own
phase, or InvalidTimingParameter with both staged words as they were. -/
def Obligations.ConfigureParStagesEncoded : Prop :=
  ∀ (sess : BitVec 8) (s : State) (r : Session), s.sessions[sess.toNat]? = some r → r.busy = false →
    (r.state = .discovered ∨ r.state = .opened) →
    let done := fun (i : Instr) (kind : ResultKind) (q : Session) =>
      { s with
        sessions := s.sessions.set sess.toNat { q with inflight := none }
        resp := ⟨statusWord kind 0#32, {}⟩
        respTo := s.port.req
        history := s.history ++ [.issue s.port i, .complete s.port.req ⟨statusWord kind 0#32, {}⟩] }
    (∃ e, exec .encArb s = .next e ∧
      ((e.resp.status = statusWord .ok 0#32 ∧
          exec (.cfgArbPar sess) s =
            .next (done (.cfgArbPar sess) .ok { r with arbStaged := some e.resp.res.r0 })) ∨
        (e.resp.status = statusWord .invalidTimingParameter 0#32 ∧
          exec (.cfgArbPar sess) s =
            .next (done (.cfgArbPar sess) .invalidTimingParameter
              { r with lastError := ⟨.invalidTimingParameter, 0#32⟩ })))) ∧
    (∃ e, exec .encFd s = .next e ∧
      ((e.resp.status = statusWord .ok 0#32 ∧
          exec (.cfgFdPar sess) s =
            .next (done (.cfgFdPar sess) .ok { r with fdStaged := some e.resp.res.r0 })) ∨
        (e.resp.status = statusWord .invalidTimingParameter 0#32 ∧
          exec (.cfgFdPar sess) s =
            .next (done (.cfgFdPar sess) .invalidTimingParameter
              { r with lastError := ⟨.invalidTimingParameter, 0#32⟩ }))))

/-- R36 (I7), R86, R91: what a PAR form stages is a canonical word. The condition on the parameters is R6 with log
entry 12. -/
def Obligations.StagedParIsCanonical : Prop :=
  ∀ (sess : BitVec 8) (s t : State) (r q : Session) (v : Word), paramsValid s.params = true →
    s.sessions[sess.toNat]? = some r → t.sessions[sess.toNat]? = some q →
    (exec (.cfgArbPar sess) s = .next t → q.arbStaged = some v → r.arbStaged ≠ some v →
      v &&& 0xFFFFE000FF000000#64 = s.params.arbBase ∧ v.extractLsb' 16 8 ≠ 0#8) ∧
    (exec (.cfgFdPar sess) s = .next t → q.fdStaged = some v → r.fdStaged ≠ some v →
      v &&& fdMask s.params = s.params.fdBase ∧ (v.getLsbD 55 = true ∨ v.extractLsb' 40 15 = 0#15))

/-- R176, R57, R33, R69: APPLY writes the staged words to the controller, arbitration first, skipping a phase with none; with
`temporary` = 0 it writes them to the non-volatile store as well; the staged words are kept. -/
def Obligations.ApplyWritesStagedWords : Prop :=
  ∀ (sess : BitVec 8) (temporary : Bool) (s : State) (r : Session) (h : Handle) (n : Name) (rest : List EnvEvent),
    s.sessions[sess.toNat]? = some r → r.busy = false → (r.state = .discovered ∨ r.state = .opened) →
    r.handle = some h → r.name = some n →
    let writes : List (Phase × Word) :=
      (r.arbStaged.map fun v => (Phase.arb, v)).toList ++ (r.fdStaged.map fun w => (Phase.fd, w)).toList
    s.env = writes.map (fun _ => EnvEvent.answer sess.toNat .written) ++ rest →
    exec (.apply sess temporary) s = .next
      { s with
        sessions := s.sessions.set sess.toNat { r with inflight := none }
        resp := ⟨statusWord .ok 0#32, {}⟩
        respTo := s.port.req
        ctlTiming := writes.foldl (fun m w => m.write (timingKey h w.1) w.2) s.ctlTiming
        ctlWritten := writes.foldl (fun m w => m.write (timingKey h w.1) w.2) s.ctlWritten
        nv := if temporary then s.nv else writes.foldl (fun m w => m.write (nvKey n w.1) w.2) s.nv
        history := s.history ++ [.issue s.port (.apply sess temporary)] ++
          writes.flatMap (fun w =>
            [.ctlCall (.session sess.toNat) (.writeTiming h w.1 w.2), .ctlRet (.session sess.toNat) .written]) ++
          [.complete s.port.req ⟨statusWord .ok 0#32, {}⟩]
        env := rest }

/-- R32, R33, R67 (a): a word store gives back the word last written at a key, and a write leaves every other key alone; two
different registers, or two different non-volatile words, have different keys. -/
def Obligations.StoreWrites : Prop :=
  (∀ (m : Memory) (a b : Nat) (v : Word), (m.write a v).read a = some v ∧ (a ≠ b → (m.write a v).read b = m.read b)) ∧
  (∀ h h' ph ph', timingKey h ph = timingKey h' ph' → h = h' ∧ ph = ph') ∧
  (∀ n n' ph ph', nvKey n ph = nvKey n' ph' → n = n' ∧ ph = ph')

/-! ### Frames -/

/-- R191, R190, R192: SEND makes one `CtlTransmit` of `frames_in[0]` with the timeout operand unchanged, and reports the
controller's answer, its code preserved. -/
def Obligations.SendTransmitsOneFrame : Prop :=
  ∀ (sess : BitVec 8) (s : State) (r : Session) (h : Handle) (f : Frame) (more : List Frame) (a : TxAnswer)
    (rest : List EnvEvent), s.sessions[sess.toNat]? = some r → r.busy = false → r.state = .opened → r.handle = some h →
    s.port.framesIn = f :: more → f.len.toNat ≤ 64 → s.env = .answer sess.toNat (.transmitted a) :: rest →
    let resp : Response := ⟨statusWord a.result.1 a.result.2, {}⟩
    exec (.send sess) s = .next
      { s with
        sessions := s.sessions.set sess.toNat
          { r with
            lastError := if a = .ok then r.lastError else ⟨a.result.1, a.result.2⟩
            inflight := none }
        resp := resp
        respTo := s.port.req
        history := s.history ++
          [.issue s.port (.send sess), .ctlCall (.session sess.toNat) (.transmit h f (s.port.a0.extractLsb' 0 32)),
            .ctlRet (.session sess.toNat) (.transmitted a), .complete s.port.req resp]
        env := rest }

/-- R193: a SENDN all of whose frames the controller accepts gives them in list order and ends `Ok` with `r0` = count; with
count 0 it makes no call. -/
def Obligations.SendnSendsAll : Prop :=
  ∀ (sess : BitVec 8) (count : BitVec 16) (s : State) (r : Session) (h : Handle) (rest : List EnvEvent),
    s.sessions[sess.toNat]? = some r → r.busy = false → r.state = .opened → r.handle = some h →
    count.toNat ≤ s.port.framesIn.length → (∀ f ∈ s.port.framesIn.take count.toNat, f.len.toNat ≤ 64) →
    s.env = List.replicate count.toNat (.answer sess.toNat (.transmitted .ok)) ++ rest →
    let resp : Response := ⟨statusWord .ok 0#32, { r0 := count.setWidth 64 }⟩
    exec (.sendn sess count) s = .next
      { s with
        sessions := s.sessions.set sess.toNat { r with inflight := none }
        resp := resp
        respTo := s.port.req
        history := s.history ++ [.issue s.port (.sendn sess count)] ++
          (s.port.framesIn.take count.toNat).flatMap (fun f =>
            [.ctlCall (.session sess.toNat) (.transmit h f (s.port.a0.extractLsb' 0 32)),
              .ctlRet (.session sess.toNat) (.transmitted .ok)]) ++
          [.complete s.port.req resp]
        env := rest }

/-- R193, R196 (a): a SENDN stops at the first frame the controller does not accept, `f`, reports its error with `r0` = the
frames accepted before it, and attempts no later frame. -/
def Obligations.SendnStops : Prop :=
  ∀ (sess : BitVec 8) (count : BitVec 16) (s : State) (r : Session) (h : Handle) (m : Nat) (f : Frame) (a : TxAnswer)
    (rest : List EnvEvent), s.sessions[sess.toNat]? = some r → r.busy = false → r.state = .opened → r.handle = some h →
    count.toNat ≤ s.port.framesIn.length → (∀ g ∈ s.port.framesIn.take count.toNat, g.len.toNat ≤ 64) →
    m < count.toNat → s.port.framesIn[m]? = some f → a ≠ .ok →
    s.env = List.replicate m (.answer sess.toNat (.transmitted .ok)) ++ .answer sess.toNat (.transmitted a) :: rest →
    let resp : Response := ⟨statusWord a.result.1 a.result.2, { r0 := BitVec.ofNat 64 m }⟩
    exec (.sendn sess count) s = .next
      { s with
        sessions := s.sessions.set sess.toNat { r with lastError := ⟨a.result.1, a.result.2⟩, inflight := none }
        resp := resp
        respTo := s.port.req
        history := s.history ++ [.issue s.port (.sendn sess count)] ++
          (s.port.framesIn.take m).flatMap (fun g =>
            [.ctlCall (.session sess.toNat) (.transmit h g (s.port.a0.extractLsb' 0 32)),
              .ctlRet (.session sess.toNat) (.transmitted .ok)]) ++
          [.ctlCall (.session sess.toNat) (.transmit h f (s.port.a0.extractLsb' 0 32)),
            .ctlRet (.session sess.toNat) (.transmitted a), .complete s.port.req resp]
        env := rest }

/-- R194, R190: RECV makes one `CtlReceive` with the timeout operand unchanged; the frame is passed through unchanged, an error
gives no frame. -/
def Obligations.RecvReceivesOneFrame : Prop :=
  ∀ (sess : BitVec 8) (s : State) (r : Session) (h : Handle) (a : RxAnswer) (rest : List EnvEvent),
    s.sessions[sess.toNat]? = some r → r.busy = false → r.state = .opened → r.handle = some h →
    s.env = .answer sess.toNat (.received a) :: rest →
    let resp : Response := ⟨statusWord a.result.1 a.result.2.1, { framesOut := a.result.2.2 }⟩
    exec (.recv sess) s = .next
      { s with
        sessions := s.sessions.set sess.toNat
          { r with
            lastError := if a.result.1 = .ok then r.lastError else ⟨a.result.1, a.result.2.1⟩
            inflight := none }
        resp := resp
        respTo := s.port.req
        history := s.history ++
          [.issue s.port (.recv sess), .ctlCall (.session sess.toNat) (.receive h (s.port.a0.extractLsb' 0 32)),
            .ctlRet (.session sess.toNat) (.received a), .complete s.port.req resp]
        env := rest }

/-- R195: a RECVN that gets all its frames returns them in arrival order with `r0` = count; with count 0 it makes no call. -/
def Obligations.RecvnReceivesAll : Prop :=
  ∀ (sess : BitVec 8) (count : BitVec 16) (s : State) (r : Session) (h : Handle) (frames : List Frame)
    (rest : List EnvEvent), s.sessions[sess.toNat]? = some r → r.busy = false → r.state = .opened → r.handle = some h →
    frames.length = count.toNat →
    s.env = frames.map (fun f => EnvEvent.answer sess.toNat (.received (.ok f))) ++ rest →
    let resp : Response := ⟨statusWord .ok 0#32, { r0 := count.setWidth 64, framesOut := frames }⟩
    exec (.recvn sess count) s = .next
      { s with
        sessions := s.sessions.set sess.toNat { r with inflight := none }
        resp := resp
        respTo := s.port.req
        history := s.history ++ [.issue s.port (.recvn sess count)] ++
          frames.flatMap (fun f =>
            [.ctlCall (.session sess.toNat) (.receive h (s.port.a0.extractLsb' 0 32)),
              .ctlRet (.session sess.toNat) (.received (.ok f))]) ++
          [.complete s.port.req resp]
        env := rest }

/-- R195, R196 (b), R237, R238: a RECVN that fails after `frames` keeps them and returns them with the terminating error, `r0`
being their number; no further call is made. -/
def Obligations.RecvnStops : Prop :=
  ∀ (sess : BitVec 8) (count : BitVec 16) (s : State) (r : Session) (h : Handle) (frames : List Frame) (a : RxAnswer)
    (rest : List EnvEvent), s.sessions[sess.toNat]? = some r → r.busy = false → r.state = .opened → r.handle = some h →
    frames.length < count.toNat → a.result.1 ≠ .ok →
    s.env = frames.map (fun f => EnvEvent.answer sess.toNat (.received (.ok f))) ++
      .answer sess.toNat (.received a) :: rest →
    let resp : Response :=
      ⟨statusWord a.result.1 a.result.2.1, { r0 := BitVec.ofNat 64 frames.length, framesOut := frames }⟩
    exec (.recvn sess count) s = .next
      { s with
        sessions := s.sessions.set sess.toNat { r with lastError := ⟨a.result.1, a.result.2.1⟩, inflight := none }
        resp := resp
        respTo := s.port.req
        history := s.history ++ [.issue s.port (.recvn sess count)] ++
          frames.flatMap (fun f =>
            [.ctlCall (.session sess.toNat) (.receive h (s.port.a0.extractLsb' 0 32)),
              .ctlRet (.session sess.toNat) (.received (.ok f))]) ++
          [.ctlCall (.session sess.toNat) (.receive h (s.port.a0.extractLsb' 0 32)),
            .ctlRet (.session sess.toNat) (.received a), .complete s.port.req resp]
        env := rest }

/-- R196 (c): a batch of one makes the same controller calls as the single operation and ends with the same status. -/
def Obligations.BatchOfOne : Prop :=
  ∀ (sess : BitVec 8) (s t u : State),
    (exec (.send sess) s = .next t → exec (.sendn sess 1#16) s = .next u →
      callsIn t.history = callsIn u.history ∧ t.resp.status = u.resp.status) ∧
    (exec (.recv sess) s = .next t → exec (.recvn sess 1#16) s = .next u →
      callsIn t.history = callsIn u.history ∧ t.resp.status = u.resp.status ∧ t.resp.res.framesOut = u.resp.res.framesOut)

/-! ### Probes and lookup -/

/-- R210 to R214: each probe asks the controller once for its own capability: `true` is `Ok` with `r0` = 1, `false` is
UnsupportedFeature with `r0` = 0. -/
def Obligations.ProbeReportsCapability : Prop :=
  ∀ (i : Instr) (id : Capability) (sess : BitVec 8) (s : State) (r : Session) (h : Handle) (b : Bool)
    (rest : List EnvEvent),
    (i, id) ∈ [(.probeTerm sess, .termination), (.probeEcho sess, .echo), (.probeBlink sess, .blink),
      (.probeTxmode sess, .txMode)] →
    s.sessions[sess.toNat]? = some r → r.busy = false → (r.state = .discovered ∨ r.state = .opened) → r.handle = some h →
    s.env = .answer sess.toNat (.capability b) :: rest →
    let resp : Response :=
      if b then ⟨statusWord .ok 0#32, { r0 := 1#64 }⟩ else ⟨statusWord .unsupportedFeature 0#32, {}⟩
    exec i s = .next
      { s with
        sessions := s.sessions.set sess.toNat
          { r with lastError := if b then r.lastError else ⟨.unsupportedFeature, 0#32⟩, inflight := none }
        resp := resp
        respTo := s.port.req
        history := s.history ++
          [.issue s.port i, .ctlCall (.session sess.toNat) (.queryCapability h id),
            .ctlRet (.session sess.toNat) (.capability b), .complete s.port.req resp]
        env := rest }

/-- R215: ERRTEXT asks the controller for the text of `a0[31:0]` and always ends `Ok` with it; it touches no session. Before the
text comes it is outstanding and nothing is answered; when the text of the `j`-th outstanding lookup comes, that lookup is answered
with it, to its own requestor, and is outstanding no more. -/
def Obligations.ErrtextReturnsText : Prop :=
  (∀ (s : State) (text : List Byte) (rest : List EnvEvent),
    let issued := s.history ++
      [.issue s.port .errtext, .ctlCall (.lookup s.port.req) (.errorText (s.port.a0.extractLsb' 0 32))]
    let resp : Response := ⟨statusWord .ok 0#32, { textOut := text }⟩
    (s.env = .text s.lookups.length text :: rest →
      exec .errtext s = .next
        { s with
          resp := resp
          respTo := s.port.req
          history := issued ++ [.ctlRet (.lookup s.port.req) (.text text), .complete s.port.req resp]
          env := rest }) ∧
    (s.env = [] → exec .errtext s = .next { s with lookups := s.lookups ++ [s.port], history := issued })) ∧
  (∀ (s : State) (j : Nat) (c : Cmd) (text : List Byte) (rest : List EnvEvent), s.portValid = false →
    s.env = .text j text :: rest → s.lookups[j]? = some c →
    let resp : Response := ⟨statusWord .ok 0#32, { textOut := text }⟩
    step s = .next
      { s with
        lookups := s.lookups.eraseIdx j
        resp := resp
        respTo := c.req
        history := s.history ++ [.ctlRet (.lookup c.req) (.text text), .complete c.req resp]
        env := rest })

/-! ### Reset and invariants -/

/-- R37: after reset every session record, `dlock` and the history have the values of the rule, and `CTL.timing` and `NV` hold
no value. The values of the ports are the model's choice and no part of this (log entry 4). -/
def Obligations.ResetState : Prop :=
  State.reset.sessions.length = 4 ∧
  (∀ (k : Nat) (r : Session), State.reset.sessions[k]? = some r →
    r.state = .unbound ∧ r.name = none ∧ r.handle = none ∧ r.openType = none ∧ r.openMode = none ∧ r.arbStaged = none ∧
      r.fdStaged = none ∧ r.lastError = ⟨.ok, 0#32⟩ ∧ r.busy = false ∧ r.inflight = none) ∧
  State.reset.dlock = false ∧ State.reset.history = [] ∧
  (∀ a, State.reset.ctlTiming.read a = none) ∧ (∀ a, State.reset.nv.read a = none)

/-- R270, R37, R272: the reset event, whatever is in progress: every session as after reset, held and in-flight commands gone
without a response, no controller call, `NV` and what was written to the controller untouched; what the timing registers hold is
unspecified afterwards (R32). That `ctlWritten` keeps its words is the model's (log entry 6), and so is what stands on the ports
afterwards (log entry 4). -/
def Obligations.ResetEvent : Prop :=
  ∀ (s : State) (rest : List EnvEvent), s.portValid = false → s.env = .reset :: rest →
    step s = .next
      { s with
        sessions := List.replicate s.params.nSessions Session.reset
        dlock := false
        held := []
        lookups := []
        port := Cmd.zero
        resp := Response.zero
        respTo := 0
        ctlTiming := []
        history := []
        env := rest }

/-- R36, R20, R29: the invariant holds after reset. -/
def Obligations.InvAtReset : Prop := Inv State.reset

/-- R36 (I1) to (I6), R28, R29: every step keeps the invariant. -/
def Obligations.InvKept : Prop :=
  ∀ s t : State, Inv s → step s = .next t → Inv t

/-- R36 (I6), R52, R68 (b): under the premise `HANDLE_UNIQUE`, asked of the bind answer that a step takes, no two sessions in
`Discovered` or `Open` come to hold one handle; and so along any number of steps, each bind answer judged at its own moment. -/
def Obligations.HandlesStayUnique : Prop :=
  (∀ s t : State, Inv s → s.uniqueHandles → step s = .next t → s.handleUnique t → t.uniqueHandles) ∧
  (∀ (n : Nat) (s t : State), Inv s → s.uniqueHandles → s.run n = some t → s.handleUniqueFor n → Inv t ∧ t.uniqueHandles)

/-- R248, R36 (I1): no step from a state with the invariant faults: nothing the block does is undefined. -/
def Obligations.NoFault : Prop :=
  ∀ (s : State) (f : Fault), Inv s → step s ≠ .fault f

/-- R12, R240 (1): every well-formed command has a next state: only the ill-formed ones of R100 are refused. -/
def Obligations.WellFormedCommandRuns : Prop :=
  ∀ (s : State) (i : Instr), Inv s → s.portValid = true → decode s.port.word = .ok i → isOperation i = true →
    i.wellFormed s.params.nSessions = true → framesRefused (framesNeeded i) s.port.framesIn = none →
    ∃ t, step s = .next t

/-! ### Frames of the operations -/

/-- R30, R63, R68 (e): what no instruction changes: the parameters, the command port, the records of other sessions, the events
already in the history; `dlock` only DISCOVER changes, outstanding lookups only ERRTEXT; the operations without a session
change no session record and hold nothing. -/
def Obligations.SharedFrame : Prop :=
  ∀ (i : Instr) (s t : State), exec i s = .next t →
    t.params = s.params ∧ t.port = s.port ∧ t.portValid = s.portValid ∧ t.sessions.length = s.sessions.length ∧
    (∀ j : Nat, (∀ sess, i.session? = some sess → sess.toNat ≠ j) → t.sessions[j]? = s.sessions[j]?) ∧
    (∃ new, t.history = s.history ++ new) ∧ (∃ used, s.env = used ++ t.env) ∧
    ((∀ sess, i ≠ .discover sess) → t.dlock = s.dlock) ∧
    (i ≠ .errtext → t.lookups = s.lookups) ∧
    (i.session? = none → t.sessions = s.sessions ∧ t.held = s.held)

/-- R22, R24 to R27, R154: which instruction writes which field of the record of the session it names. -/
def Obligations.RecordFrame : Prop :=
  ∀ (i : Instr) (s t : State) (k : Nat) (r q : Session), exec i s = .next t → s.sessions[k]? = some r →
    t.sessions[k]? = some q →
    ((∀ sess, i ≠ .discover sess) → q.name = r.name ∧ q.handle = r.handle) ∧
    ((∀ sess type mode, i ≠ .openSess sess type mode) → q.openType = r.openType ∧ q.openMode = r.openMode) ∧
    ((∀ sess, i ≠ .cfgArbRaw sess ∧ i ≠ .cfgArbPar sess) → q.arbStaged = r.arbStaged) ∧
    ((∀ sess, i ≠ .cfgFdRaw sess ∧ i ≠ .cfgFdPar sess) → q.fdStaged = r.fdStaged) ∧
    ((∀ sess type mode, i ≠ .discover sess ∧ i ≠ .openSess sess type mode ∧ i ≠ .closeSess sess) → q.state = r.state)

/-- R32, R33, R57: only APPLY writes a timing register, only CLOSE takes one away, only APPLY with `temporary` = 0 writes the
non-volatile store; every other instruction leaves the stores as they are. The two fields for the timing registers are the
model's (log entry 6). -/
def Obligations.StoreFrame : Prop :=
  ∀ (i : Instr) (s t : State), exec i s = .next t →
    ((∀ sess b, i ≠ .apply sess b) → t.ctlWritten = s.ctlWritten) ∧
    ((∀ sess b, i ≠ .apply sess b ∧ i ≠ .closeSess sess) → t.ctlTiming = s.ctlTiming) ∧
    ((∀ sess, i ≠ .apply sess false) → t.nv = s.nv)

/-- R176, R32, R33: the words an APPLY can write are those of its session's own handle and name, each only for a phase that has
a staged word; every other word of the stores reads as before. -/
def Obligations.ApplyFrame : Prop :=
  ∀ (sess : BitVec 8) (temporary : Bool) (s t : State) (r : Session) (h : Handle) (n : Name),
    exec (.apply sess temporary) s = .next t → s.sessions[sess.toNat]? = some r → r.handle = some h → r.name = some n →
    ∀ a : Nat,
      ((∀ ph v, r.stagedWord ph = some v → a ≠ timingKey h ph) →
        t.ctlTiming.read a = s.ctlTiming.read a ∧ t.ctlWritten.read a = s.ctlWritten.read a) ∧
      ((∀ ph v, r.stagedWord ph = some v → a ≠ nvKey n ph) → t.nv.read a = s.nv.read a)

/-- R239, R95: the kinds an operation can end with, and that a code other than 0 comes with `Timeout` and `IoFailure` only;
when it is taken from the port, and when it goes on with an answer of the controller. A lookup ends `Ok`. -/
def Obligations.KindsOfOperation : Prop :=
  (∀ (i : Instr) (s t : State) (new : List HistEvent), exec i s = .next t → t.history = s.history ++ new →
    ∀ x ∈ responsesIn new, ∃ kind code, kind ∈ allowedKinds i ∧ x.status = statusWord kind code ∧
      (code ≠ 0#32 → kind = .timeout ∨ kind = .ioFailure)) ∧
  (∀ (k : Nat) (f : InFlight) (a : CtlAnswer) (s t : State) (new : List HistEvent), s.inflight? k = some f →
    answered k a s = some t → t.history = s.history ++ new →
    ∀ x ∈ responsesIn new, ∃ kind code, kind ∈ allowedKinds f.instr ∧ x.status = statusWord kind code ∧
      (code ≠ 0#32 → kind = .timeout ∨ kind = .ioFailure)) ∧
  (∀ (j : Nat) (text : List Byte) (s : State) (new : List HistEvent), (answerText j text s).history = s.history ++ new →
    ∀ x ∈ responsesIn new, x.status = statusWord .ok 0#32)

/-- R62, R131, R152, R170: the codec operations, OPEN and the four configure operations make no controller call. -/
def Obligations.LocalOperations : Prop :=
  ∀ (i : Instr) (sess : BitVec 8) (type : OpenType) (mode : OpenMode) (s t : State),
    i ∈ [.encArb, .encFd, .decArb, .decFd, .openSess sess type mode, .cfgArbRaw sess, .cfgArbPar sess, .cfgFdRaw sess,
      .cfgFdPar sess] →
    exec i s = .next t → callsIn t.history = callsIn s.history ∧ t.env = s.env

/-- R31, R23, R28: the read-out port of a session shows its state's number, its lock, the six presence bits, the open type and
mode and the last error, taking no lock. With no command in flight that is the record, whenever the read falls; with one in flight it
is the record from before that command's writes or the one from after them, and the values from after cover whatever step ends the
command (a step that takes a reset ends none). How the model gives the free choice, and that the lock shows taken in the record from
before the writes, is the model's choice (log entry 16). -/
def Obligations.ReadOutPort : Prop :=
  let shows := fun (r : Session) (busy : Bool) =>
    (⟨r.state.number, busy, r.name.isSome, r.handle.isSome, r.openType.isSome, r.openMode.isSome, r.arbStaged.isSome,
      r.fdStaged.isSome, r.openType, r.openMode, r.lastError⟩ : Readout)
  (∀ (s : State) (k : Nat) (r : Session), s.sessions[k]? = some r →
    s.readout k .before = some (shows r r.busy) ∧
    (r.inflight = none → ∀ m, s.readout k m = some (shows r r.busy))) ∧
  (∀ (s t : State) (k : Nat) (r q : Session), Inv s → s.sessions[k]? = some r → r.inflight ≠ none → step s = .next t →
    t.sessions[k]? = some q → q.inflight = none → (s.portValid = true ∨ ∀ rest, s.env ≠ .reset :: rest) →
    ∃ e, ∀ busy, s.readout k (.after e busy) = some (shows q busy)) ∧
  (∀ (s : State) (k : Nat) (r : Session) (f : InFlight) (m : ReadMoment) (v : Readout), s.sessions[k]? = some r →
    r.inflight = some f → s.readout k m = some v →
    v.openType = r.openType ∧ v.openMode = r.openMode ∧ v.arbStagedSome = r.arbStaged.isSome ∧
      v.fdStagedSome = r.fdStaged.isSome ∧
      (v.state = r.state.number ∨ (∃ sess, f.instr = .discover sess ∧ v.state = 1#2) ∨
        (∃ sess, f.instr = .closeSess sess ∧ v.state = 3#2))) ∧
  [LifeState.unbound, .discovered, .opened, .closed].map LifeState.number = [0#2, 1#2, 2#2, 3#2]

end
end

