-- ==== Sys2Proof/Laws/Decode.lean ====
section
/-! SUPPORT. The laws of the encodings: the fields of a command word and of the two register layouts, and the numbers of the
enumerations of 30_encoding.md R99, each in both directions. -/

namespace Sys2Proof

/-! ### The command word (R92) -/

theorem opField_cmdWord (op sess : BitVec 8) (imm : BitVec 16) : opField (cmdWord op sess imm) = op := by
  apply BitVec.eq_of_getLsbD_eq
  intro i hi
  simp only [opField, cmdWord, BitVec.getLsbD_extractLsb', BitVec.getLsbD_append, hi]
  simp [hi]

theorem sessField_cmdWord (op sess : BitVec 8) (imm : BitVec 16) : sessField (cmdWord op sess imm) = sess := by
  apply BitVec.eq_of_getLsbD_eq
  intro i hi
  simp only [sessField, cmdWord, BitVec.getLsbD_extractLsb', BitVec.getLsbD_append, hi]
  simp [hi]

theorem immField_cmdWord (op sess : BitVec 8) (imm : BitVec 16) : immField (cmdWord op sess imm) = imm := by
  apply BitVec.eq_of_getLsbD_eq
  intro i hi
  simp only [immField, cmdWord, BitVec.getLsbD_extractLsb', BitVec.getLsbD_append, hi]
  simp only [show ¬ 16 + i < 8 by omega, show ¬ 16 + i - 8 < 8 by omega, show 16 + i - 8 - 8 = i by omega]
  simp

theorem cmdWord_fields (cw : Word32) : cmdWord (opField cw) (sessField cw) (immField cw) = cw := by
  apply BitVec.eq_of_getLsbD_eq
  intro i hi
  simp only [opField, sessField, immField, cmdWord, BitVec.getLsbD_extractLsb', BitVec.getLsbD_append]
  by_cases h1 : i < 8
  · simp [h1]
  · by_cases h2 : i < 16
    · simp [h1, show i - 8 < 8 by omega, show 8 + (i - 8) = i by omega]
    · simp [h1, show ¬ i - 8 < 8 by omega, show i - 8 - 8 < 16 by omega, show 16 + (i - 8 - 8) = i by omega]

/-! ### The enumerations (R99) and the immediates (R94) -/

theorem openTypeOf_number (t : OpenType) : openTypeOf t.number = some t := by cases t <;> decide

theorem openModeOf_number (m : OpenMode) : openModeOf m.number = some m := by cases m <;> decide

theorem openTypeOf_some {n : BitVec 4} {t : OpenType} (h : openTypeOf n = some t) : t.number = n := by
  revert n; cases t <;> decide

theorem openModeOf_some {n : BitVec 4} {m : OpenMode} (h : openModeOf n = some m) : m.number = n := by
  revert n; cases m <;> decide

theorem openTypeOf_none (n : BitVec 4) : openTypeOf n = none ↔ 4 ≤ n.toNat := by revert n; decide

theorem openModeOf_none (n : BitVec 4) : openModeOf n = none ↔ 3 ≤ n.toNat := by revert n; decide

theorem openImm_fields (t : OpenType) (m : OpenMode) :
    (openImm t m).extractLsb' 8 8 = 0#8 ∧ (openImm t m).extractLsb' 0 4 = t.number ∧
      (openImm t m).extractLsb' 4 4 = m.number := by
  cases t <;> cases m <;> decide

/-- An immediate of OPEN is its three fields. -/
theorem openImm_eq {imm : BitVec 16} {t : OpenType} {m : OpenMode} (h0 : imm.extractLsb' 8 8 = 0#8)
    (ht : t.number = imm.extractLsb' 0 4) (hm : m.number = imm.extractLsb' 4 4) : openImm t m = imm := by
  apply BitVec.eq_of_getLsbD_eq
  intro i hi
  simp only [openImm, ht, hm, BitVec.getLsbD_append, BitVec.getLsbD_extractLsb']
  by_cases h1 : i < 4
  · simp [h1]
  · by_cases h2 : i < 8
    · simp [h1, show i - 4 < 4 by omega, show 4 + (i - 4) = i by omega]
    · have := congrArg (fun v => v.getLsbD (i - 8)) h0
      simp only [BitVec.getLsbD_extractLsb', show i - 8 < 8 by omega, show 8 + (i - 8) = i by omega] at this
      simp at this
      simp [h1, show ¬ i - 4 < 4 by omega, this]

theorem applyImm_fields (b : Bool) : (applyImm b).extractLsb' 1 15 = 0#15 ∧ (applyImm b).getLsbD 0 = b := by
  cases b <;> decide

/-- An immediate of APPLY is its two fields. -/
theorem applyImm_eq {imm : BitVec 16} (h0 : imm.extractLsb' 1 15 = 0#15) : applyImm (imm.getLsbD 0) = imm := by
  apply BitVec.eq_of_getLsbD_eq
  intro i hi
  simp only [applyImm, BitVec.getLsbD_append]
  by_cases h1 : i < 1
  · simp [show i = 0 by omega]
  · have := congrArg (fun v => v.getLsbD (i - 1)) h0
    simp only [BitVec.getLsbD_extractLsb', show i - 1 < 15 by omega, show 1 + (i - 1) = i by omega] at this
    simp at this
    simp [h1, this]

/-! ### The four shapes of a command word -/

theorem decodeSession_ok {i j : Instr} {imm : BitVec 16} (h : decodeSession i imm = .ok j) : j = i ∧ imm = 0#16 := by
  unfold decodeSession at h
  split at h <;> simp_all

theorem decodeSessionless_ok {i j : Instr} {sess : BitVec 8} {imm : BitVec 16}
    (h : decodeSessionless i sess imm = .ok j) : j = i ∧ sess = 0#8 ∧ imm = 0#16 := by
  unfold decodeSessionless at h
  split at h
  · simp at h
  · split at h <;> simp_all

theorem decodeOpen_ok {j : Instr} {sess : BitVec 8} {imm : BitVec 16} (h : decodeOpen sess imm = .ok j) :
    encode j = .cmd32 (cmdWord 0x21#8 sess imm) := by
  unfold decodeOpen at h
  split at h
  · simp at h
  · rename_i h0
    split at h
    · rename_i t m ht hm
      simp only [Except.ok.injEq] at h
      subst h
      simp only [encode]
      rw [openImm_eq (by simpa using h0) (openTypeOf_some ht) (openModeOf_some hm)]
    · simp at h
    · simp at h

theorem decodeApply_ok {j : Instr} {sess : BitVec 8} {imm : BitVec 16} (h : decodeApply sess imm = .ok j) :
    encode j = .cmd32 (cmdWord 0x34#8 sess imm) := by
  unfold decodeApply at h
  split at h
  · simp at h
  · rename_i h0
    simp only [Except.ok.injEq] at h
    subst h
    simp only [encode]
    rw [applyImm_eq (by simpa using h0)]

/-! ### The register layouts (R80, R87) -/

/-- The fixed bits of an arbitration word are 63:45 and 31:24 (R80). -/
theorem arbFixedMask_bit (i : Nat) (h : i < 64) :
    arbFixedMask.getLsbD i = (decide (45 ≤ i) || (decide (24 ≤ i) && decide (i ≤ 31))) := by
  revert i; decide

/-- The fixed bits of an FD word with a 15-bit offset field are 63:56, 39:32 and 31:26 (R87). -/
theorem fdFixedMask_bit (i : Nat) (h : i < 64) :
    fdFixedMask.getLsbD i = (decide (56 ≤ i) || (decide (26 ≤ i) && decide (i ≤ 39))) := by
  revert i; decide

theorem arbBase_bit (i : Nat) (h : i < 64) :
    Params.default.arbBase.getLsbD i = (decide (i = 63) || decide (i = 61)) := by
  revert i; decide

theorem fdBase_bit (i : Nat) (h : i < 64) :
    Params.default.fdBase.getLsbD i = (decide (i = 31) || decide (i = 29)) := by
  revert i; decide

theorem arbLayout_base (tq : BitVec 13) (sjw ts1m1 ts2m1 : BitVec 8) :
    arbLayout tq sjw ts1m1 ts2m1 &&& arbFixedMask = Params.default.arbBase := by
  apply BitVec.eq_of_getLsbD_eq
  intro i hi
  rw [arbBase_bit i hi, BitVec.getLsbD_and, arbFixedMask_bit i hi]
  simp only [arbLayout, BitVec.getLsbD_append]
  interval_cases i <;> simp

theorem fdLayout_base (e : BitVec 1) (o : BitVec 15) (tq : BitVec 13) (a : BitVec 5) (b c : BitVec 4) :
    fdLayout e o tq a b c &&& fdFixedMask = Params.default.fdBase := by
  apply BitVec.eq_of_getLsbD_eq
  intro i hi
  rw [fdBase_bit i hi, BitVec.getLsbD_and, fdFixedMask_bit i hi]
  simp only [fdLayout, BitVec.getLsbD_append]
  interval_cases i <;> simp

theorem fdLayout_not_arb (e : BitVec 1) (o : BitVec 15) (tq : BitVec 13) (a : BitVec 5) (b c : BitVec 4) :
    fdLayout e o tq a b c &&& arbFixedMask ≠ Params.default.arbBase := by
  intro h
  have := congrArg (fun v => v.getLsbD 63) h
  simp only [BitVec.getLsbD_and, arbBase_bit 63 (by decide), arbFixedMask_bit 63 (by decide), fdLayout,
    BitVec.getLsbD_append] at this
  simp at this

theorem arbFields_layout (tq : BitVec 13) (sjw ts1m1 ts2m1 : BitVec 8) :
    arbFields (arbLayout tq sjw ts1m1 ts2m1) = .arbWord tq sjw ts1m1 ts2m1 := by
  simp only [arbFields, Instr.arbWord.injEq]
  refine ⟨?_, ?_, ?_, ?_⟩ <;> apply BitVec.eq_of_getLsbD_eq <;> intro i hi <;>
    simp only [arbLayout, BitVec.getLsbD_extractLsb', BitVec.getLsbD_append] <;>
    interval_cases i <;> simp

theorem fdFields_layout (e : BitVec 1) (o : BitVec 15) (tq : BitVec 13) (a : BitVec 5) (b c : BitVec 4) :
    fdFields (fdLayout e o tq a b c) = .fdWord e o tq a b c := by
  simp only [fdFields, Instr.fdWord.injEq]
  refine ⟨?_, ?_, ?_, ?_, ?_, ?_⟩ <;> apply BitVec.eq_of_getLsbD_eq <;> intro i hi <;>
    simp only [fdLayout, BitVec.getLsbD_extractLsb', BitVec.getLsbD_append] <;>
    interval_cases i <;> simp

/-- A word with the fixed bits of R80 is the layout of its fields. -/
theorem arbLayout_fields {v : Word} (h : v &&& arbFixedMask = Params.default.arbBase) :
    encode (arbFields v) = .reg64 v := by
  simp only [arbFields, encode, PortWord.reg64.injEq]
  apply BitVec.eq_of_getLsbD_eq
  intro i hi
  have hb := congrArg (fun v => v.getLsbD i) h
  simp only [BitVec.getLsbD_and, arbBase_bit i hi, arbFixedMask_bit i hi] at hb
  simp only [arbLayout, BitVec.getLsbD_append, BitVec.getLsbD_extractLsb']
  interval_cases i <;> simp_all

/-- A word with the fixed bits of R87 is the layout of its fields. -/
theorem fdLayout_fields {v : Word} (h : v &&& fdFixedMask = Params.default.fdBase) :
    encode (fdFields v) = .reg64 v := by
  simp only [fdFields, encode, PortWord.reg64.injEq]
  apply BitVec.eq_of_getLsbD_eq
  intro i hi
  have hb := congrArg (fun v => v.getLsbD i) h
  simp only [BitVec.getLsbD_and, fdBase_bit i hi, fdFixedMask_bit i hi] at hb
  simp only [fdLayout, BitVec.getLsbD_append, BitVec.getLsbD_extractLsb']
  interval_cases i <;> simp_all

end Sys2Proof
end

