-- ==== Sys2Proof/Laws/State.lean ====
section
/-! SUPPORT. One lemma per field and update of the state, true by unfolding, so that no later proof unfolds a record update:
the simp set of the model. -/

namespace Sys2Proof.Machine

/-! ### Equality -/

/-- Two states with equal fields are equal. -/
theorem State.ext_fields {s t : State} (h1 : s.params = t.params) (h2 : s.sessions = t.sessions) (h3 : s.dlock = t.dlock) (h4 : s.held = t.held) (h5 : s.lookups = t.lookups) (h6 : s.portValid = t.portValid) (h7 : s.port = t.port) (h8 : s.resp = t.resp) (h9 : s.respTo = t.respTo) (h10 : s.ctlTiming = t.ctlTiming) (h11 : s.ctlWritten = t.ctlWritten) (h12 : s.nv = t.nv) (h13 : s.history = t.history) (h14 : s.env = t.env) : s = t := by
  cases s
  cases t
  simp_all

/-! ### record -/

@[simp] theorem State.record_params (s : State) (e : HistEvent) : (s.record e).params = s.params := rfl
@[simp] theorem State.record_sessions (s : State) (e : HistEvent) : (s.record e).sessions = s.sessions := rfl
@[simp] theorem State.record_dlock (s : State) (e : HistEvent) : (s.record e).dlock = s.dlock := rfl
@[simp] theorem State.record_held (s : State) (e : HistEvent) : (s.record e).held = s.held := rfl
@[simp] theorem State.record_lookups (s : State) (e : HistEvent) : (s.record e).lookups = s.lookups := rfl
@[simp] theorem State.record_portValid (s : State) (e : HistEvent) : (s.record e).portValid = s.portValid := rfl
@[simp] theorem State.record_port (s : State) (e : HistEvent) : (s.record e).port = s.port := rfl
@[simp] theorem State.record_resp (s : State) (e : HistEvent) : (s.record e).resp = s.resp := rfl
@[simp] theorem State.record_respTo (s : State) (e : HistEvent) : (s.record e).respTo = s.respTo := rfl
@[simp] theorem State.record_ctlTiming (s : State) (e : HistEvent) : (s.record e).ctlTiming = s.ctlTiming := rfl
@[simp] theorem State.record_ctlWritten (s : State) (e : HistEvent) : (s.record e).ctlWritten = s.ctlWritten := rfl
@[simp] theorem State.record_nv (s : State) (e : HistEvent) : (s.record e).nv = s.nv := rfl
@[simp] theorem State.record_history (s : State) (e : HistEvent) : (s.record e).history = s.history ++ [e] := rfl
@[simp] theorem State.record_env (s : State) (e : HistEvent) : (s.record e).env = s.env := rfl

/-! ### updSession -/

@[simp] theorem State.updSession_params (s : State) (k : Nat) (f : Session → Session) : (s.updSession k f).params = s.params := rfl
@[simp] theorem State.updSession_sessions (s : State) (k : Nat) (f : Session → Session) : (s.updSession k f).sessions = s.sessions.modify k f := rfl
@[simp] theorem State.updSession_dlock (s : State) (k : Nat) (f : Session → Session) : (s.updSession k f).dlock = s.dlock := rfl
@[simp] theorem State.updSession_held (s : State) (k : Nat) (f : Session → Session) : (s.updSession k f).held = s.held := rfl
@[simp] theorem State.updSession_lookups (s : State) (k : Nat) (f : Session → Session) : (s.updSession k f).lookups = s.lookups := rfl
@[simp] theorem State.updSession_portValid (s : State) (k : Nat) (f : Session → Session) : (s.updSession k f).portValid = s.portValid := rfl
@[simp] theorem State.updSession_port (s : State) (k : Nat) (f : Session → Session) : (s.updSession k f).port = s.port := rfl
@[simp] theorem State.updSession_resp (s : State) (k : Nat) (f : Session → Session) : (s.updSession k f).resp = s.resp := rfl
@[simp] theorem State.updSession_respTo (s : State) (k : Nat) (f : Session → Session) : (s.updSession k f).respTo = s.respTo := rfl
@[simp] theorem State.updSession_ctlTiming (s : State) (k : Nat) (f : Session → Session) : (s.updSession k f).ctlTiming = s.ctlTiming := rfl
@[simp] theorem State.updSession_ctlWritten (s : State) (k : Nat) (f : Session → Session) : (s.updSession k f).ctlWritten = s.ctlWritten := rfl
@[simp] theorem State.updSession_nv (s : State) (k : Nat) (f : Session → Session) : (s.updSession k f).nv = s.nv := rfl
@[simp] theorem State.updSession_history (s : State) (k : Nat) (f : Session → Session) : (s.updSession k f).history = s.history := rfl
@[simp] theorem State.updSession_env (s : State) (k : Nat) (f : Session → Session) : (s.updSession k f).env = s.env := rfl

/-! ### lock -/

@[simp] theorem State.lock_params (s : State) (k : Nat) (i : Instr) : (s.lock k i).params = s.params := rfl
@[simp] theorem State.lock_sessions (s : State) (k : Nat) (i : Instr) : (s.lock k i).sessions = s.sessions.modify k (Session.locked (startFlight i s.port)) := rfl
@[simp] theorem State.lock_dlock (s : State) (k : Nat) (i : Instr) : (s.lock k i).dlock = s.dlock := rfl
@[simp] theorem State.lock_held (s : State) (k : Nat) (i : Instr) : (s.lock k i).held = s.held := rfl
@[simp] theorem State.lock_lookups (s : State) (k : Nat) (i : Instr) : (s.lock k i).lookups = s.lookups := rfl
@[simp] theorem State.lock_portValid (s : State) (k : Nat) (i : Instr) : (s.lock k i).portValid = s.portValid := rfl
@[simp] theorem State.lock_port (s : State) (k : Nat) (i : Instr) : (s.lock k i).port = s.port := rfl
@[simp] theorem State.lock_resp (s : State) (k : Nat) (i : Instr) : (s.lock k i).resp = s.resp := rfl
@[simp] theorem State.lock_respTo (s : State) (k : Nat) (i : Instr) : (s.lock k i).respTo = s.respTo := rfl
@[simp] theorem State.lock_ctlTiming (s : State) (k : Nat) (i : Instr) : (s.lock k i).ctlTiming = s.ctlTiming := rfl
@[simp] theorem State.lock_ctlWritten (s : State) (k : Nat) (i : Instr) : (s.lock k i).ctlWritten = s.ctlWritten := rfl
@[simp] theorem State.lock_nv (s : State) (k : Nat) (i : Instr) : (s.lock k i).nv = s.nv := rfl
@[simp] theorem State.lock_history (s : State) (k : Nat) (i : Instr) : (s.lock k i).history = s.history ++ [.issue s.port i] := rfl
@[simp] theorem State.lock_env (s : State) (k : Nat) (i : Instr) : (s.lock k i).env = s.env := rfl

/-! ### hold -/

@[simp] theorem State.hold_params (s : State) (i : Instr) : (s.hold i).params = s.params := rfl
@[simp] theorem State.hold_sessions (s : State) (i : Instr) : (s.hold i).sessions = s.sessions := rfl
@[simp] theorem State.hold_dlock (s : State) (i : Instr) : (s.hold i).dlock = s.dlock := rfl
@[simp] theorem State.hold_held (s : State) (i : Instr) : (s.hold i).held = s.held ++ [⟨i, s.port⟩] := rfl
@[simp] theorem State.hold_lookups (s : State) (i : Instr) : (s.hold i).lookups = s.lookups := rfl
@[simp] theorem State.hold_portValid (s : State) (i : Instr) : (s.hold i).portValid = s.portValid := rfl
@[simp] theorem State.hold_port (s : State) (i : Instr) : (s.hold i).port = s.port := rfl
@[simp] theorem State.hold_resp (s : State) (i : Instr) : (s.hold i).resp = s.resp := rfl
@[simp] theorem State.hold_respTo (s : State) (i : Instr) : (s.hold i).respTo = s.respTo := rfl
@[simp] theorem State.hold_ctlTiming (s : State) (i : Instr) : (s.hold i).ctlTiming = s.ctlTiming := rfl
@[simp] theorem State.hold_ctlWritten (s : State) (i : Instr) : (s.hold i).ctlWritten = s.ctlWritten := rfl
@[simp] theorem State.hold_nv (s : State) (i : Instr) : (s.hold i).nv = s.nv := rfl
@[simp] theorem State.hold_history (s : State) (i : Instr) : (s.hold i).history = s.history := rfl
@[simp] theorem State.hold_env (s : State) (i : Instr) : (s.hold i).env = s.env := rfl

/-! ### call -/

@[simp] theorem State.call_params (s : State) (k : Nat) (f : InFlight) (c : CtlCall) : (s.call k f c).params = s.params := rfl
@[simp] theorem State.call_sessions (s : State) (k : Nat) (f : InFlight) (c : CtlCall) : (s.call k f c).sessions = s.sessions.modify k (Session.calling f c) := rfl
@[simp] theorem State.call_dlock (s : State) (k : Nat) (f : InFlight) (c : CtlCall) : (s.call k f c).dlock = s.dlock := rfl
@[simp] theorem State.call_held (s : State) (k : Nat) (f : InFlight) (c : CtlCall) : (s.call k f c).held = s.held := rfl
@[simp] theorem State.call_lookups (s : State) (k : Nat) (f : InFlight) (c : CtlCall) : (s.call k f c).lookups = s.lookups := rfl
@[simp] theorem State.call_portValid (s : State) (k : Nat) (f : InFlight) (c : CtlCall) : (s.call k f c).portValid = s.portValid := rfl
@[simp] theorem State.call_port (s : State) (k : Nat) (f : InFlight) (c : CtlCall) : (s.call k f c).port = s.port := rfl
@[simp] theorem State.call_resp (s : State) (k : Nat) (f : InFlight) (c : CtlCall) : (s.call k f c).resp = s.resp := rfl
@[simp] theorem State.call_respTo (s : State) (k : Nat) (f : InFlight) (c : CtlCall) : (s.call k f c).respTo = s.respTo := rfl
@[simp] theorem State.call_ctlTiming (s : State) (k : Nat) (f : InFlight) (c : CtlCall) : (s.call k f c).ctlTiming = s.ctlTiming := rfl
@[simp] theorem State.call_ctlWritten (s : State) (k : Nat) (f : InFlight) (c : CtlCall) : (s.call k f c).ctlWritten = s.ctlWritten := rfl
@[simp] theorem State.call_nv (s : State) (k : Nat) (f : InFlight) (c : CtlCall) : (s.call k f c).nv = s.nv := rfl
@[simp] theorem State.call_history (s : State) (k : Nat) (f : InFlight) (c : CtlCall) : (s.call k f c).history = s.history ++ [.ctlCall (.session k) c] := rfl
@[simp] theorem State.call_env (s : State) (k : Nat) (f : InFlight) (c : CtlCall) : (s.call k f c).env = s.env := rfl

/-! ### deliver -/

@[simp] theorem State.deliver_params (s : State) (req : Nat) (r : Response) : (s.deliver req r).params = s.params := rfl
@[simp] theorem State.deliver_sessions (s : State) (req : Nat) (r : Response) : (s.deliver req r).sessions = s.sessions := rfl
@[simp] theorem State.deliver_dlock (s : State) (req : Nat) (r : Response) : (s.deliver req r).dlock = s.dlock := rfl
@[simp] theorem State.deliver_held (s : State) (req : Nat) (r : Response) : (s.deliver req r).held = s.held := rfl
@[simp] theorem State.deliver_lookups (s : State) (req : Nat) (r : Response) : (s.deliver req r).lookups = s.lookups := rfl
@[simp] theorem State.deliver_portValid (s : State) (req : Nat) (r : Response) : (s.deliver req r).portValid = s.portValid := rfl
@[simp] theorem State.deliver_port (s : State) (req : Nat) (r : Response) : (s.deliver req r).port = s.port := rfl
@[simp] theorem State.deliver_resp (s : State) (req : Nat) (r : Response) : (s.deliver req r).resp = r := rfl
@[simp] theorem State.deliver_respTo (s : State) (req : Nat) (r : Response) : (s.deliver req r).respTo = req := rfl
@[simp] theorem State.deliver_ctlTiming (s : State) (req : Nat) (r : Response) : (s.deliver req r).ctlTiming = s.ctlTiming := rfl
@[simp] theorem State.deliver_ctlWritten (s : State) (req : Nat) (r : Response) : (s.deliver req r).ctlWritten = s.ctlWritten := rfl
@[simp] theorem State.deliver_nv (s : State) (req : Nat) (r : Response) : (s.deliver req r).nv = s.nv := rfl
@[simp] theorem State.deliver_history (s : State) (req : Nat) (r : Response) : (s.deliver req r).history = s.history ++ [.complete req r] := rfl
@[simp] theorem State.deliver_env (s : State) (req : Nat) (r : Response) : (s.deliver req r).env = s.env := rfl

/-! ### complete -/

@[simp] theorem State.complete_params (s : State) (k req : Nat) (kind : ResultKind) (code : Word32) (res : Results) : (s.complete k req kind code res).params = s.params := rfl
@[simp] theorem State.complete_sessions (s : State) (k req : Nat) (kind : ResultKind) (code : Word32) (res : Results) : (s.complete k req kind code res).sessions = s.sessions.modify k (Session.completed kind code) := rfl
@[simp] theorem State.complete_dlock (s : State) (k req : Nat) (kind : ResultKind) (code : Word32) (res : Results) : (s.complete k req kind code res).dlock = s.dlock := rfl
@[simp] theorem State.complete_held (s : State) (k req : Nat) (kind : ResultKind) (code : Word32) (res : Results) : (s.complete k req kind code res).held = s.held := rfl
@[simp] theorem State.complete_lookups (s : State) (k req : Nat) (kind : ResultKind) (code : Word32) (res : Results) : (s.complete k req kind code res).lookups = s.lookups := rfl
@[simp] theorem State.complete_portValid (s : State) (k req : Nat) (kind : ResultKind) (code : Word32) (res : Results) : (s.complete k req kind code res).portValid = s.portValid := rfl
@[simp] theorem State.complete_port (s : State) (k req : Nat) (kind : ResultKind) (code : Word32) (res : Results) : (s.complete k req kind code res).port = s.port := rfl
@[simp] theorem State.complete_resp (s : State) (k req : Nat) (kind : ResultKind) (code : Word32) (res : Results) : (s.complete k req kind code res).resp = mkResponse kind code res := rfl
@[simp] theorem State.complete_respTo (s : State) (k req : Nat) (kind : ResultKind) (code : Word32) (res : Results) : (s.complete k req kind code res).respTo = req := rfl
@[simp] theorem State.complete_ctlTiming (s : State) (k req : Nat) (kind : ResultKind) (code : Word32) (res : Results) : (s.complete k req kind code res).ctlTiming = s.ctlTiming := rfl
@[simp] theorem State.complete_ctlWritten (s : State) (k req : Nat) (kind : ResultKind) (code : Word32) (res : Results) : (s.complete k req kind code res).ctlWritten = s.ctlWritten := rfl
@[simp] theorem State.complete_nv (s : State) (k req : Nat) (kind : ResultKind) (code : Word32) (res : Results) : (s.complete k req kind code res).nv = s.nv := rfl
@[simp] theorem State.complete_history (s : State) (k req : Nat) (kind : ResultKind) (code : Word32) (res : Results) : (s.complete k req kind code res).history = s.history ++ [.complete req (mkResponse kind code res)] := rfl
@[simp] theorem State.complete_env (s : State) (k req : Nat) (kind : ResultKind) (code : Word32) (res : Results) : (s.complete k req kind code res).env = s.env := rfl

/-! ### writeTiming -/

@[simp] theorem State.writeTiming_params (s : State) (h : Handle) (ph : Phase) (v : Word) : (s.writeTiming h ph v).params = s.params := rfl
@[simp] theorem State.writeTiming_sessions (s : State) (h : Handle) (ph : Phase) (v : Word) : (s.writeTiming h ph v).sessions = s.sessions := rfl
@[simp] theorem State.writeTiming_dlock (s : State) (h : Handle) (ph : Phase) (v : Word) : (s.writeTiming h ph v).dlock = s.dlock := rfl
@[simp] theorem State.writeTiming_held (s : State) (h : Handle) (ph : Phase) (v : Word) : (s.writeTiming h ph v).held = s.held := rfl
@[simp] theorem State.writeTiming_lookups (s : State) (h : Handle) (ph : Phase) (v : Word) : (s.writeTiming h ph v).lookups = s.lookups := rfl
@[simp] theorem State.writeTiming_portValid (s : State) (h : Handle) (ph : Phase) (v : Word) : (s.writeTiming h ph v).portValid = s.portValid := rfl
@[simp] theorem State.writeTiming_port (s : State) (h : Handle) (ph : Phase) (v : Word) : (s.writeTiming h ph v).port = s.port := rfl
@[simp] theorem State.writeTiming_resp (s : State) (h : Handle) (ph : Phase) (v : Word) : (s.writeTiming h ph v).resp = s.resp := rfl
@[simp] theorem State.writeTiming_respTo (s : State) (h : Handle) (ph : Phase) (v : Word) : (s.writeTiming h ph v).respTo = s.respTo := rfl
@[simp] theorem State.writeTiming_ctlTiming (s : State) (h : Handle) (ph : Phase) (v : Word) : (s.writeTiming h ph v).ctlTiming = s.ctlTiming.write (timingKey h ph) v := rfl
@[simp] theorem State.writeTiming_ctlWritten (s : State) (h : Handle) (ph : Phase) (v : Word) : (s.writeTiming h ph v).ctlWritten = s.ctlWritten.write (timingKey h ph) v := rfl
@[simp] theorem State.writeTiming_nv (s : State) (h : Handle) (ph : Phase) (v : Word) : (s.writeTiming h ph v).nv = s.nv := rfl
@[simp] theorem State.writeTiming_history (s : State) (h : Handle) (ph : Phase) (v : Word) : (s.writeTiming h ph v).history = s.history := rfl
@[simp] theorem State.writeTiming_env (s : State) (h : Handle) (ph : Phase) (v : Word) : (s.writeTiming h ph v).env = s.env := rfl

/-! ### forgetTiming -/

@[simp] theorem State.forgetTiming_params (s : State) (h : Handle) : (s.forgetTiming h).params = s.params := rfl
@[simp] theorem State.forgetTiming_sessions (s : State) (h : Handle) : (s.forgetTiming h).sessions = s.sessions := rfl
@[simp] theorem State.forgetTiming_dlock (s : State) (h : Handle) : (s.forgetTiming h).dlock = s.dlock := rfl
@[simp] theorem State.forgetTiming_held (s : State) (h : Handle) : (s.forgetTiming h).held = s.held := rfl
@[simp] theorem State.forgetTiming_lookups (s : State) (h : Handle) : (s.forgetTiming h).lookups = s.lookups := rfl
@[simp] theorem State.forgetTiming_portValid (s : State) (h : Handle) : (s.forgetTiming h).portValid = s.portValid := rfl
@[simp] theorem State.forgetTiming_port (s : State) (h : Handle) : (s.forgetTiming h).port = s.port := rfl
@[simp] theorem State.forgetTiming_resp (s : State) (h : Handle) : (s.forgetTiming h).resp = s.resp := rfl
@[simp] theorem State.forgetTiming_respTo (s : State) (h : Handle) : (s.forgetTiming h).respTo = s.respTo := rfl
@[simp] theorem State.forgetTiming_ctlTiming (s : State) (h : Handle) : (s.forgetTiming h).ctlTiming = (s.ctlTiming.erase (timingKey h .arb)).erase (timingKey h .fd) := rfl
@[simp] theorem State.forgetTiming_ctlWritten (s : State) (h : Handle) : (s.forgetTiming h).ctlWritten = s.ctlWritten := rfl
@[simp] theorem State.forgetTiming_nv (s : State) (h : Handle) : (s.forgetTiming h).nv = s.nv := rfl
@[simp] theorem State.forgetTiming_history (s : State) (h : Handle) : (s.forgetTiming h).history = s.history := rfl
@[simp] theorem State.forgetTiming_env (s : State) (h : Handle) : (s.forgetTiming h).env = s.env := rfl

/-! ### writeNv -/

@[simp] theorem State.writeNv_params (s : State) (n : Name) (ph : Phase) (v : Word) : (s.writeNv n ph v).params = s.params := rfl
@[simp] theorem State.writeNv_sessions (s : State) (n : Name) (ph : Phase) (v : Word) : (s.writeNv n ph v).sessions = s.sessions := rfl
@[simp] theorem State.writeNv_dlock (s : State) (n : Name) (ph : Phase) (v : Word) : (s.writeNv n ph v).dlock = s.dlock := rfl
@[simp] theorem State.writeNv_held (s : State) (n : Name) (ph : Phase) (v : Word) : (s.writeNv n ph v).held = s.held := rfl
@[simp] theorem State.writeNv_lookups (s : State) (n : Name) (ph : Phase) (v : Word) : (s.writeNv n ph v).lookups = s.lookups := rfl
@[simp] theorem State.writeNv_portValid (s : State) (n : Name) (ph : Phase) (v : Word) : (s.writeNv n ph v).portValid = s.portValid := rfl
@[simp] theorem State.writeNv_port (s : State) (n : Name) (ph : Phase) (v : Word) : (s.writeNv n ph v).port = s.port := rfl
@[simp] theorem State.writeNv_resp (s : State) (n : Name) (ph : Phase) (v : Word) : (s.writeNv n ph v).resp = s.resp := rfl
@[simp] theorem State.writeNv_respTo (s : State) (n : Name) (ph : Phase) (v : Word) : (s.writeNv n ph v).respTo = s.respTo := rfl
@[simp] theorem State.writeNv_ctlTiming (s : State) (n : Name) (ph : Phase) (v : Word) : (s.writeNv n ph v).ctlTiming = s.ctlTiming := rfl
@[simp] theorem State.writeNv_ctlWritten (s : State) (n : Name) (ph : Phase) (v : Word) : (s.writeNv n ph v).ctlWritten = s.ctlWritten := rfl
@[simp] theorem State.writeNv_nv (s : State) (n : Name) (ph : Phase) (v : Word) : (s.writeNv n ph v).nv = s.nv.write (nvKey n ph) v := rfl
@[simp] theorem State.writeNv_history (s : State) (n : Name) (ph : Phase) (v : Word) : (s.writeNv n ph v).history = s.history := rfl
@[simp] theorem State.writeNv_env (s : State) (n : Name) (ph : Phase) (v : Word) : (s.writeNv n ph v).env = s.env := rfl

/-! ### taken -/

@[simp] theorem State.taken_params (s : State) : (s.taken).params = s.params := rfl
@[simp] theorem State.taken_sessions (s : State) : (s.taken).sessions = s.sessions := rfl
@[simp] theorem State.taken_dlock (s : State) : (s.taken).dlock = s.dlock := rfl
@[simp] theorem State.taken_held (s : State) : (s.taken).held = s.held := rfl
@[simp] theorem State.taken_lookups (s : State) : (s.taken).lookups = s.lookups := rfl
@[simp] theorem State.taken_portValid (s : State) : (s.taken).portValid = false := rfl
@[simp] theorem State.taken_port (s : State) : (s.taken).port = s.port := rfl
@[simp] theorem State.taken_resp (s : State) : (s.taken).resp = s.resp := rfl
@[simp] theorem State.taken_respTo (s : State) : (s.taken).respTo = s.respTo := rfl
@[simp] theorem State.taken_ctlTiming (s : State) : (s.taken).ctlTiming = s.ctlTiming := rfl
@[simp] theorem State.taken_ctlWritten (s : State) : (s.taken).ctlWritten = s.ctlWritten := rfl
@[simp] theorem State.taken_nv (s : State) : (s.taken).nv = s.nv := rfl
@[simp] theorem State.taken_history (s : State) : (s.taken).history = s.history := rfl
@[simp] theorem State.taken_env (s : State) : (s.taken).env = s.env := rfl

/-! ### present -/

@[simp] theorem State.present_params (s : State) (c : Cmd) : (s.present c).params = s.params := rfl
@[simp] theorem State.present_sessions (s : State) (c : Cmd) : (s.present c).sessions = s.sessions := rfl
@[simp] theorem State.present_dlock (s : State) (c : Cmd) : (s.present c).dlock = s.dlock := rfl
@[simp] theorem State.present_held (s : State) (c : Cmd) : (s.present c).held = s.held := rfl
@[simp] theorem State.present_lookups (s : State) (c : Cmd) : (s.present c).lookups = s.lookups := rfl
@[simp] theorem State.present_portValid (s : State) (c : Cmd) : (s.present c).portValid = true := rfl
@[simp] theorem State.present_port (s : State) (c : Cmd) : (s.present c).port = c := rfl
@[simp] theorem State.present_resp (s : State) (c : Cmd) : (s.present c).resp = s.resp := rfl
@[simp] theorem State.present_respTo (s : State) (c : Cmd) : (s.present c).respTo = s.respTo := rfl
@[simp] theorem State.present_ctlTiming (s : State) (c : Cmd) : (s.present c).ctlTiming = s.ctlTiming := rfl
@[simp] theorem State.present_ctlWritten (s : State) (c : Cmd) : (s.present c).ctlWritten = s.ctlWritten := rfl
@[simp] theorem State.present_nv (s : State) (c : Cmd) : (s.present c).nv = s.nv := rfl
@[simp] theorem State.present_history (s : State) (c : Cmd) : (s.present c).history = s.history := rfl
@[simp] theorem State.present_env (s : State) (c : Cmd) : (s.present c).env = s.env := rfl

/-! ### The ways an operation ends are one operation -/

@[simp] theorem State.raise_eq (s : State) (k req : Nat) (kind : ResultKind) (code : Word32) (res : Results) :
    s.raise k req kind code res = s.complete k req kind code res := rfl

@[simp] theorem State.finishOk_eq (s : State) (k req : Nat) (res : Results) :
    s.finishOk k req res = s.complete k req .ok 0#32 res := rfl

@[simp] theorem State.raiseDiscover_eq (s : State) (k req : Nat) (kind : ResultKind) :
    s.raiseDiscover k req kind = State.complete { s with dlock := false } k req kind 0#32 {} := rfl

@[simp] theorem State.stage_eq (s : State) (k : Nat) (ph : Phase) (v : Word) :
    s.stage k ph v = s.updSession k (Session.staged ph v) := rfl

@[simp] theorem State.answerAtOnce_eq (s : State) (i : Instr) (kind : ResultKind) (res : Results) :
    s.answerAtOnce i kind res = (s.record (.issue s.port i)).deliver s.port.req (mkResponse kind 0#32 res) := rfl

/-! ### The session record -/

@[simp] theorem Session.locked_state (r : Session) (f : InFlight) : (Session.locked f r).state = r.state := rfl
@[simp] theorem Session.locked_name (r : Session) (f : InFlight) : (Session.locked f r).name = r.name := rfl
@[simp] theorem Session.locked_handle (r : Session) (f : InFlight) : (Session.locked f r).handle = r.handle := rfl
@[simp] theorem Session.locked_openType (r : Session) (f : InFlight) : (Session.locked f r).openType = r.openType := rfl
@[simp] theorem Session.locked_openMode (r : Session) (f : InFlight) : (Session.locked f r).openMode = r.openMode := rfl
@[simp] theorem Session.locked_arbStaged (r : Session) (f : InFlight) : (Session.locked f r).arbStaged = r.arbStaged := rfl
@[simp] theorem Session.locked_fdStaged (r : Session) (f : InFlight) : (Session.locked f r).fdStaged = r.fdStaged := rfl
@[simp] theorem Session.locked_lastError (r : Session) (f : InFlight) : (Session.locked f r).lastError = r.lastError := rfl
@[simp] theorem Session.locked_busy (r : Session) (f : InFlight) : (Session.locked f r).busy = true := rfl
@[simp] theorem Session.locked_inflight (r : Session) (f : InFlight) : (Session.locked f r).inflight = some f := rfl

@[simp] theorem Session.calling_state (r : Session) (f : InFlight) (c : CtlCall) : (Session.calling f c r).state = r.state := rfl
@[simp] theorem Session.calling_name (r : Session) (f : InFlight) (c : CtlCall) : (Session.calling f c r).name = r.name := rfl
@[simp] theorem Session.calling_handle (r : Session) (f : InFlight) (c : CtlCall) : (Session.calling f c r).handle = r.handle := rfl
@[simp] theorem Session.calling_openType (r : Session) (f : InFlight) (c : CtlCall) : (Session.calling f c r).openType = r.openType := rfl
@[simp] theorem Session.calling_openMode (r : Session) (f : InFlight) (c : CtlCall) : (Session.calling f c r).openMode = r.openMode := rfl
@[simp] theorem Session.calling_arbStaged (r : Session) (f : InFlight) (c : CtlCall) : (Session.calling f c r).arbStaged = r.arbStaged := rfl
@[simp] theorem Session.calling_fdStaged (r : Session) (f : InFlight) (c : CtlCall) : (Session.calling f c r).fdStaged = r.fdStaged := rfl
@[simp] theorem Session.calling_lastError (r : Session) (f : InFlight) (c : CtlCall) : (Session.calling f c r).lastError = r.lastError := rfl
@[simp] theorem Session.calling_busy (r : Session) (f : InFlight) (c : CtlCall) : (Session.calling f c r).busy = r.busy := rfl
@[simp] theorem Session.calling_inflight (r : Session) (f : InFlight) (c : CtlCall) : (Session.calling f c r).inflight = some { f with call := some c } := rfl

@[simp] theorem Session.completed_state (r : Session) (kind : ResultKind) (code : Word32) : (Session.completed kind code r).state = r.state := rfl
@[simp] theorem Session.completed_name (r : Session) (kind : ResultKind) (code : Word32) : (Session.completed kind code r).name = r.name := rfl
@[simp] theorem Session.completed_handle (r : Session) (kind : ResultKind) (code : Word32) : (Session.completed kind code r).handle = r.handle := rfl
@[simp] theorem Session.completed_openType (r : Session) (kind : ResultKind) (code : Word32) : (Session.completed kind code r).openType = r.openType := rfl
@[simp] theorem Session.completed_openMode (r : Session) (kind : ResultKind) (code : Word32) : (Session.completed kind code r).openMode = r.openMode := rfl
@[simp] theorem Session.completed_arbStaged (r : Session) (kind : ResultKind) (code : Word32) : (Session.completed kind code r).arbStaged = r.arbStaged := rfl
@[simp] theorem Session.completed_fdStaged (r : Session) (kind : ResultKind) (code : Word32) : (Session.completed kind code r).fdStaged = r.fdStaged := rfl
@[simp] theorem Session.completed_lastError (r : Session) (kind : ResultKind) (code : Word32) : (Session.completed kind code r).lastError = lastErrorAfter r.lastError kind code := rfl
@[simp] theorem Session.completed_busy (r : Session) (kind : ResultKind) (code : Word32) : (Session.completed kind code r).busy = false := rfl
@[simp] theorem Session.completed_inflight (r : Session) (kind : ResultKind) (code : Word32) : (Session.completed kind code r).inflight = none := rfl

@[simp] theorem Session.discoveredAs_state (r : Session) (n : Name) (h : Handle) : (Session.discoveredAs n h r).state = .discovered := rfl
@[simp] theorem Session.discoveredAs_name (r : Session) (n : Name) (h : Handle) : (Session.discoveredAs n h r).name = some n := rfl
@[simp] theorem Session.discoveredAs_handle (r : Session) (n : Name) (h : Handle) : (Session.discoveredAs n h r).handle = some h := rfl
@[simp] theorem Session.discoveredAs_openType (r : Session) (n : Name) (h : Handle) : (Session.discoveredAs n h r).openType = r.openType := rfl
@[simp] theorem Session.discoveredAs_openMode (r : Session) (n : Name) (h : Handle) : (Session.discoveredAs n h r).openMode = r.openMode := rfl
@[simp] theorem Session.discoveredAs_arbStaged (r : Session) (n : Name) (h : Handle) : (Session.discoveredAs n h r).arbStaged = r.arbStaged := rfl
@[simp] theorem Session.discoveredAs_fdStaged (r : Session) (n : Name) (h : Handle) : (Session.discoveredAs n h r).fdStaged = r.fdStaged := rfl
@[simp] theorem Session.discoveredAs_lastError (r : Session) (n : Name) (h : Handle) : (Session.discoveredAs n h r).lastError = r.lastError := rfl
@[simp] theorem Session.discoveredAs_busy (r : Session) (n : Name) (h : Handle) : (Session.discoveredAs n h r).busy = r.busy := rfl
@[simp] theorem Session.discoveredAs_inflight (r : Session) (n : Name) (h : Handle) : (Session.discoveredAs n h r).inflight = r.inflight := rfl

@[simp] theorem Session.closedNow_state (r : Session) : (Session.closedNow r).state = .closed := rfl
@[simp] theorem Session.closedNow_name (r : Session) : (Session.closedNow r).name = r.name := rfl
@[simp] theorem Session.closedNow_handle (r : Session) : (Session.closedNow r).handle = r.handle := rfl
@[simp] theorem Session.closedNow_openType (r : Session) : (Session.closedNow r).openType = r.openType := rfl
@[simp] theorem Session.closedNow_openMode (r : Session) : (Session.closedNow r).openMode = r.openMode := rfl
@[simp] theorem Session.closedNow_arbStaged (r : Session) : (Session.closedNow r).arbStaged = r.arbStaged := rfl
@[simp] theorem Session.closedNow_fdStaged (r : Session) : (Session.closedNow r).fdStaged = r.fdStaged := rfl
@[simp] theorem Session.closedNow_lastError (r : Session) : (Session.closedNow r).lastError = r.lastError := rfl
@[simp] theorem Session.closedNow_busy (r : Session) : (Session.closedNow r).busy = r.busy := rfl
@[simp] theorem Session.closedNow_inflight (r : Session) : (Session.closedNow r).inflight = r.inflight := rfl

@[simp] theorem Session.openedAs_state (r : Session) (t : OpenType) (m : OpenMode) : (Session.openedAs t m r).state = .opened := rfl
@[simp] theorem Session.openedAs_name (r : Session) (t : OpenType) (m : OpenMode) : (Session.openedAs t m r).name = r.name := rfl
@[simp] theorem Session.openedAs_handle (r : Session) (t : OpenType) (m : OpenMode) : (Session.openedAs t m r).handle = r.handle := rfl
@[simp] theorem Session.openedAs_openType (r : Session) (t : OpenType) (m : OpenMode) : (Session.openedAs t m r).openType = some t := rfl
@[simp] theorem Session.openedAs_openMode (r : Session) (t : OpenType) (m : OpenMode) : (Session.openedAs t m r).openMode = some m := rfl
@[simp] theorem Session.openedAs_arbStaged (r : Session) (t : OpenType) (m : OpenMode) : (Session.openedAs t m r).arbStaged = r.arbStaged := rfl
@[simp] theorem Session.openedAs_fdStaged (r : Session) (t : OpenType) (m : OpenMode) : (Session.openedAs t m r).fdStaged = r.fdStaged := rfl
@[simp] theorem Session.openedAs_lastError (r : Session) (t : OpenType) (m : OpenMode) : (Session.openedAs t m r).lastError = r.lastError := rfl
@[simp] theorem Session.openedAs_busy (r : Session) (t : OpenType) (m : OpenMode) : (Session.openedAs t m r).busy = r.busy := rfl
@[simp] theorem Session.openedAs_inflight (r : Session) (t : OpenType) (m : OpenMode) : (Session.openedAs t m r).inflight = r.inflight := rfl

@[simp] theorem Session.staged_state (r : Session) (ph : Phase) (v : Word) : (Session.staged ph v r).state = r.state := by cases ph <;> rfl
@[simp] theorem Session.staged_name (r : Session) (ph : Phase) (v : Word) : (Session.staged ph v r).name = r.name := by cases ph <;> rfl
@[simp] theorem Session.staged_handle (r : Session) (ph : Phase) (v : Word) : (Session.staged ph v r).handle = r.handle := by cases ph <;> rfl
@[simp] theorem Session.staged_openType (r : Session) (ph : Phase) (v : Word) : (Session.staged ph v r).openType = r.openType := by cases ph <;> rfl
@[simp] theorem Session.staged_openMode (r : Session) (ph : Phase) (v : Word) : (Session.staged ph v r).openMode = r.openMode := by cases ph <;> rfl
@[simp] theorem Session.staged_lastError (r : Session) (ph : Phase) (v : Word) : (Session.staged ph v r).lastError = r.lastError := by cases ph <;> rfl
@[simp] theorem Session.staged_busy (r : Session) (ph : Phase) (v : Word) : (Session.staged ph v r).busy = r.busy := by cases ph <;> rfl
@[simp] theorem Session.staged_inflight (r : Session) (ph : Phase) (v : Word) : (Session.staged ph v r).inflight = r.inflight := by cases ph <;> rfl

/-- A staged word is the one read back; the other phase keeps its own (R175). -/
@[simp] theorem Session.stagedWord_staged (r : Session) (ph q : Phase) (v : Word) :
    (Session.staged ph v r).stagedWord q = if ph = q then some v else r.stagedWord q := by
  cases ph <;> cases q <;> rfl

end Sys2Proof.Machine
end

