-- ==== Sys2Proof/Laws/Ops.lean ====
section
/-! SUPPORT. One lemma per shared operation, saying once what it can do; later proofs cite these and do not unfold it. -/

namespace Sys2Proof.Machine

/-! ### Session records -/

theorem getElem?_updSession (s : State) (k j : Nat) (f : Session → Session) :
    (s.updSession k f).sessions[j]? = if k = j then s.sessions[j]?.map f else s.sessions[j]? := by
  simp [List.getElem?_modify]
  split <;> simp_all

theorem updSession_self (s : State) (k : Nat) (f : Session → Session) (r : Session) (h : s.sessions[k]? = some r) :
    (s.updSession k f).sessions[k]? = some (f r) := by
  simp [h]

theorem updSession_other (s : State) (k j : Nat) (f : Session → Session) (h : j ≠ k) :
    (s.updSession k f).sessions[j]? = s.sessions[j]? := by
  simp only [getElem?_updSession, if_neg (Ne.symm h)]

theorem length_updSession (s : State) (k : Nat) (f : Session → Session) :
    (s.updSession k f).sessions.length = s.sessions.length := by simp

theorem modify_modify (l : List Session) (k : Nat) (f g : Session → Session) :
    (l.modify k f).modify k g = l.modify k (g ∘ f) := by
  apply List.ext_getElem?
  intro j
  simp only [List.getElem?_modify]
  cases l[j]? <;> by_cases h : k = j <;> simp [h]

theorem modify_eq_set {l : List Session} {k : Nat} {r : Session} (h : l[k]? = some r) (f : Session → Session) :
    l.modify k f = l.set k (f r) := by
  apply List.ext_getElem?
  intro j
  simp only [List.getElem?_modify, List.getElem?_set]
  by_cases hj : k = j
  · subst hj
    obtain ⟨hlt, he⟩ := List.getElem?_eq_some_iff.mp h
    simp [hlt, he]
  · simp [hj]

theorem modify_set (l : List Session) (k : Nat) (r : Session) (f : Session → Session) :
    (l.set k r).modify k f = l.set k (f r) := by
  apply List.ext_getElem?
  intro j
  simp only [List.getElem?_modify, List.getElem?_set]
  by_cases hj : k = j
  · subst hj
    by_cases hlt : k < l.length <;> simp [hlt]
  · simp [hj]

theorem inflight?_eq {s : State} {k : Nat} {r : Session} (h : s.sessions[k]? = some r) : s.inflight? k = r.inflight := by
  simp [State.inflight?, h]

theorem inflight?_some {s : State} {k : Nat} {f : InFlight} (h : s.inflight? k = some f) :
    ∃ r, s.sessions[k]? = some r ∧ r.inflight = some f := by
  unfold State.inflight? at h
  split at h
  · rename_i r hr
    exact ⟨r, hr, h⟩
  · simp at h

/-- `Bound` reads states and names only (R29): a change of one record that keeps both keeps it. -/
theorem bound_modify {s t : State} {k : Nat} {f : Session → Session} (ht : t.sessions = s.sessions.modify k f)
    (hf : ∀ r, (f r).live = r.live ∧ (f r).name = r.name) (n : Name) : t.bound n = s.bound n := by
  have e : ∀ u : State, u.bound n =
      (u.sessions.map (fun r => (r.live, r.name))).any (fun p => p.1 && p.2 == some n) := by
    intro u
    simp [State.bound, List.any_map, Function.comp_def]
  rw [e, e, ht]
  congr 1
  apply List.ext_getElem?
  intro j
  simp only [List.getElem?_map, List.getElem?_modify]
  by_cases hj : k = j
  · cases s.sessions[j]? <;> simp [hj, hf]
  · simp [hj]

/-! ### Admission -/

/-- Everything `sessionOp` can do (R63, R100 (b), R150, R233). -/
theorem sessionOp_cases (sess : BitVec 8) (i : Instr) (s : State) (body : Nat → InFlight → Session → State → Result) :
    (s.sessions[sess.toNat]? = none ∧ sessionOp sess i s body = .refused .sessionOutOfRange) ∨
    ∃ r, s.sessions[sess.toNat]? = some r ∧
      ((r.busy = true ∧ sessionOp sess i s body = .next (s.hold i)) ∨
       (r.busy = false ∧ acceptedIn i r.state = false ∧
          sessionOp sess i s body =
            .next ((s.lock sess.toNat i).complete sess.toNat s.port.req .invalidChannelState 0#32 {})) ∨
       (r.busy = false ∧ acceptedIn i r.state = true ∧
          sessionOp sess i s body = body sess.toNat (startFlight i s.port) r (s.lock sess.toNat i))) := by
  unfold sessionOp
  cases h : s.sessions[sess.toNat]? with
  | none => exact .inl ⟨rfl, rfl⟩
  | some r =>
    refine .inr ⟨r, rfl, ?_⟩
    cases hb : r.busy <;> cases ha : acceptedIn i r.state <;> simp [hb, ha]

/-- A session operation on a free session in a state that accepts it runs its body (R63, R150). -/
theorem sessionOp_runs {sess : BitVec 8} {i : Instr} {s : State} {body : Nat → InFlight → Session → State → Result}
    {r : Session} (hr : s.sessions[sess.toNat]? = some r) (hb : r.busy = false) (ha : acceptedIn i r.state = true) :
    sessionOp sess i s body = body sess.toNat (startFlight i s.port) r (s.lock sess.toNat i) := by
  simp [sessionOp, hr, hb, ha]

/-- A session operation on a taken session is held (R63). -/
theorem sessionOp_holds {sess : BitVec 8} {i : Instr} {s : State} {body : Nat → InFlight → Session → State → Result}
    {r : Session} (hr : s.sessions[sess.toNat]? = some r) (hb : r.busy = true) :
    sessionOp sess i s body = .next (s.hold i) := by
  simp [sessionOp, hr, hb]

/-- A session operation on a free session in a state that does not accept it (R150, R233). -/
theorem sessionOp_rejects {sess : BitVec 8} {i : Instr} {s : State} {body : Nat → InFlight → Session → State → Result}
    {r : Session} (hr : s.sessions[sess.toNat]? = some r) (hb : r.busy = false) (ha : acceptedIn i r.state = false) :
    sessionOp sess i s body =
      .next ((s.lock sess.toNat i).complete sess.toNat s.port.req .invalidChannelState 0#32 {}) := by
  simp [sessionOp, hr, hb, ha]

/-- The frame list of a frame operation passes exactly when it is long enough and no frame it reads has a reserved length
(R100 (e), (f)). -/
theorem framesRefused_none (n : Nat) (l : List Frame) :
    framesRefused n l = none ↔ n ≤ l.length ∧ ∀ f ∈ l.take n, f.len.toNat ≤ 64 := by
  have e : (l.take n).all Frame.lenOk = true ↔ ∀ f ∈ l.take n, f.len.toNat ≤ 64 := by
    rw [List.all_eq_true]
    refine forall_congr' fun f => forall_congr' fun _ => ?_
    unfold Frame.lenOk
    rw [decide_eq_true_eq]
    exact Iff.rfl
  rw [← e]
  unfold framesRefused
  by_cases h1 : l.length < n
  · simp [h1]
  · by_cases h2 : (l.take n).all Frame.lenOk = true
    · simp only [h1, h2, if_true, if_false]
      simp
      omega
    · simp only [h1, h2, if_false]
      simp

/-! ### Answers -/

/-- What it takes for an answer to be one (R52): an outstanding call of its type. -/
theorem answered_some {k : Nat} {a : CtlAnswer} {s s' : State} (h : answered k a s = some s') :
    ∃ f c, s.inflight? k = some f ∧ f.call = some c ∧ c.admits a = true ∧
      resumeAny k f a (s.record (.ctlRet (.session k) a)) = some s' := by
  unfold answered at h
  split at h
  · simp at h
  · rename_i f hf
    split at h
    · simp at h
    · rename_i c hc
      split at h
      · rename_i hadm
        exact ⟨f, c, hf, hc, hadm, h⟩
      · simp at h

theorem answered_eq {k : Nat} {a : CtlAnswer} {s : State} {f : InFlight} {c : CtlCall} (hf : s.inflight? k = some f)
    (hc : f.call = some c) (ha : c.admits a = true) :
    answered k a s = resumeAny k f a (s.record (.ctlRet (.session k) a)) := by
  simp [answered, hf, hc, ha]

/-- `drain` keeps whatever every answer keeps. -/
theorem drain_keeps {P : State → Prop} (k : Nat)
    (hstep : ∀ rest a s s', P s → answered k a { s with env := rest } = some s' → P s') :
    ∀ (l : List EnvEvent) (s : State), P s → P (drain k l s) := by
  intro l
  induction l with
  | nil => intro s hs; exact hs
  | cons e rest ih =>
    intro s hs
    unfold drain
    split
    · split
      · split
        · rename_i s' h
          exact ih s' (hstep rest _ s s' hs h)
        · exact hs
      · exact hs
    · exact hs

theorem settle_keeps {P : State → Prop} (k : Nat)
    (hstep : ∀ rest a s s', P s → answered k a { s with env := rest } = some s' → P s') (s : State) (hs : P s) :
    P (settle k s) := drain_keeps k hstep s.env s hs

/-- The next event is the answer: the operation goes on (R52). -/
theorem drain_answer {k : Nat} {a : CtlAnswer} {rest : List EnvEvent} {s s' : State}
    (h : answered k a { s with env := rest } = some s') : drain k (.answer k a :: rest) s = drain k rest s' := by
  simp [drain, h]

/-- A session with nothing outstanding takes no event. -/
theorem drain_idle {k : Nat} {s : State} (h : s.outstanding k = false) : ∀ l, drain k l s = s := by
  intro l
  cases l with
  | nil => rfl
  | cons e rest =>
    have ha : ∀ a, answered k a { s with env := rest } = none := by
      intro a
      cases hx : answered k a { s with env := rest } with
      | none => rfl
      | some s' =>
        obtain ⟨f, c, hf, hc, -⟩ := answered_some hx
        have hf' : s.inflight? k = some f := hf
        simp [State.outstanding, hf', hc] at h
    cases e <;> simp [drain, ha]

/-- After the end of an operation its session has nothing outstanding. -/
theorem outstanding_complete (s : State) (k req : Nat) (kind : ResultKind) (code : Word32) (res : Results) :
    (s.complete k req kind code res).outstanding k = false := by
  simp only [State.outstanding, State.inflight?, State.complete_sessions, List.getElem?_modify]
  cases s.sessions[k]? <;> simp

/-- An operation that is complete takes no further event. -/
theorem drain_complete (s : State) (k req : Nat) (kind : ResultKind) (code : Word32) (res : Results) (l : List EnvEvent) :
    drain k l (s.complete k req kind code res) = s.complete k req kind code res :=
  drain_idle (outstanding_complete s k req kind code res) l

/-- A call just issued, when the next event of the world outside is its answer: the operation goes on (R52). -/
theorem settle_call {s : State} {k : Nat} {f : InFlight} {c : CtlCall} {a : CtlAnswer} {rest : List EnvEvent}
    {r : Session} {s' : State} (hr : s.sessions[k]? = some r) (he : s.env = .answer k a :: rest) (ha : c.admits a = true)
    (h : resumeAny k { f with call := some c } a
      (({ s with env := rest }.call k f c).record (.ctlRet (.session k) a)) = some s') :
    settle k (s.call k f c) = drain k rest s' := by
  have hf : State.inflight? { s.call k f c with env := rest } k = some { f with call := some c } := by
    simp [State.inflight?, hr]
  simp only [settle, State.call_env, he]
  exact drain_answer ((answered_eq hf rfl ha).trans h)

/-! ### Calls in the history (R36 (I6)) -/

@[simp] theorem pendingAfter_nil (k : Nat) : pendingAfter k [] = some false := rfl

theorem pendingAfter_snoc (k : Nat) (h : List HistEvent) (e : HistEvent) :
    pendingAfter k (h ++ [e]) = pendingStep k (pendingAfter k h) e := by
  simp [pendingAfter]

end Sys2Proof.Machine
end

