-- ==== Sys2Proof/Laws/Codec.lean ====
section
/-! SUPPORT. The codec's checks as propositions (40_codec.md R122, R124, R126, R127), and the bits of the packed words
(30_encoding.md R80 to R91). -/

namespace Sys2Proof.Machine

/-! ### The checks -/

theorem anyZero_iff (p ts1 ts2 sjw : Nat) : anyZero p ts1 ts2 sjw = true ↔ p = 0 ∨ ts1 = 0 ∨ ts2 = 0 ∨ sjw = 0 := by
  simp [anyZero, or_assoc]

theorem arbOverflow_iff (tq ts1 ts2 sjw : Nat) :
    arbOverflow tq ts1 ts2 sjw = true ↔ 2 ^ 13 ≤ tq ∨ 2 ^ 8 ≤ ts1 - 1 ∨ 2 ^ 8 ≤ ts2 - 1 ∨ 2 ^ 8 ≤ sjw := by
  simp only [arbOverflow, Bool.or_eq_true, decide_eq_true_eq, or_assoc]
  exact Iff.rfl

theorem fdOverflow_iff (p : Params) (tq ts1 ts2 sjw off : Nat) :
    fdOverflow p tq ts1 ts2 sjw off = true ↔
      2 ^ 13 ≤ tq ∨ 2 ^ 5 ≤ ts1 - 1 ∨ 2 ^ 4 ≤ ts2 - 1 ∨ 2 ^ 4 ≤ sjw - 1 ∨ (0 < off ∧ 2 ^ p.tdcoBits ≤ off - 1) := by
  simp only [fdOverflow, Bool.or_eq_true, Bool.and_eq_true, decide_eq_true_eq, or_assoc]
  exact Iff.rfl

theorem encodeArb_none (p : Params) (pr ts1 ts2 sjw : Nat) :
    encodeArb p pr ts1 ts2 sjw = none ↔
      anyZero pr ts1 ts2 sjw = true ∨ arbOverflow (timeQuantum p pr) ts1 ts2 sjw = true := by
  unfold encodeArb
  cases anyZero pr ts1 ts2 sjw <;> cases arbOverflow (timeQuantum p pr) ts1 ts2 sjw <;> simp

theorem encodeArb_some {p : Params} {pr ts1 ts2 sjw : Nat} {v : Word} (h : encodeArb p pr ts1 ts2 sjw = some v) :
    timeQuantum p pr < 2 ^ 13 ∧ 1 ≤ ts1 ∧ ts1 ≤ 256 ∧ 1 ≤ ts2 ∧ ts2 ≤ 256 ∧ 1 ≤ sjw ∧ sjw ≤ 255 ∧
      v = packArb p (timeQuantum p pr) ts1 ts2 sjw := by
  unfold encodeArb at h
  split at h
  · simp at h
  · split at h
    · simp at h
    · rename_i h1 h2
      rw [anyZero_iff] at h1
      rw [arbOverflow_iff] at h2
      simp only [Option.some.injEq] at h
      refine ⟨?_, ?_, ?_, ?_, ?_, ?_, ?_, h.symm⟩ <;> omega

theorem encodeFd_none (p : Params) (pr ts1 ts2 sjw off : Nat) :
    encodeFd p pr ts1 ts2 sjw off = none ↔
      anyZero pr ts1 ts2 sjw = true ∨ fdOverflow p (timeQuantum p pr) ts1 ts2 sjw off = true := by
  unfold encodeFd
  cases anyZero pr ts1 ts2 sjw <;> cases fdOverflow p (timeQuantum p pr) ts1 ts2 sjw off <;> simp

theorem encodeFd_some {p : Params} {pr ts1 ts2 sjw off : Nat} {v : Word} (h : encodeFd p pr ts1 ts2 sjw off = some v) :
    timeQuantum p pr < 2 ^ 13 ∧ 1 ≤ ts1 ∧ ts1 ≤ 32 ∧ 1 ≤ ts2 ∧ ts2 ≤ 16 ∧ 1 ≤ sjw ∧ sjw ≤ 16 ∧ off ≤ 2 ^ p.tdcoBits ∧
      v = packFd p (timeQuantum p pr) ts1 ts2 sjw off := by
  unfold encodeFd at h
  split at h
  · simp at h
  · split at h
    · simp at h
    · rename_i h1 h2
      rw [anyZero_iff] at h1
      rw [fdOverflow_iff] at h2
      simp only [Option.some.injEq] at h
      have hp : 0 < 2 ^ p.tdcoBits := Nat.two_pow_pos _
      refine ⟨?_, ?_, ?_, ?_, ?_, ?_, ?_, ?_, h.symm⟩ <;> omega

theorem canonicalArb_iff (p : Params) (v : Word) :
    canonicalArb p v = true ↔ v &&& arbFixedMask = p.arbBase ∧ v.extractLsb' 16 8 ≠ 0#8 := by
  simp only [canonicalArb, Bool.and_eq_true, decide_eq_true_eq]

theorem canonicalFd_iff (p : Params) (v : Word) :
    canonicalFd p v = true ↔ v &&& fdMask p = p.fdBase ∧ (v.getLsbD 55 = true ∨ v.extractLsb' 40 15 = 0#15) := by
  simp only [canonicalFd, Bool.and_eq_true, Bool.or_eq_true, decide_eq_true_eq]

/-! ### The parameters -/

/-- What `paramsValid` says (R6). -/
theorem paramsValid_iff (p : Params) :
    paramsValid p = true ↔ 1 ≤ p.clockMHz ∧ p.clockMHz < 2 ^ 32 ∧ 1 ≤ p.tdcoBits ∧ p.tdcoBits ≤ 15 ∧ 1 ≤ p.nSessions ∧
      p.nSessions ≤ 256 ∧ p.arbBase &&& arbFieldMask = 0#64 ∧ p.fdBase &&& ~~~fdFixedMask = 0#64 := by
  simp only [paramsValid, Bool.and_eq_true, decide_eq_true_eq, and_assoc]

/-! ### The bits of the packed words -/

theorem testBit_high {x n i : Nat} (h : x < 2 ^ n) (hi : n ≤ i) : x.testBit i = false :=
  Nat.testBit_lt_two_pow (Nat.lt_of_lt_of_le h (Nat.pow_le_pow_right (by decide) hi))

theorem testBit_extractLsb' (v : Word) (a n j : Nat) :
    (v.extractLsb' a n).toNat.testBit j = (decide (j < n) && v.getLsbD (a + j)) := by
  rw [BitVec.testBit_toNat, BitVec.getLsbD_extractLsb']

/-- The bits of `PackArb` (R121). -/
theorem packArb_bit (p : Params) (tq ts1 ts2 sjw i : Nat) (hi : i < 64) :
    (packArb p tq ts1 ts2 sjw).getLsbD i =
      (p.arbBase.getLsbD i || (decide (32 ≤ i) && tq.testBit (i - 32)) || (decide (16 ≤ i) && sjw.testBit (i - 16)) ||
        (decide (8 ≤ i) && (ts1 - 1).testBit (i - 8)) || (ts2 - 1).testBit i) := by
  have e : ∀ x n : Nat, (BitVec.ofNat 64 x <<< n).getLsbD i = (decide (n ≤ i) && x.testBit (i - n)) := by
    intro x n
    rw [BitVec.getLsbD_shiftLeft, BitVec.getLsbD_ofNat]
    by_cases h : n ≤ i
    · simp [h, hi, show i - n < 64 by omega]
    · simp [h, show i < n by omega]
  simp only [packArb, BitVec.getLsbD_or, e, BitVec.getLsbD_ofNat, hi, decide_true, Bool.true_and]

/-- The bits of `PackFd` (R123). -/
theorem packFd_bit (p : Params) (tq ts1 ts2 sjw off i : Nat) (hi : i < 64) :
    (packFd p tq ts1 ts2 sjw off).getLsbD i =
      (p.fdBase.getLsbD i || (decide (55 ≤ i) && (tdcEnable off).testBit (i - 55)) ||
        (decide (40 ≤ i) && (off - 1).testBit (i - 40)) || (decide (13 ≤ i) && tq.testBit (i - 13)) ||
        (decide (8 ≤ i) && (ts1 - 1).testBit (i - 8)) || (decide (4 ≤ i) && (ts2 - 1).testBit (i - 4)) ||
        (sjw - 1).testBit i) := by
  have e : ∀ x n : Nat, (BitVec.ofNat 64 x <<< n).getLsbD i = (decide (n ≤ i) && x.testBit (i - n)) := by
    intro x n
    rw [BitVec.getLsbD_shiftLeft, BitVec.getLsbD_ofNat]
    by_cases h : n ≤ i
    · simp [h, hi, show i - n < 64 by omega]
    · simp [h, show i < n by omega]
  simp only [packFd, BitVec.getLsbD_or, e, BitVec.getLsbD_ofNat, hi, decide_true, Bool.true_and]

/-- The base of an arbitration word has no bit in a field (R101 (f)). -/
theorem arbBase_clear {p : Params} (h : paramsValid p = true) {i : Nat} (hi : i < 64)
    (hf : i < 24 ∨ 32 ≤ i ∧ i ≤ 44) : p.arbBase.getLsbD i = false := by
  have h0 := ((paramsValid_iff p).mp h).2.2.2.2.2.2.1
  have hb := congrArg (fun v => v.getLsbD i) h0
  have hm : arbFieldMask.getLsbD i = true := by
    have : arbFixedMask.getLsbD i = false := by
      rw [arbFixedMask_bit i hi]
      simp only [Bool.or_eq_false_iff, Bool.and_eq_false_iff, decide_eq_false_iff_not]
      omega
    simp only [arbFieldMask, BitVec.getLsbD_not, hi, this]
    rfl
  simpa [BitVec.getLsbD_and, hm] using hb

/-- The base of an FD word has no bit in a field (R101 (f), R87). -/
theorem fdBase_clear {p : Params} (h : paramsValid p = true) {i : Nat} (hi : i < 64)
    (hf : i < 26 ∨ 40 ≤ i ∧ i ≤ 55) : p.fdBase.getLsbD i = false := by
  have h0 := ((paramsValid_iff p).mp h).2.2.2.2.2.2.2
  have hb := congrArg (fun v => v.getLsbD i) h0
  have hm : (~~~fdFixedMask).getLsbD i = true := by
    have : fdFixedMask.getLsbD i = false := by
      rw [fdFixedMask_bit i hi]
      simp only [Bool.or_eq_false_iff, Bool.and_eq_false_iff, decide_eq_false_iff_not]
      omega
    simp only [BitVec.getLsbD_not, hi, this]
    rfl
  simpa [BitVec.getLsbD_and, hm] using hb

end Sys2Proof.Machine
end

