-- ==== Sys2Proof/Laws/Memory.lean ====
section
/-! SUPPORT. The laws of the word stores: every operation keeps the canonical form, a read after a write gives the word
written, and a write or an erasure leaves every other key alone. -/

namespace Sys2Proof.Machine

theorem Memory.read_of_lt {m : Memory} {a : Nat} (h : ∀ x ∈ m, a < x.1) : m.read a = none := by
  induction m with
  | nil => rfl
  | cons x m ih =>
    obtain ⟨k, v⟩ := x
    have hk : a < k := h (k, v) (by simp)
    simp only [Memory.read, if_neg (Nat.ne_of_gt hk)]
    exact ih (fun y hy => h y (by simp [hy]))

theorem Memory.mem_write {m : Memory} {a : Nat} {v : Word} {x : Nat × Word} (h : x ∈ m.write a v) :
    x = (a, v) ∨ x ∈ m := by
  induction m with
  | nil => simpa [Memory.write] using h
  | cons y m ih =>
    obtain ⟨k, w⟩ := y
    simp only [Memory.write] at h
    split at h
    · simpa using h
    · split at h
      · rcases List.mem_cons.mp h with h | h
        · exact .inl h
        · exact .inr (by simp [h])
      · rcases List.mem_cons.mp h with h | h
        · exact .inr (by simp [h])
        · rcases ih h with h | h
          · exact .inl h
          · exact .inr (by simp [h])

theorem Memory.write_wf {m : Memory} (h : m.wf) (a : Nat) (v : Word) : (m.write a v).wf := by
  induction m with
  | nil => simp [Memory.write]
  | cons y m ih =>
    obtain ⟨k, w⟩ := y
    have hk := List.pairwise_cons.mp h
    simp only [Memory.write]
    split
    · rename_i hlt
      refine List.pairwise_cons.mpr ⟨fun x hx => ?_, h⟩
      rcases List.mem_cons.mp hx with rfl | hx
      · exact hlt
      · exact Nat.lt_trans hlt (hk.1 x hx)
    · split
      · rename_i heq
        exact List.pairwise_cons.mpr ⟨fun x hx => heq ▸ hk.1 x hx, hk.2⟩
      · rename_i hlt hne
        refine List.pairwise_cons.mpr ⟨fun x hx => ?_, ih hk.2⟩
        rcases Memory.mem_write hx with rfl | hx
        · simp only; omega
        · exact hk.1 x hx

theorem Memory.mem_erase {m : Memory} {a : Nat} {x : Nat × Word} (h : x ∈ m.erase a) : x ∈ m := by
  induction m with
  | nil => simp [Memory.erase] at h
  | cons y m ih =>
    obtain ⟨k, w⟩ := y
    simp only [Memory.erase] at h
    split at h
    · simp [h]
    · rcases List.mem_cons.mp h with h | h
      · simp [h]
      · simp [ih h]

theorem Memory.erase_wf {m : Memory} (h : m.wf) (a : Nat) : (m.erase a).wf := by
  induction m with
  | nil => simp [Memory.erase]
  | cons y m ih =>
    obtain ⟨k, w⟩ := y
    have hk := List.pairwise_cons.mp h
    simp only [Memory.erase]
    split
    · exact hk.2
    · exact List.pairwise_cons.mpr ⟨fun x hx => hk.1 x (Memory.mem_erase hx), ih hk.2⟩

theorem Memory.reset_wf : State.reset.ctlTiming.wf ∧ State.reset.ctlWritten.wf ∧ State.reset.nv.wf := by
  decide

/-- A read after a write (R57, R33), on any list. -/
theorem Memory.read_write (m : Memory) (a b : Nat) (v : Word) :
    (m.write a v).read b = if a = b then some v else m.read b := by
  induction m with
  | nil => simp [Memory.write, Memory.read]
  | cons y m ih =>
    obtain ⟨k, w⟩ := y
    simp only [Memory.write]
    split
    · simp [Memory.read]
    · split
      · rename_i heq
        subst heq
        simp only [Memory.read]
        split <;> rfl
      · rename_i hne
        simp only [Memory.read, ih]
        split
        · rename_i hk
          rw [if_neg (by omega)]
        · rfl

/-- An erased key holds nothing and every other key keeps its word (R32), on a canonical store. -/
theorem Memory.read_erase {m : Memory} (h : m.wf) (a b : Nat) :
    (m.erase a).read b = if a = b then none else m.read b := by
  induction m with
  | nil => simp [Memory.erase, Memory.read]
  | cons y m ih =>
    obtain ⟨k, w⟩ := y
    have hk := List.pairwise_cons.mp h
    simp only [Memory.erase]
    split
    · rename_i heq
      subst heq
      split
      · rename_i heq
        subst heq
        exact Memory.read_of_lt (fun x hx => hk.1 x hx)
      · rename_i hne
        simp [Memory.read, hne]
    · rename_i hne
      simp only [Memory.read, ih hk.2]
      split
      · rename_i hkb
        rw [if_neg (by omega)]
      · rfl

theorem phaseNumber_lt (ph : Phase) : phaseNumber ph < 2 := by cases ph <;> decide

/-- Two timing registers with one key are one register (R50, R51). -/
theorem timingKey_inj {h h' : Handle} {ph ph' : Phase} (e : timingKey h ph = timingKey h' ph') : h = h' ∧ ph = ph' := by
  obtain ⟨x⟩ := h
  obtain ⟨y⟩ := h'
  have hx : x.toNat = y.toNat := by
    have := phaseNumber_lt ph; have := phaseNumber_lt ph'
    simp only [timingKey] at e; omega
  have hp : phaseNumber ph = phaseNumber ph' := by simp only [timingKey] at e; omega
  refine ⟨by rw [BitVec.eq_of_toNat_eq hx], ?_⟩
  cases ph <;> cases ph' <;> simp_all [phaseNumber]

/-- Two non-volatile words with one key are one word (R33, R50). -/
theorem nvKey_inj {n n' : Name} {ph ph' : Phase} (e : nvKey n ph = nvKey n' ph') : n = n' ∧ ph = ph' := by
  obtain ⟨x⟩ := n
  obtain ⟨y⟩ := n'
  have hx : x = y := by
    have := phaseNumber_lt ph; have := phaseNumber_lt ph'
    simp only [nvKey] at e; omega
  have hp : phaseNumber ph = phaseNumber ph' := by simp only [nvKey] at e; omega
  refine ⟨by rw [hx], ?_⟩
  cases ph <;> cases ph' <;> simp_all [phaseNumber]

end Sys2Proof.Machine
end

