-- ==== Sys2Proof/Laws/Inv.lean ====
section
/-! SUPPORT. How the invariant of Safety.lean goes through the shared operations: it reads few fields (`Inv.congr`), a change of
one session record keeps it under stated conditions (`Inv.update`), and so do the two ways a piece of an operation ends, a
response (`Inv.complete`) and a controller call (`Inv.call`). -/

namespace Sys2Proof.Machine

/-- A session record's command in flight has the discover lock. -/
def Session.pastDlock (r : Session) : Prop :=
  ∃ f sess, r.inflight = some f ∧ f.instr = .discover sess ∧ f.call ≠ none

/-- A session record has a call outstanding. -/
def Session.callOut (r : Session) : Bool :=
  match r.inflight with
  | some f => f.call.isSome
  | none => false

theorem holdsDlock_iff {s : State} {k : Nat} {r : Session} (h : s.sessions[k]? = some r) :
    s.holdsDlock k ↔ r.pastDlock := by
  simp [State.holdsDlock, Session.pastDlock, inflight?_eq h]

theorem outstanding_eq {s : State} {k : Nat} {r : Session} (h : s.sessions[k]? = some r) :
    s.outstanding k = r.callOut := by
  cases h' : r.inflight <;> simp [State.outstanding, Session.callOut, inflight?_eq h, h']

theorem inflight?_congr {s t : State} {j : Nat} (h : t.sessions[j]? = s.sessions[j]?) :
    t.inflight? j = s.inflight? j := by
  simp [State.inflight?, h]

theorem outstanding_congr {s t : State} {j : Nat} (h : t.sessions[j]? = s.sessions[j]?) :
    t.outstanding j = s.outstanding j := by
  simp [State.outstanding, inflight?_congr h]

theorem holdsDlock_congr {s t : State} {j : Nat} (h : t.sessions[j]? = s.sessions[j]?) :
    t.holdsDlock j ↔ s.holdsDlock j := by
  simp [State.holdsDlock, inflight?_congr h]

theorem bound_iff (s : State) (n : Name) :
    s.bound n = true ↔ ∃ (k : Nat) (r : Session), s.sessions[k]? = some r ∧ r.live = true ∧ r.name = some n := by
  simp only [State.bound, List.any_eq_true, Bool.and_eq_true, beq_iff_eq]
  constructor
  · rintro ⟨r, hr, h⟩
    obtain ⟨k, hk⟩ := List.mem_iff_getElem?.mp hr
    exact ⟨k, r, hk, h⟩
  · rintro ⟨k, r, hk, h⟩
    exact ⟨r, List.mem_iff_getElem?.mpr ⟨k, hk⟩, h⟩

/-- A pending bind is a DISCOVER's. -/
theorem SessionInv.bind_pastDlock {r : Session} (hi : SessionInv r) {f : InFlight} {n : Name}
    (hf : r.inflight = some f) (hc : f.call = some (.bind n)) : r.pastDlock ∧ n = f.cmd.nameIn := by
  have h := hi.flight_call f hf
  unfold callFits at h
  split at h <;> simp_all [Session.pastDlock]

/-- The invariant reads these fields only. -/
theorem Inv.congr {s t : State} (hi : Inv s) (h1 : t.params = s.params) (h2 : t.sessions = s.sessions)
    (h3 : t.dlock = s.dlock) (h4 : ∀ k, pendingAfter k t.history = pendingAfter k s.history)
    (h5 : t.ctlTiming.wf) (h6 : t.ctlWritten.wf) (h7 : t.nv.wf) :
    Inv t where
  arena := by rw [h1, h2]; exact hi.arena
  session := by rw [h2]; exact hi.session
  names := by rw [h2]; exact hi.names
  dlock_held := by
    rw [h3, hi.dlock_held]
    exact exists_congr fun k => (holdsDlock_congr (by rw [h2])).symm
  dlock_one := fun j k hj hk =>
    hi.dlock_one j k ((holdsDlock_congr (by rw [h2])).mp hj) ((holdsDlock_congr (by rw [h2])).mp hk)
  bind_free := fun k f n hf hc => by
    have := hi.bind_free k f n (by rw [← hf]; exact (inflight?_congr (by rw [h2])).symm) hc
    rw [← this]; simp [State.bound, h2]
  calls := fun k => by
    rw [h4, hi.calls, outstanding_congr (s := s) (t := t) (by rw [h2])]
  timing_wf := h5
  written_wf := h6
  nv_wf := h7

/-- One session record changes from `r` to `r1`: what is to be shown. -/
theorem Inv.update {s t : State} {k : Nat} {r r1 : Session} (hi : Inv s) (hr : s.sessions[k]? = some r)
    (hk : t.sessions[k]? = some r1) (ho : ∀ j, j ≠ k → t.sessions[j]? = s.sessions[j]?)
    (hl : t.sessions.length = s.sessions.length) (hp : t.params = s.params)
    (hinv : SessionInv r1)
    (hlive : (r1.live = true → r.live = true ∧ r1.name = r.name) ∨
      ∃ f n, r.inflight = some f ∧ f.call = some (.bind n) ∧ r1.name = some n ∧ r1.inflight = none)
    (hd : ((r1.pastDlock ↔ r.pastDlock) ∧ t.dlock = s.dlock) ∨
      (¬r.pastDlock ∧ r1.pastDlock ∧ s.dlock = false ∧ t.dlock = true) ∨
      (r.pastDlock ∧ ¬r1.pastDlock ∧ t.dlock = false))
    (hb : ∀ f n, r1.inflight = some f → f.call = some (.bind n) → s.bound n = false)
    (hc : ∀ j, pendingAfter j t.history = if j = k then some r1.callOut else pendingAfter j s.history)
    (h5 : t.ctlTiming.wf) (h6 : t.ctlWritten.wf) (h7 : t.nv.wf) :
    Inv t := by
  have hrk : s.holdsDlock k ↔ r.pastDlock := holdsDlock_iff hr
  have htk : t.holdsDlock k ↔ r1.pastDlock := holdsDlock_iff hk
  have hoth : ∀ j, j ≠ k → (t.holdsDlock j ↔ s.holdsDlock j) := fun j hj => holdsDlock_congr (ho j hj)
  have hse : ∀ (j : Nat) (q : Session), t.sessions[j]? = some q → j ≠ k → s.sessions[j]? = some q :=
    fun j q h hj => by rw [← ho j hj]; exact h
  have hbound : (r1.live = true → r.live = true ∧ r1.name = r.name) → ∀ n, s.bound n = false → t.bound n = false := by
    intro hlv n hn
    by_contra hc'
    obtain ⟨j, q, hj, hq, hqn⟩ := (bound_iff t n).mp (by simpa using hc')
    have : s.bound n = true := by
      by_cases hjk : j = k
      · subst hjk
        rw [hk] at hj
        cases hj
        exact (bound_iff s n).mpr ⟨j, r, hr, (hlv hq).1, by rw [← (hlv hq).2]; exact hqn⟩
      · exact (bound_iff s n).mpr ⟨j, q, hse j q hj hjk, hq, hqn⟩
    simp [hn] at this
  -- names of the changed record against another
  have hname : ∀ (j : Nat) (q : Session), j ≠ k → s.sessions[j]? = some q → q.live = true → r1.live = true →
      q.name ≠ r1.name := by
    intro j q hjk hj hq hr1 he
    rcases hlive with hlv | ⟨f, n, hf, hfc, hn, -⟩
    · exact hjk (hi.names j k q r hj hr hq (hlv hr1).1 (by rw [he, (hlv hr1).2]))
    · have h0 := hi.bind_free k f n (by rw [inflight?_eq hr]; exact hf) hfc
      have : s.bound n = true := (bound_iff s n).mpr ⟨j, q, hj, hq, by rw [he, hn]⟩
      simp [h0] at this
  constructor
  · rw [hl, hp]; exact hi.arena
  · intro j q hj
    by_cases hjk : j = k
    · subst hjk
      rw [hk] at hj
      cases hj
      exact hinv
    · exact hi.session j q (hse j q hj hjk)
  · intro j i q p hj hii hq hpp he
    by_cases hjk : j = k <;> by_cases hik : i = k
    · rw [hjk, hik]
    · subst hjk
      rw [hk] at hj
      cases hj
      exact absurd he.symm (hname i p hik (hse i p hii hik) hpp hq)
    · subst hik
      rw [hk] at hii
      cases hii
      exact absurd he (hname j q hjk (hse j q hj hjk) hq hpp)
    · exact hi.names j i q p (hse j q hj hjk) (hse i p hii hik) hq hpp he
  · rcases hd with ⟨h1, h2⟩ | ⟨h1, h2, h3, h4⟩ | ⟨h1, h2, h3⟩
    · rw [h2, hi.dlock_held]
      refine exists_congr fun j => ?_
      by_cases hjk : j = k
      · subst hjk; rw [hrk, htk, h1]
      · rw [hoth j hjk]
    · simp only [h4, true_iff]
      exact ⟨k, htk.mpr h2⟩
    · rw [h3]
      simp only [Bool.false_eq_true, false_iff]
      rintro ⟨j, hj⟩
      by_cases hjk : j = k
      · subst hjk; exact h2 (htk.mp hj)
      · exact hjk (hi.dlock_one j k ((hoth j hjk).mp hj) (hrk.mpr h1))
  · intro j i hj hii
    by_cases hjk : j = k <;> by_cases hik : i = k
    · rw [hjk, hik]
    · subst hjk
      have hs := (hoth i hik).mp hii
      rcases hd with ⟨h1, -⟩ | ⟨-, -, h3, -⟩ | ⟨-, h2, -⟩
      · exact hi.dlock_one _ _ (hrk.mpr (h1.mp (htk.mp hj))) hs
      · have := hi.dlock_held.mpr ⟨i, hs⟩; simp [h3] at this
      · exact absurd (htk.mp hj) h2
    · subst hik
      have hs := (hoth j hjk).mp hj
      rcases hd with ⟨h1, -⟩ | ⟨-, -, h3, -⟩ | ⟨-, h2, -⟩
      · exact hi.dlock_one _ _ hs (hrk.mpr (h1.mp (htk.mp hii)))
      · have := hi.dlock_held.mpr ⟨j, hs⟩; simp [h3] at this
      · exact absurd (htk.mp hii) h2
    · exact hi.dlock_one j i ((hoth j hjk).mp hj) ((hoth i hik).mp hii)
  · intro j f n hf hfc
    by_cases hjk : j = k
    · subst hjk
      rw [inflight?_eq hk] at hf
      rcases hlive with hlv | ⟨_, _, -, -, -, hnone⟩
      · exact hbound hlv n (hb f n hf hfc)
      · simp [hnone] at hf
    · have hf' : s.inflight? j = some f := by rw [← hf]; exact (inflight?_congr (ho j hjk)).symm
      have h0 := hi.bind_free j f n hf' hfc
      rcases hlive with hlv | ⟨f', n', hf1, hf2, -, -⟩
      · exact hbound hlv n h0
      · obtain ⟨q, hq, hqf⟩ := inflight?_some hf'
        have hqd := ((hi.session j q hq).bind_pastDlock hqf hfc).1
        have hrd := ((hi.session k r hr).bind_pastDlock hf1 hf2).1
        exact absurd (hi.dlock_one j k ((holdsDlock_iff hq).mpr hqd) (hrk.mpr hrd)) hjk
  · intro j
    rw [hc]
    split
    · rename_i hjk
      subst hjk
      rw [outstanding_eq hk]
    · rename_i hjk
      rw [hi.calls, outstanding_congr (ho j hjk)]
  · exact h5
  · exact h6
  · exact h7

/-! ### The parts of a session record that its flight does not touch -/

/-- What `SessionInv` says apart from the command in flight. -/
theorem SessionInv.of_idle {r : Session} (h1 : r.name = none ↔ r.state = .unbound)
    (h2 : r.handle = none ↔ r.state = .unbound)
    (h3 : r.openType = none ↔ r.state = .unbound ∨ r.state = .discovered)
    (h4 : r.openMode = none ↔ r.state = .unbound ∨ r.state = .discovered)
    (h5 : r.state = .unbound → r.arbStaged = none ∧ r.fdStaged = none) (h6 : r.openType ≠ some .fdNoIso)
    (h7 : r.openMode = none ∨ r.openMode = some .normal) (h8 : r.busy = false) (h9 : r.inflight = none) :
    SessionInv r where
  name_none := h1
  handle_none := h2
  type_none := h3
  mode_none := h4
  staged_none := h5
  type_value := h6
  mode_value := h7
  busy_flight := by rw [h8, h9]; rfl
  flight_accepted := by simp [h9]
  flight_call := by simp [h9]

theorem SessionInv.idle_iff {r : Session} (hi : SessionInv r) : r.busy = false ↔ r.inflight = none := by
  rw [hi.busy_flight]; cases r.inflight <;> simp

/-- Ending an operation keeps the record's invariant. -/
theorem SessionInv.completed {r : Session} (hi : SessionInv r) (kind : ResultKind) (code : Word32) :
    SessionInv (r.completed kind code) :=
  .of_idle hi.name_none hi.handle_none hi.type_none hi.mode_none hi.staged_none hi.type_value hi.mode_value rfl rfl

theorem Session.completed_not_pastDlock (r : Session) (kind : ResultKind) (code : Word32) :
    ¬(r.completed kind code).pastDlock := by
  simp [Session.pastDlock, Session.completed]

/-- Taking the lock and issuing a call keeps the record's invariant. -/
theorem SessionInv.flight {r : Session} (hi : SessionInv r) {f : InFlight}
    (ha : acceptedIn f.instr r.state = true) (hc : callFits r f) :
    SessionInv { r with busy := true, inflight := some f } where
  name_none := hi.name_none
  handle_none := hi.handle_none
  type_none := hi.type_none
  mode_none := hi.mode_none
  staged_none := hi.staged_none
  type_value := hi.type_value
  mode_value := hi.mode_value
  busy_flight := rfl
  flight_accepted := by rintro g ⟨⟩; exact ha
  flight_call := by
    rintro g ⟨⟩
    revert hc
    unfold callFits
    exact id

/-! ### The ends of a piece of an operation -/

/-- An operation of session `k` ends (R63, R236): what is to be shown of the state `u` it ends in. -/
theorem Inv.complete {s u : State} {k : Nat} {r : Session} {g : Session → Session} (hi : Inv s)
    (hr : s.sessions[k]? = some r) (hs : u.sessions = s.sessions.modify k g) (hp : u.params = s.params)
    (req : Nat) (kind : ResultKind) (code : Word32) (res : Results)
    (hinv : SessionInv ((g r).completed kind code))
    (hlive : ((g r).live = true → r.live = true ∧ (g r).name = r.name) ∨
      ∃ f n, r.inflight = some f ∧ f.call = some (.bind n) ∧ (g r).name = some n)
    (hd : (r.pastDlock ∧ u.dlock = false) ∨ (¬r.pastDlock ∧ u.dlock = s.dlock))
    (hc : ∀ j, pendingAfter j u.history = if j = k then some false else pendingAfter j s.history)
    (h5 : u.ctlTiming.wf) (h6 : u.ctlWritten.wf) (h7 : u.nv.wf) :
    Inv (u.complete k req kind code res) := by
  have hnd := Session.completed_not_pastDlock (g r) kind code
  refine hi.update (k := k) (r := r) (r1 := (g r).completed kind code) hr ?_ ?_ ?_ ?_ hinv ?_ ?_ ?_ ?_ h5 h6 h7
  · simp [hs, hr]
  · intro j hj
    simp [hs, Ne.symm hj]
  · simp [hs]
  · simpa using hp
  · rcases hlive with h | ⟨f, n, h1, h2, h3⟩
    · exact .inl h
    · exact .inr ⟨f, n, h1, h2, h3, rfl⟩
  · rcases hd with ⟨h1, h2⟩ | ⟨h1, h2⟩
    · exact .inr (.inr ⟨h1, hnd, by simpa using h2⟩)
    · exact .inl ⟨by simp [hnd, h1], by simpa using h2⟩
  · intro f n hf
    simp [Session.completed] at hf
  · intro j
    simp only [State.complete_history, pendingAfter_snoc, hc]
    rfl

/-- An operation of session `k` issues a controller call (R62). -/
theorem Inv.call {s u : State} {k : Nat} {r : Session} {g : Session → Session} (hi : Inv s)
    (hr : s.sessions[k]? = some r) (hs : u.sessions = s.sessions.modify k g) (hp : u.params = s.params)
    (f : InFlight) (c : CtlCall)
    (hinv : SessionInv ((g r).calling f c))
    (hlive : (g r).live = true → r.live = true ∧ (g r).name = r.name)
    (hd : ((∀ sess, f.instr ≠ .discover sess) ∧ ¬r.pastDlock ∧ u.dlock = s.dlock) ∨
      ((∃ sess, f.instr = .discover sess) ∧ r.pastDlock ∧ u.dlock = s.dlock) ∨
      ((∃ sess, f.instr = .discover sess) ∧ ¬r.pastDlock ∧ s.dlock = false ∧ u.dlock = true))
    (hb : ∀ n, c = .bind n → s.bound n = false)
    (hc : ∀ j, pendingAfter j u.history = if j = k then some false else pendingAfter j s.history)
    (h5 : u.ctlTiming.wf) (h6 : u.ctlWritten.wf) (h7 : u.nv.wf) :
    Inv (u.call k f c) := by
  have hpd : ((g r).calling f c).pastDlock ↔ ∃ sess, f.instr = .discover sess := by
    simp [Session.pastDlock, Session.calling]
  refine hi.update (k := k) (r := r) (r1 := (g r).calling f c) hr ?_ ?_ ?_ ?_ hinv (.inl hlive) ?_ ?_ ?_ h5 h6 h7
  · simp [hs, hr]
  · intro j hj
    simp [hs, Ne.symm hj]
  · simp [hs]
  · simpa using hp
  · rw [hpd]
    rcases hd with ⟨h1, h2, h3⟩ | ⟨h1, h2, h3⟩ | ⟨h1, h2, h3, h4⟩
    · exact .inl ⟨by simp [h1, h2], by simpa using h3⟩
    · exact .inl ⟨by simp [h1, h2], by simpa using h3⟩
    · exact .inr (.inl ⟨h2, h1, h3, by simpa using h4⟩)
  · intro f' n hf hn
    simp only [Session.calling, Option.some.injEq] at hf
    subst hf
    exact hb n (by simpa using hn)
  · intro j
    simp only [State.call_history, pendingAfter_snoc, hc]
    by_cases hj : j = k
    · subst hj; simp [pendingStep, Session.callOut, Session.calling]
    · simp [pendingStep, hj, Ne.symm hj]

/-- After an answer of session `k` is recorded, none of its calls is pending (R36 (I6)). -/
theorem Inv.pending_ret {s : State} (hi : Inv s) {k : Nat} (h : s.outstanding k = true) (a : CtlAnswer) (j : Nat) :
    pendingAfter j (s.history ++ [.ctlRet (.session k) a]) =
      if j = k then some false else pendingAfter j s.history := by
  rw [pendingAfter_snoc]
  by_cases hj : j = k
  · subst hj; simp [pendingStep, hi.calls, h]
  · simp [pendingStep, hj, Ne.symm hj]

/-- Before a session's first call none is pending. -/
theorem Inv.pending_issue {s : State} (hi : Inv s) {k : Nat} {r : Session} (hr : s.sessions[k]? = some r)
    (hb : r.busy = false) (c : Cmd) (i : Instr) (j : Nat) :
    pendingAfter j (s.history ++ [.issue c i]) = if j = k then some false else pendingAfter j s.history := by
  rw [pendingAfter_snoc]
  by_cases hj : j = k
  · subst hj
    have := ((hi.session _ r hr).idle_iff).mp hb
    simp [pendingStep, hi.calls, outstanding_eq hr, Session.callOut, this]
  · simp [pendingStep, hj]

end Sys2Proof.Machine
end

