-- ==== Sys2Proof/Laws/PerInstr.lean ====
section
/-! SUPPORT. The family `Layout` of statements about every instruction as syntax, one lemma per constructor of `Instr`. -/

namespace Sys2Proof.Laws.Layout

/-- The 21 opcodes of 30_encoding.md R93. -/
def opcodes : List (BitVec 8) :=
  [0x10#8, 0x11#8, 0x12#8, 0x13#8, 0x20#8, 0x21#8, 0x22#8, 0x30#8, 0x31#8, 0x32#8, 0x33#8, 0x34#8, 0x40#8, 0x41#8, 0x42#8,
    0x43#8, 0x50#8, 0x51#8, 0x52#8, 0x53#8, 0x60#8]

/-- R92, R93: an operation's word has an opcode of R93 and, in its session field, the session the operation names, 0 where it
names none; a register word names no session. -/
def Statement (i : Instr) : Prop :=
  match encode i with
  | .cmd32 cw => opField cw ∈ opcodes ∧ sessField cw = i.session?.getD 0#8
  | .reg64 _ => i.session? = none

/-- What a command word made of its fields has to satisfy. -/
theorem of_fields {i : Instr} {op sess : BitVec 8} {imm : BitVec 16} (h : encode i = .cmd32 (cmdWord op sess imm))
    (ho : op ∈ opcodes) (hs : sess = i.session?.getD 0#8) : Statement i := by
  unfold Statement
  rw [h]
  exact ⟨by rw [opField_cmdWord]; exact ho, by rw [sessField_cmdWord]; exact hs⟩

theorem encArb : Statement .encArb := of_fields rfl (by decide) rfl

theorem encFd : Statement .encFd := of_fields rfl (by decide) rfl

theorem decArb : Statement .decArb := of_fields rfl (by decide) rfl

theorem decFd : Statement .decFd := of_fields rfl (by decide) rfl

theorem discover (sess : BitVec 8) : Statement (.discover sess) := of_fields rfl (by decide) rfl

theorem openSess (sess : BitVec 8) (type : OpenType) (mode : OpenMode) : Statement (.openSess sess type mode) :=
  of_fields rfl (by decide) rfl

theorem closeSess (sess : BitVec 8) : Statement (.closeSess sess) := of_fields rfl (by decide) rfl

theorem cfgArbRaw (sess : BitVec 8) : Statement (.cfgArbRaw sess) := of_fields rfl (by decide) rfl

theorem cfgArbPar (sess : BitVec 8) : Statement (.cfgArbPar sess) := of_fields rfl (by decide) rfl

theorem cfgFdRaw (sess : BitVec 8) : Statement (.cfgFdRaw sess) := of_fields rfl (by decide) rfl

theorem cfgFdPar (sess : BitVec 8) : Statement (.cfgFdPar sess) := of_fields rfl (by decide) rfl

theorem apply (sess : BitVec 8) (temporary : Bool) : Statement (.apply sess temporary) :=
  of_fields rfl (by decide) rfl

theorem send (sess : BitVec 8) : Statement (.send sess) := of_fields rfl (by decide) rfl

theorem sendn (sess : BitVec 8) (count : BitVec 16) : Statement (.sendn sess count) := of_fields rfl (by decide) rfl

theorem recv (sess : BitVec 8) : Statement (.recv sess) := of_fields rfl (by decide) rfl

theorem recvn (sess : BitVec 8) (count : BitVec 16) : Statement (.recvn sess count) := of_fields rfl (by decide) rfl

theorem probeTerm (sess : BitVec 8) : Statement (.probeTerm sess) := of_fields rfl (by decide) rfl

theorem probeEcho (sess : BitVec 8) : Statement (.probeEcho sess) := of_fields rfl (by decide) rfl

theorem probeBlink (sess : BitVec 8) : Statement (.probeBlink sess) := of_fields rfl (by decide) rfl

theorem probeTxmode (sess : BitVec 8) : Statement (.probeTxmode sess) := of_fields rfl (by decide) rfl

theorem errtext : Statement .errtext := of_fields rfl (by decide) rfl

theorem arbWord (tq : BitVec 13) (sjw ts1m1 ts2m1 : BitVec 8) : Statement (.arbWord tq sjw ts1m1 ts2m1) := rfl

theorem fdWord (tdce : BitVec 1) (tdcom1 : BitVec 15) (tq : BitVec 13) (ts1m1 : BitVec 5) (ts2m1 sjwm1 : BitVec 4) :
    Statement (.fdWord tdce tdcom1 tq ts1m1 ts2m1 sjwm1) := rfl

end Sys2Proof.Laws.Layout
end

