-- ==== Sys2Proof/Laws/Pieces.lean ====
section
/-! SUPPORT. What an operation can do, said once: `Piece i k` lists the single changes an operation `i` of session `k` makes
to the state, `exec_pieces` and `answered_pieces` say that an operation is a chain of them. A frame is then one lemma per
piece. -/

namespace Sys2Proof.Machine

/-- The session operations that make controller calls (R62). -/
def callsController : Instr → Bool
  | .discover _ => true
  | .closeSess _ => true
  | .apply _ _ => true
  | .send _ => true
  | .sendn _ _ => true
  | .recv _ => true
  | .recvn _ _ => true
  | .probeTerm _ => true
  | .probeEcho _ => true
  | .probeBlink _ => true
  | .probeTxmode _ => true
  | _ => false

/-- One change of the state made by the operation `i` of session `k`. -/
inductive Piece (i : Instr) (k : Nat) : State → State → Prop where
  | env (s : State) (used rest : List EnvEvent) : s.env = used ++ rest → Piece i k s { s with env := rest }
  | hold (s : State) : Piece i k s (s.hold i)
  | lock (s : State) : Piece i k s (s.lock k i)
  | call (s : State) (f : InFlight) (c : CtlCall) : f.instr = i → callsController i = true → Piece i k s (s.call k f c)
  | ret (s : State) (a : CtlAnswer) : Piece i k s (s.record (.ctlRet (.session k) a))
  | complete (s : State) (req : Nat) (kind : ResultKind) (code : Word32) (res : Results) : kind ∈ allowedKinds i →
      (code ≠ 0#32 → kind = .timeout ∨ kind = .ioFailure) → Piece i k s (s.complete k req kind code res)
  | dlock (s : State) (sess : BitVec 8) (b : Bool) : i = .discover sess → Piece i k s { s with dlock := b }
  | discovered (s : State) (sess : BitVec 8) (n : Name) (h : Handle) : i = .discover sess →
      Piece i k s (s.updSession k (Session.discoveredAs n h))
  | opened (s : State) (sess : BitVec 8) (type : OpenType) (mode : OpenMode) : i = .openSess sess type mode →
      Piece i k s (s.updSession k (Session.openedAs type mode))
  | closed (s : State) (sess : BitVec 8) : i = .closeSess sess → Piece i k s (s.updSession k Session.closedNow)
  | forget (s : State) (sess : BitVec 8) (h : Handle) : i = .closeSess sess → Piece i k s (s.forgetTiming h)
  | stage (s : State) (sess : BitVec 8) (ph : Phase) (v : Word) :
      (ph = .arb ∧ (i = .cfgArbRaw sess ∨ i = .cfgArbPar sess)) ∨ (ph = .fd ∧ (i = .cfgFdRaw sess ∨ i = .cfgFdPar sess)) →
      Piece i k s (s.stage k ph v)
  | writeTiming (s : State) (sess : BitVec 8) (temporary : Bool) (h : Handle) (ph : Phase) (v : Word) :
      i = .apply sess temporary → Piece i k s (s.writeTiming h ph v)
  | writeNv (s : State) (sess : BitVec 8) (n : Name) (ph : Phase) (v : Word) :
      i = .apply sess false → Piece i k s (s.writeNv n ph v)

/-- A chain of pieces. -/
abbrev Pieces (i : Instr) (k : Nat) : State → State → Prop := Relation.ReflTransGen (Piece i k)

theorem Pieces.one {i : Instr} {k : Nat} {s t : State} (h : Piece i k s t) : Pieces i k s t :=
  Relation.ReflTransGen.single h

theorem Pieces.two {i : Instr} {k : Nat} {s t u : State} (h : Piece i k s t) (h' : Piece i k t u) : Pieces i k s u :=
  (Pieces.one h).tail h'

/-- A chain keeps what every piece keeps. -/
theorem Pieces.keeps {P : State → Prop} {i : Instr} {k : Nat} (hp : ∀ s t, Piece i k s t → P s → P t) {s t : State}
    (h : Pieces i k s t) (hs : P s) : P t := by
  induction h with
  | refl => exact hs
  | tail _ h ih => exact hp _ _ h ih

/-- A chain gives what every piece gives and chains preserve. -/
theorem Pieces.gives {R : State → State → Prop} {i : Instr} {k : Nat} (hr : ∀ s, R s s)
    (ht : ∀ s t u, R s t → R t u → R s u) (hp : ∀ s t, Piece i k s t → R s t) {s t : State} (h : Pieces i k s t) :
    R s t := by
  induction h with
  | refl => exact hr _
  | tail _ h ih => exact ht _ _ _ ih (hp _ _ h)

theorem applied_pieces (s : State) (sess : BitVec 8) (temporary : Bool) (k : Nat) (h : Handle) (ph : Phase) (v : Word) :
    Pieces (.apply sess temporary) k s (s.applied temporary k h ph v) := by
  unfold State.applied
  split
  · exact .two (.writeTiming _ sess _ _ _ _ rfl) (.writeNv _ sess _ _ _ rfl)
  · exact .one (.writeTiming _ sess _ _ _ _ rfl)

/-- An operation goes on with an answer by pieces of its own (R52). -/
theorem resumeAny_pieces {k : Nat} {f : InFlight} {a : CtlAnswer} {s t : State} (h : resumeAny k f a s = some t) :
    Pieces f.instr k s t := by
  unfold resumeAny at h
  cases hi : f.instr <;> simp only [hi] at h
  case discover sess =>
    have hd : ∀ kind, kind ∈ allowedKinds (.discover sess) →
        Pieces (.discover sess) k s (s.raiseDiscover k f.cmd.req kind) := fun kind hk =>
      .two (.dlock _ sess false rfl) (.complete _ _ _ _ _ hk (by simp))
    unfold resumeDiscover at h
    split at h
    · simp only [Option.some.injEq] at h
      subst h
      unfold discoverNamed
      split
      · exact hd _ (by simp [allowedKinds])
      · split
        · exact hd _ (by simp [allowedKinds])
        · exact .one (.call _ _ _ hi rfl)
    · simp only [Option.some.injEq] at h
      subst h
      exact hd _ (by simp [allowedKinds])
    · simp only [Option.some.injEq] at h
      subst h
      exact ((Pieces.one (.discovered _ sess _ _ rfl)).tail (.dlock _ sess false rfl)).tail
        (.complete _ _ _ _ _ (by simp [allowedKinds]) (by simp))
    · simp at h
  case closeSess sess =>
    unfold resumeClose at h
    split at h
    · simp only [Option.some.injEq] at h
      subst h
      exact ((Pieces.one (.forget _ sess _ rfl)).tail (.closed _ sess rfl)).tail
        (.complete _ _ _ _ _ (by simp [allowedKinds]) (by simp))
    · simp at h
  case apply sess temporary =>
    unfold resumeApply at h
    split at h
    · simp only [Option.some.injEq] at h
      subst h
      rename_i h0 v0 _
      refine (applied_pieces s sess temporary k h0 .arb v0).trans ?_
      unfold applyFd
      split
      · exact Pieces.one (.call _ _ _ hi rfl)
      · exact Pieces.one (.complete _ _ _ _ _ (by simp [allowedKinds]) (by simp))
    · simp only [Option.some.injEq] at h
      subst h
      exact (applied_pieces _ sess temporary _ _ _ _).tail (.complete _ _ _ _ _ (by simp [allowedKinds]) (by simp))
    · simp at h
  case sendn sess count =>
    unfold resumeSendn at h
    split at h
    · simp only [Option.some.injEq] at h
      subst h
      unfold sendnFrom
      split
      · exact .one (.call _ _ _ hi rfl)
      · exact .one (.complete _ _ _ _ _ (by simp [allowedKinds]) (by simp))
    all_goals first
      | (simp only [Option.some.injEq] at h
         subst h
         exact .one (.complete _ _ _ _ _ (by simp [allowedKinds]) (by simp)))
      | simp at h
  case recvn sess count =>
    unfold resumeRecvn at h
    split at h
    · rename_i hh tt fr hcall
      simp only [Option.some.injEq] at h
      subst h
      unfold recvnFrom
      split
      · exact .one (.call _ _ _ hi rfl)
      · exact .one (.complete _ _ _ _ _ (by simp [allowedKinds]) (by simp))
    all_goals first
      | (simp only [Option.some.injEq] at h
         subst h
         exact .one (.complete _ _ _ _ _ (by simp [allowedKinds]) (by simp)))
      | simp at h
  all_goals first
    | (simp only [resumeSend, resumeRecv, resumeProbe] at h
       split at h <;> first
         | (simp only [Option.some.injEq] at h
            subst h
            exact .one (.complete _ _ _ _ _ (by simp [allowedKinds]) (by simp)))
         | simp at h)
    | simp at h

/-- The same of `answered`. -/
theorem answered_pieces {k : Nat} {a : CtlAnswer} {s t : State} {f : InFlight} (hf : s.inflight? k = some f)
    (h : answered k a s = some t) : Pieces f.instr k s t := by
  obtain ⟨f', c, hf', -, -, hr⟩ := answered_some h
  rw [hf] at hf'
  cases hf'
  exact (Pieces.one (.ret s a)).trans (resumeAny_pieces hr)

/-- An operation in flight keeps its instruction, or ends. -/
theorem answered_instr {k : Nat} {a : CtlAnswer} {s t : State} {f g : InFlight} (hf : s.inflight? k = some f)
    (h : answered k a s = some t) (hg : t.inflight? k = some g) : g.instr = f.instr := by
  have hm : ∀ (u v : State) (g : Session → Session), v.sessions = u.sessions.modify k g →
      (∀ x, u.inflight? k = some x → x.instr = f.instr) →
      (∀ (r : Session) x, (g r).inflight = some x → r.inflight = some x ∨ x.instr = f.instr) →
      ∀ x, v.inflight? k = some x → x.instr = f.instr := by
    intro u v g hs hu hg x hx
    obtain ⟨q, hq, hqx⟩ := inflight?_some hx
    cases hr : u.sessions[k]? with
    | none => simp [hs, hr] at hq
    | some r =>
      simp only [hs, List.getElem?_modify, hr, if_true, Option.map_eq_map, Option.map_some, Option.some.injEq] at hq
      subst hq
      rcases hg r x hqx with h | h
      · exact hu x (by rw [inflight?_eq hr]; exact h)
      · exact h
  have hk : ∀ u v : State, Piece f.instr k u v → (∀ x, u.inflight? k = some x → x.instr = f.instr) →
      ∀ x, v.inflight? k = some x → x.instr = f.instr := by
    intro u v hp hu
    cases hp with
    | lock => exact hm u _ _ rfl hu (by rintro r x ⟨⟩; exact .inr rfl)
    | call g c hi => exact hm u _ _ rfl hu (by rintro r x ⟨⟩; exact .inr hi)
    | complete => exact hm u _ _ rfl hu (by rintro r x ⟨⟩)
    | discovered => exact hm u _ _ rfl hu (fun r x h => .inl h)
    | opened => exact hm u _ _ rfl hu (fun r x h => .inl h)
    | closed => exact hm u _ _ rfl hu (fun r x h => .inl h)
    | stage sess ph v => exact hm u _ _ rfl hu (fun r x h => .inl (by cases ph <;> exact h))
    | _ => exact hu
  refine (answered_pieces hf h).keeps hk (fun x hx => ?_) _ hg
  rw [hf] at hx
  cases hx
  rfl

/-- An answer takes no further event. -/
theorem answered_env {k : Nat} {a : CtlAnswer} {s t : State} (h : answered k a s = some t) : t.env = s.env := by
  obtain ⟨f, c, -, -, -, hr⟩ := answered_some h
  have happ : ∀ (u : State) b hh ph v, (u.applied b k hh ph v).env = u.env := by
    intro u b hh ph v
    unfold State.applied
    split <;> rfl
  have hfd : ∀ (u : State) hh, (applyFd k f hh u).env = u.env := by
    intro u hh
    unfold applyFd
    split <;> rfl
  have hnd : ∀ (u : State) l, (discoverNamed k f l u).env = u.env := by
    intro u l
    unfold discoverNamed
    split
    · rfl
    · split <;> rfl
  have hsn : ∀ (u : State) n hh t i, (sendnFrom n k f hh t i u).env = u.env := by
    intro u n hh t i
    unfold sendnFrom
    split <;> rfl
  have hrn : ∀ (u : State) n hh t l, (recvnFrom n k f hh t l u).env = u.env := by
    intro u n hh t l
    unfold recvnFrom
    split <;> rfl
  unfold resumeAny at hr
  cases hi : f.instr <;> simp only [hi] at hr <;> first
    | (simp only [resumeDiscover, resumeClose, resumeApply, resumeSend, resumeSendn, resumeRecv, resumeRecvn,
         resumeProbe] at hr
       split at hr <;> first
         | (simp only [Option.some.injEq] at hr
            subst hr
            first
              | rfl
              | exact hnd _ _
              | exact hsn _ _ _ _ _
              | exact hrn _ _ _ _ _
              | exact (hfd _ _).trans (happ _ _ _ _ _)
              | exact happ _ _ _ _ _)
         | simp at hr)
    | simp at hr

/-- Taking the events that answer an operation is a chain of its pieces. -/
theorem settle_pieces {i : Instr} {k : Nat} {s : State} (hi : ∀ f, s.inflight? k = some f → f.instr = i) :
    Pieces i k s (settle k s) := by
  have key : ∀ (l : List EnvEvent) (u : State), u.env = l → (∀ f, u.inflight? k = some f → f.instr = i) →
      Pieces i k u (drain k l u) := by
    intro l
    induction l with
    | nil => intro u _ _; exact .refl
    | cons e rest ih =>
      intro u hu hui
      unfold drain
      split
      · rename_i j a
        split
        · split
          · rename_i v ha
            obtain ⟨f, c, hf, -, -, hr⟩ := answered_some ha
            have hfi := hui f hf
            have he : v.env = rest := answered_env ha
            refine (Pieces.one (.env u [.answer j a] rest (by rw [hu]; rfl))).trans ((hfi ▸ answered_pieces hf ha).trans ?_)
            exact ih v he (fun g hg => (answered_instr hf ha hg).trans hfi)
          · exact .refl
        · exact .refl
      · exact .refl
  exact key s.env s rfl hi

/-! ### A whole operation -/

/-- A session operation is a chain of its pieces if its body is (R63). -/
theorem sessionOp_pieces {sess : BitVec 8} {i : Instr} {s t : State}
    {body : Nat → InFlight → Session → State → Result} (hk : ResultKind.invalidChannelState ∈ allowedKinds i)
    (hbody : ∀ f r u, f.instr = i → (∀ g, u.inflight? sess.toNat = some g → g.instr = i) →
      body sess.toNat f r u = .next t → Pieces i sess.toNat u t)
    (h : sessionOp sess i s body = .next t) : Pieces i sess.toNat s t := by
  rcases sessionOp_cases sess i s body with ⟨-, he⟩ | ⟨r, hr, ⟨-, he⟩ | ⟨hb, -, he⟩ | ⟨hb, ha, he⟩⟩ <;> rw [he] at h
  · simp at h
  · cases h
    exact Pieces.one (.hold s)
  · cases h
    exact Pieces.two (.lock s) (.complete _ _ _ _ _ hk (by simp))
  · refine (Pieces.one (.lock s)).trans (hbody _ _ _ rfl (fun g hg => ?_) h)
    have : (s.lock sess.toNat i).inflight? sess.toNat = some (startFlight i s.port) := by
      simp [State.inflight?, hr, Session.locked]
    rw [this] at hg
    cases hg
    rfl

/-- A call issued and whatever answers it has. -/
theorem call_pieces {i : Instr} {k : Nat} {u : State} {f : InFlight} {c : CtlCall} (hf : f.instr = i)
    (hc : callsController i = true) : Pieces i k u (settle k (u.call k f c)) := by
  refine (Pieces.one (.call u f c hf hc)).trans (settle_pieces fun g hg => ?_)
  cases hr : u.sessions[k]? with
  | none => simp [State.inflight?, hr] at hg
  | some r =>
    simp only [State.inflight?, State.call_sessions, List.getElem?_modify, hr, if_true, Option.map_eq_map,
      Option.map_some, Session.calling, Option.some.injEq] at hg
    rw [← hg]
    exact hf

/-- An operation ended at once. -/
theorem done_pieces {i : Instr} {k : Nat} {u : State} (req : Nat) (res : Results) (h : ResultKind.ok ∈ allowedKinds i) :
    Pieces i k u (settle k (u.finishOk k req res)) := by
  have e : settle k (u.finishOk k req res) = u.complete k req .ok 0#32 res := drain_complete _ _ _ _ _ _ _
  rw [e]
  exact Pieces.one (.complete _ _ _ _ _ h (by simp))

theorem withHandle_next {r : Session} {body : Handle → Result} {t : State} (h : withHandle r body = .next t) :
    ∃ hd, r.handle = some hd ∧ body hd = .next t := by
  unfold withHandle at h
  split at h
  · rename_i hd hr
    exact ⟨hd, hr, h⟩
  · simp at h

theorem withFrames_next {i : Instr} {s t : State} {body : Result} (h : withFrames i s body = .next t) :
    framesRefused (framesNeeded i) s.port.framesIn = none ∧ body = .next t := by
  unfold withFrames at h
  split at h
  · simp at h
  · rename_i hf
    exact ⟨hf, h⟩

theorem stageEncoded_pieces {i : Instr} {sess : BitVec 8} {k : Nat} {f : InFlight} {ph : Phase} {w : Option Word} {u : State}
    (hi : (ph = .arb ∧ i = .cfgArbPar sess) ∨ (ph = .fd ∧ i = .cfgFdPar sess)) :
    Pieces i k u (stageEncoded k f ph w u) := by
  have hk : ResultKind.ok ∈ allowedKinds i ∧ ResultKind.invalidTimingParameter ∈ allowedKinds i := by
    rcases hi with ⟨-, h⟩ | ⟨-, h⟩ <;> subst h <;> simp [allowedKinds]
  unfold stageEncoded
  split
  · refine Pieces.two (.stage _ sess _ _ ?_) (.complete _ _ _ _ _ hk.1 (by simp))
    rcases hi with ⟨h1, h⟩ | ⟨h1, h⟩ <;> simp [h1, h]
  · exact Pieces.one (.complete _ _ _ _ _ hk.2 (by simp))

theorem probe_pieces {i : Instr} {sess : BitVec 8} {s t : State} {id : Capability} (hc : callsController i = true)
    (hk : ResultKind.invalidChannelState ∈ allowedKinds i) (h : probe id sess i s = .next t) :
    Pieces i sess.toNat s t := by
  refine sessionOp_pieces hk (fun f r u hf _ hb => ?_) h
  obtain ⟨hd, -, hb⟩ := withHandle_next hb
  cases hb
  exact call_pieces hf hc

/-- A session operation is a chain of its own pieces (R63, R68). -/
theorem exec_pieces {i : Instr} {sess : BitVec 8} {s t : State} (hs : i.session? = some sess) (h : exec i s = .next t) :
    Pieces i sess.toNat s t := by
  cases i <;> simp only [Instr.session?, Option.some.injEq, reduceCtorEq] at hs <;> subst hs <;> simp only [exec] at h
  case discover sess =>
    refine sessionOp_pieces (by simp [allowedKinds]) (fun f r u hf hu hb => ?_) h
    split at hb
    · cases hb
      exact .refl
    · cases hb
      exact (Pieces.one (.dlock u sess true rfl)).trans (call_pieces hf rfl)
  case openSess sess type mode =>
    refine sessionOp_pieces (by simp [allowedKinds]) (fun f r u hf hu hb => ?_) h
    split at hb
    · cases hb
      exact Pieces.one (.complete _ _ _ _ _ (by simp [allowedKinds]) (by simp))
    · split at hb
      · cases hb
        exact Pieces.one (.complete _ _ _ _ _ (by simp [allowedKinds]) (by simp))
      · cases hb
        exact Pieces.two (.opened _ sess _ _ rfl) (.complete _ _ _ _ _ (by simp [allowedKinds]) (by simp))
  case closeSess sess =>
    refine sessionOp_pieces (by simp [allowedKinds]) (fun f r u hf hu hb => ?_) h
    obtain ⟨hd, -, hb⟩ := withHandle_next hb
    cases hb
    exact call_pieces hf rfl
  case cfgArbRaw sess =>
    refine sessionOp_pieces (by simp [allowedKinds]) (fun f r u hf hu hb => ?_) h
    cases hb
    exact Pieces.two (.stage _ sess _ _ (by simp)) (.complete _ _ _ _ _ (by simp [allowedKinds]) (by simp))
  case cfgArbPar sess =>
    refine sessionOp_pieces (by simp [allowedKinds]) (fun f r u hf hu hb => ?_) h
    cases hb
    exact stageEncoded_pieces (sess := sess) (by simp)
  case cfgFdRaw sess =>
    refine sessionOp_pieces (by simp [allowedKinds]) (fun f r u hf hu hb => ?_) h
    cases hb
    exact Pieces.two (.stage _ sess _ _ (by simp)) (.complete _ _ _ _ _ (by simp [allowedKinds]) (by simp))
  case cfgFdPar sess =>
    refine sessionOp_pieces (by simp [allowedKinds]) (fun f r u hf hu hb => ?_) h
    cases hb
    exact stageEncoded_pieces (sess := sess) (by simp)
  case apply sess temporary =>
    refine sessionOp_pieces (by simp [allowedKinds]) (fun f r u hf hu hb => ?_) h
    obtain ⟨hd, -, hb⟩ := withHandle_next hb
    split at hb
    · cases hb
      unfold applyArb
      split
      · exact call_pieces hf rfl
      · unfold applyFd
        split
        · exact call_pieces hf rfl
        · exact done_pieces _ _ (by simp [allowedKinds])
    · simp at hb
  case send sess =>
    refine sessionOp_pieces (by simp [allowedKinds]) (fun f r u hf hu hb => ?_) (withFrames_next h).2
    obtain ⟨hd, -, hb⟩ := withHandle_next hb
    split at hb
    · cases hb
      exact call_pieces hf rfl
    · simp at hb
  case sendn sess count =>
    refine sessionOp_pieces (by simp [allowedKinds]) (fun f r u hf hu hb => ?_) (withFrames_next h).2
    obtain ⟨hd, -, hb⟩ := withHandle_next hb
    cases hb
    unfold sendnFrom
    split
    · exact call_pieces hf rfl
    · exact done_pieces _ _ (by simp [allowedKinds])
  case recv sess =>
    refine sessionOp_pieces (by simp [allowedKinds]) (fun f r u hf hu hb => ?_) h
    obtain ⟨hd, -, hb⟩ := withHandle_next hb
    cases hb
    exact call_pieces hf rfl
  case recvn sess count =>
    refine sessionOp_pieces (by simp [allowedKinds]) (fun f r u hf hu hb => ?_) h
    obtain ⟨hd, -, hb⟩ := withHandle_next hb
    cases hb
    unfold recvnFrom
    split
    · exact call_pieces hf rfl
    · exact done_pieces _ _ (by simp [allowedKinds])
  case probeTerm sess => exact probe_pieces rfl (by simp [allowedKinds]) h
  case probeEcho sess => exact probe_pieces rfl (by simp [allowedKinds]) h
  case probeBlink sess => exact probe_pieces rfl (by simp [allowedKinds]) h
  case probeTxmode sess => exact probe_pieces rfl (by simp [allowedKinds]) h

end Sys2Proof.Machine
end

