-- ==== Sys2Proof/Tests/Slice0.lean ====
section
/-! SUPPORT. Tests. Expected values are those of 95_test_vectors.md (named in each comment) or written out by hand from the
rules; then, for every statement with hypotheses, a concrete state and operands that meet them. -/

namespace Sys2Proof.Tests

open Sys2Proof.Machine

/-! ### Well-formedness (R100 (b)) -/

/-- R100 (b): session 3 of 4 is in range; the ill-formed index 4 is refused, and 0 in a block without sessions. -/
theorem test_wellFormed :
    (Instr.discover 3#8).wellFormed 4 = true ∧ (Instr.discover 4#8).wellFormed 4 = false ∧
      (Instr.send 0#8).wellFormed 0 = false ∧ (Instr.recv 255#8).wellFormed 256 = true ∧
      Instr.encArb.wellFormed 0 = true := by decide

/-! ### Decoding: the words of V5 -/

/-- V5, codec. -/
theorem test_decode_codec :
    decode (.cmd32 0x00000010#32) = .ok .encArb ∧ decode (.cmd32 0x00000011#32) = .ok .encFd ∧
      decode (.cmd32 0x00000012#32) = .ok .decArb ∧ decode (.cmd32 0x00000013#32) = .ok .decFd := by decide

/-- V5, lifecycle. -/
theorem test_decode_lifecycle :
    decode (.cmd32 0x00000020#32) = .ok (.discover 0#8) ∧ decode (.cmd32 0x00000120#32) = .ok (.discover 1#8) ∧
      decode (.cmd32 0x00000021#32) = .ok (.openSess 0#8 .classic .normal) ∧
      decode (.cmd32 0x00020021#32) = .ok (.openSess 0#8 .fdBrs .normal) ∧
      decode (.cmd32 0x00110121#32) = .ok (.openSess 1#8 .fd .listen) ∧
      decode (.cmd32 0x00230021#32) = .ok (.openSess 0#8 .fdNoIso .loopback) ∧
      decode (.cmd32 0x00000022#32) = .ok (.closeSess 0#8) ∧ decode (.cmd32 0x00000322#32) = .ok (.closeSess 3#8) := by
  decide

/-- V5, configuration. -/
theorem test_decode_configuration :
    decode (.cmd32 0x00000030#32) = .ok (.cfgArbRaw 0#8) ∧ decode (.cmd32 0x00000031#32) = .ok (.cfgArbPar 0#8) ∧
      decode (.cmd32 0x00000032#32) = .ok (.cfgFdRaw 0#8) ∧ decode (.cmd32 0x00000333#32) = .ok (.cfgFdPar 3#8) ∧
      decode (.cmd32 0x00000034#32) = .ok (.apply 0#8 false) ∧ decode (.cmd32 0x00010034#32) = .ok (.apply 0#8 true) ∧
      decode (.cmd32 0x00010234#32) = .ok (.apply 2#8 true) := by decide

/-- V5, frames. -/
theorem test_decode_frames :
    decode (.cmd32 0x00000040#32) = .ok (.send 0#8) ∧ decode (.cmd32 0x00030041#32) = .ok (.sendn 0#8 3#16) ∧
      decode (.cmd32 0x00000041#32) = .ok (.sendn 0#8 0#16) ∧ decode (.cmd32 0xFFFF0141#32) = .ok (.sendn 1#8 65535#16) ∧
      decode (.cmd32 0x00000042#32) = .ok (.recv 0#8) ∧ decode (.cmd32 0x00050043#32) = .ok (.recvn 0#8 5#16) := by decide

/-- V5, probes and lookup. -/
theorem test_decode_probes :
    decode (.cmd32 0x00000050#32) = .ok (.probeTerm 0#8) ∧ decode (.cmd32 0x00000051#32) = .ok (.probeEcho 0#8) ∧
      decode (.cmd32 0x00000152#32) = .ok (.probeBlink 1#8) ∧ decode (.cmd32 0x00000053#32) = .ok (.probeTxmode 0#8) ∧
      decode (.cmd32 0x00000060#32) = .ok .errtext := by decide

/-- V5, the ill-formed words. -/
theorem test_decode_reserved :
    [0x00000014#32, 0x00000000#32, 0x000000FF#32, 0x00000110#32, 0x00000160#32, 0x00010020#32, 0x00040021#32, 0x00300021#32,
        0x01020021#32, 0x00020034#32, 0x00010040#32].map (fun cw => decode (.cmd32 cw)) =
      [.error .reservedOpcode, .error .reservedOpcode, .error .reservedOpcode, .error .sessionNotZero,
        .error .sessionNotZero, .error .immediateNotZero, .error .reservedOpenType, .error .reservedOpenMode,
        .error .immediateNotZero, .error .immediateNotZero, .error .immediateNotZero] := by decide

/-- S2, V2: the fields of two timing words, as the rows ARB_WORD and FD_WORD lay them out (R80, R87). -/
theorem test_decode_registerWords :
    decodeTableWord 64 0xA000007D00010B02 = some (.arbWord 125#13 1#8 11#8 2#8) ∧
      decodeTableWord 64 0x00800F00A0032E33 = some (.fdWord 1#1 15#15 25#13 14#5 3#4 3#4) ∧
      decodeTableWord 64 0x2000007D00010B02 = none ∧ decodeTableWord 16 0x10 = none := by decide

/-! ### States to step from -/

/-- A command of requestor 7 with a command word. -/
def cmd (cw : Word32) : Cmd := { Cmd.zero with req := 7, word := .cmd32 cw }

/-- The handle `H0`. -/
def h0 : Handle := ⟨0xC0#64⟩

/-- A session as DISCOVER of "can0" (name 0) leaves it. -/
def discoveredS : Session := { Session.reset with state := .discovered, name := some ⟨0⟩, handle := some h0 }

/-- A session as OPEN leaves it. -/
def openS : Session := { discoveredS with state := .opened, openType := some .fdBrs, openMode := some .normal }

/-- A session as CLOSE leaves it. -/
def closedS : Session := { openS with state := .closed }

/-- A session whose RECV waits for the controller. -/
def busyS : Session :=
  { openS with busy := true, inflight := some ⟨.recv 0#8, cmd 0x00000042#32, 0, [], some (.receive h0 0#32)⟩ }

/-- The state with session 0 as given, a command on the port, and the events to come. -/
def at0 (r : Session) (c : Cmd) (env : List EnvEvent) : State :=
  { State.reset with sessions := [r, Session.reset, Session.reset, Session.reset], portValid := true, port := c, env := env }

/-- Something read from the state after one step. -/
def after {α : Type} (s : State) (f : State → α) : Option α := (nextOf (step s)).map f

/-- The frames `f1`, `g1` of 95_test_vectors.md, with the payload bytes that matter left 0. -/
def f1 : Frame := { Frame.zero with id := 0x123#29, len := 2#7 }
def f2 : Frame := { Frame.zero with id := 0x18DAF110#29, type := .fdBrs, ext := true, len := 12#7 }
def f3 : Frame := { Frame.zero with id := 0x7FF#29, type := .remote }
def g1 : Frame := { Frame.zero with id := 0x321#29, len := 1#7, timestamp := 1000#64 }
def g2 : Frame := { Frame.zero with id := 0x322#29, type := .fd, len := 16#7, timestamp := 1010#64 }

/-- An answer of the controller to session 0. -/
def ans (a : CtlAnswer) : EnvEvent := .answer 0 a

/-! ### One step of each instruction -/

/-- V1: `ENC_ARB 10, 12, 3, 1`. -/
theorem test_encArb :
    after (at0 Session.reset { cmd 0x10#32 with a0 := 10, a1 := 12, a2 := 3, a3 := 1 } [])
      (fun t => (t.resp.status, t.resp.res.r0)) = some (0#64, 0xA000007D00010B02#64) := by decide

/-- V1: `ENC_ARB 656, 1, 1, 1` is rejected and `ENC_ARB 655, 256, 256, 255` is not. -/
theorem test_encArb_limits :
    after (at0 Session.reset { cmd 0x10#32 with a0 := 656, a1 := 1, a2 := 1, a3 := 1 } [])
        (fun t => (t.resp.status, t.resp.res.r0)) = some (6#64, 0#64) ∧
      after (at0 Session.reset { cmd 0x10#32 with a0 := 655, a1 := 256, a2 := 256, a3 := 255 } [])
        (fun t => (t.resp.status, t.resp.res.r0)) = some (0#64, 0xA0001FFB00FFFFFF#64) := by decide

/-- V2: every field at its maximum. -/
theorem test_encFd :
    after (at0 Session.reset { cmd 0x11#32 with a0 := 655, a1 := 32, a2 := 16, a3 := 16, a4 := 32768 } [])
      (fun t => (t.resp.status, t.resp.res.r0)) = some (0#64, 0x00FFFF00A3FF7FFF#64) := by decide

/-- V2: an offset that does not fit 15 bits; S3: offset 0 leaves bit 55 clear. -/
theorem test_encFd_offset :
    after (at0 Session.reset { cmd 0x11#32 with a0 := 655, a1 := 32, a2 := 16, a3 := 16, a4 := 32769 } [])
        (fun t => (t.resp.status, t.resp.res.r0)) = some (6#64, 0#64) ∧
      after (at0 Session.reset { cmd 0x11#32 with a0 := 2, a1 := 15, a2 := 4, a3 := 4 } [])
        (fun t => (t.resp.status, t.resp.res.r0)) = some (0#64, 0x00000000A0032E33#64) := by decide

/-- V3: the largest word. -/
theorem test_decArb :
    after (at0 Session.reset { cmd 0x12#32 with a0 := 0xA0001FFB00FFFFFF#64 } [])
      (fun t => (t.resp.status, t.resp.res.r0, t.resp.res.r1, t.resp.res.r2, t.resp.res.r3)) =
      some (0#64, 8187#64, 256#64, 256#64, 255#64) := by decide

/-- V3: SJW field 0 is no canonical word. -/
theorem test_decArb_sjw :
    after (at0 Session.reset { cmd 0x12#32 with a0 := 0xA000007D00000B02#64 } [])
      (fun t => (t.resp.status, t.resp.res.r0)) = some (6#64, 0#64) := by decide

/-- V4: a word with the offset enabled. -/
theorem test_decFd :
    after (at0 Session.reset { cmd 0x13#32 with a0 := 0x00800F00A0032E33#64 } [])
      (fun t => (t.resp.status, t.resp.res.r0, t.resp.res.r1, t.resp.res.r2, t.resp.res.r3, t.resp.res.r4, t.resp.res.r5)) =
      some (0#64, 25#64, 15#64, 4#64, 4#64, 16#64, 1#64) := by decide

/-- V4: a nonzero offset field with the enable bit clear. -/
theorem test_decFd_disabled :
    after (at0 Session.reset { cmd 0x13#32 with a0 := 0x00000F00A0032E33#64 } [])
      (fun t => (t.resp.status, t.resp.res.r0)) = some (6#64, 0#64) := by decide

/-- P2 step 1: DISCOVER binds "can0". -/
theorem test_discover :
    after (at0 Session.reset (cmd 0x20#32) [ans (.names [⟨0⟩, ⟨1⟩]), ans (.bound (some h0))])
      (fun t => (t.resp.status, t.sessions[0]?, t.dlock)) = some (0#64, some discoveredS, false) := by decide

/-- P3 step 3: "can0" is held by session 0, so `DISCOVER s1` is ChannelBusy after one enumeration. -/
theorem test_discover_busy :
    after (at0 discoveredS (cmd 0x120#32) [.answer 1 (.names [⟨0⟩, ⟨1⟩])])
      (fun t => (t.resp.status, callsIn t.history)) = some (2#64, [.enumerate]) := by decide

/-- P2 step 5: OPEN FD_BRS, NORMAL. -/
theorem test_open :
    after (at0 discoveredS (cmd 0x00020021#32) []) (fun t => (t.resp.status, t.sessions[0]?)) = some (0#64, some openS) := by
  decide

/-- S7: the mode is checked before the type, and no call is made. -/
theorem test_open_order :
    after (at0 discoveredS (cmd 0x00230021#32) [])
      (fun t => (t.resp.status, t.sessions[0]?.map Session.state, callsIn t.history)) =
      some (4#64, some .discovered, []) := by decide

/-- P2 step 8: CLOSE keeps everything but the state. -/
theorem test_close :
    after (at0 openS (cmd 0x22#32) [ans .unbound]) (fun t => (t.resp.status, t.sessions[0]?, callsIn t.history)) =
      some (0#64, some closedS, [.unbind h0]) := by decide

/-- P3 step 15: CLOSE on a closed session. -/
theorem test_close_closed :
    after (at0 closedS (cmd 0x22#32) []) (fun t => (t.resp.status, t.sessions[0]?.map Session.lastError)) =
      some (3#64, some ⟨.invalidChannelState, 0#32⟩) := by decide

/-- P4 step 2: a raw word is staged. -/
theorem test_cfgArbRaw :
    after (at0 discoveredS { cmd 0x30#32 with a0 := 0xA000007D00010B02#64 } [])
      (fun t => (t.resp.status, t.sessions[0]?)) =
      some (0#64, some { discoveredS with arbStaged := some 0xA000007D00010B02#64 }) := by decide

/-- P4 step 3: the parameter form overwrites the staged word with the encoder's. -/
theorem test_cfgArbPar :
    after (at0 { discoveredS with arbStaged := some 0xA000007D00010B02#64 }
        { cmd 0x31#32 with a0 := 20, a1 := 13, a2 := 2, a3 := 1 } [])
      (fun t => (t.resp.status, t.sessions[0]?.bind Session.arbStaged)) = some (0#64, some 0xA00000FA00010C01#64) := by
  decide

/-- V10: the lifecycle check comes before the parameters. -/
theorem test_cfgArbPar_closed :
    after (at0 closedS (cmd 0x31#32) []) (fun t => t.resp.status) = some 3#64 := by decide

/-- P4 step 5: any word is staged unchecked. -/
theorem test_cfgFdRaw :
    after (at0 openS { cmd 0x32#32 with a0 := 0xFFFFFFFFFFFFFFFF#64 } [])
      (fun t => (t.resp.status, t.sessions[0]?.bind Session.fdStaged)) = some (0#64, some 0xFFFFFFFFFFFFFFFF#64) := by decide

/-- P2 step 3: the FD word of 2, 15, 4, 4, 16. -/
theorem test_cfgFdPar :
    after (at0 discoveredS { cmd 0x33#32 with a0 := 2, a1 := 15, a2 := 4, a3 := 4, a4 := 16 } [])
      (fun t => (t.resp.status, t.sessions[0]?.bind Session.fdStaged)) = some (0#64, some 0x00800F00A0032E33#64) := by decide

/-- P4 step 7: a parameter out of range leaves the staged word. -/
theorem test_cfgFdPar_rejected :
    after (at0 { discoveredS with fdStaged := some 0xFFFFFFFFFFFFFFFF#64 }
        { cmd 0x33#32 with a0 := 2, a1 := 33, a2 := 4, a3 := 4 } [])
      (fun t => (t.resp.status, t.sessions[0]?.bind Session.fdStaged)) = some (6#64, some 0xFFFFFFFFFFFFFFFF#64) := by decide

/-- S9: `temporary` = 1 writes the controller and not the non-volatile store. -/
theorem test_apply_temporary :
    after (at0 { discoveredS with arbStaged := some 0xA000007D00010B02#64 } (cmd 0x00010034#32) [ans .written])
      (fun t => (t.resp.status, t.nv, t.ctlTiming.read (timingKey h0 .arb), callsIn t.history)) =
      some (0#64, [], some 0xA000007D00010B02#64, [.writeTiming h0 .arb 0xA000007D00010B02#64]) := by decide

/-- S9: `temporary` = 0 saves. -/
theorem test_apply_saved :
    after (at0 { discoveredS with arbStaged := some 0xA000007D00010B02#64 } (cmd 0x00000034#32) [ans .written])
      (fun t => (t.resp.status, t.nv.read (nvKey ⟨0⟩ .arb), t.nv.read (nvKey ⟨0⟩ .fd))) =
      some (0#64, some 0xA000007D00010B02#64, none) := by decide

/-- V8: SEND with hint -1 that fails with code 0xFFFFFFFF. -/
theorem test_send :
    after (at0 openS { cmd 0x40#32 with a0 := 0xFFFFFFFF#64, framesIn := [f1] } [ans (.transmitted (.ioFailure 0xFFFFFFFF#32))])
      (fun t => (t.resp.status, callsIn t.history)) =
      some (0xFFFFFFFF00000008#64, [.transmit h0 f1 0xFFFFFFFF#32]) := by decide

/-- S6: SEND on a session that was never opened. -/
theorem test_send_discovered :
    after (at0 discoveredS { cmd 0x40#32 with framesIn := [f1] } [])
      (fun t => (t.resp.status, callsIn t.history, t.sessions[0]?.map Session.lastError)) =
      some (3#64, [], some ⟨.invalidChannelState, 0#32⟩) := by decide

/-- S4: a batch stops at the frame that fails. -/
theorem test_sendn :
    after (at0 openS { cmd 0x00030041#32 with a0 := 100, framesIn := [f1, f2, f3] }
        [ans (.transmitted .ok), ans (.transmitted (.ioFailure 17#32))])
      (fun t => (t.resp.status, t.resp.res.r0, callsIn t.history)) =
      some (0x0000001100000008#64, 1#64, [.transmit h0 f1 100#32, .transmit h0 f2 100#32]) := by decide

/-- V8: an empty batch makes no call. -/
theorem test_sendn_empty :
    after (at0 openS (cmd 0x00000041#32) []) (fun t => (t.resp.status, t.resp.res.r0, callsIn t.history)) =
      some (0#64, 0#64, []) := by decide

/-- V8: RECV passes the frame through. -/
theorem test_recv :
    after (at0 openS { cmd 0x42#32 with a0 := 50 } [ans (.received (.ok g1))])
      (fun t => (t.resp.status, t.resp.res.framesOut, callsIn t.history)) = some (0#64, [g1], [.receive h0 50#32]) := by
  decide

/-- V8: RECV that fails gives no frame. -/
theorem test_recv_failed :
    after (at0 openS { cmd 0x42#32 with a0 := 0xFFFFFFFF#64 } [ans (.received (.ioFailure 5#32))])
      (fun t => (t.resp.status, t.resp.res.framesOut)) = some (0x0000000500000008#64, []) := by decide

/-- S5: a batch keeps what it got before the timeout. -/
theorem test_recvn :
    after (at0 openS { cmd 0x00050043#32 with a0 := 50 }
        [ans (.received (.ok g1)), ans (.received (.ok g2)), ans (.received (.timeout 2#32))])
      (fun t => (t.resp.status, t.resp.res.r0, t.resp.res.framesOut, callsIn t.history)) =
      some (0x0000000200000007#64, 2#64, [g1, g2], [.receive h0 50#32, .receive h0 50#32, .receive h0 50#32]) := by decide

/-- V8: `RECVN s0, 0`. -/
theorem test_recvn_empty :
    after (at0 openS { cmd 0x00000043#32 with a0 := 50 } [])
      (fun t => (t.resp.status, t.resp.res.r0, t.resp.res.framesOut, callsIn t.history)) =
      some (0#64, 0#64, [], []) := by decide

/-- V9: PROBE_TERM, answer `false`. -/
theorem test_probeTerm :
    after (at0 openS (cmd 0x50#32) [ans (.capability false)])
      (fun t => (t.resp.status, t.resp.res.r0, callsIn t.history)) =
      some (5#64, 0#64, [.queryCapability h0 .termination]) := by decide

/-- V9: PROBE_ECHO, answer `true`. -/
theorem test_probeEcho :
    after (at0 discoveredS (cmd 0x51#32) [ans (.capability true)])
      (fun t => (t.resp.status, t.resp.res.r0, callsIn t.history)) = some (0#64, 1#64, [.queryCapability h0 .echo]) := by
  decide

/-- V9: PROBE_BLINK on the unbound session 1. -/
theorem test_probeBlink :
    after (at0 openS (cmd 0x152#32) []) (fun t => (t.resp.status, callsIn t.history)) = some (3#64, []) := by decide

/-- V9: PROBE_TXMODE asks capability 3. -/
theorem test_probeTxmode :
    after (at0 openS (cmd 0x53#32) [ans (.capability true)]) (fun t => (t.resp.status, callsIn t.history)) =
      some (0#64, [.queryCapability h0 .txMode]) := by decide

/-- V9: only `a0[31:0]` is read; the text is the controller's, here the bytes of "bus off". -/
theorem test_errtext :
    after (at0 closedS { cmd 0x60#32 with a0 := 0x0000000100000011#64 }
        [.text 0 [0x62#8, 0x75#8, 0x73#8, 0x20#8, 0x6F#8, 0x66#8, 0x66#8]])
      (fun t => (t.resp.status, t.resp.res.textOut.length, callsIn t.history)) = some (0#64, 7, [.errorText 0x11#32]) := by
  decide

/-- 30_encoding.md: a timing word is never a command. -/
theorem test_registerWords :
    refusalOf (step (at0 openS { cmd 0#32 with word := .reg64 0xA000007D00010B02#64 } [])) = some .timingWordIsNoCommand ∧
      refusalOf (step (at0 openS { cmd 0#32 with word := .reg64 0x00800F00A0032E33#64 } [])) =
        some .timingWordIsNoCommand := by decide

/-! ### The machine around the instructions -/

/-- V5: `DISCOVER` on session 4 of 4 is refused. -/
theorem test_session_out_of_range :
    refusalOf (step (at0 openS (cmd 0x420#32) [])) = some .sessionOutOfRange := by decide

/-- R100 (e), (f): a frame of 65 bytes, and a list too short. -/
theorem test_bad_frames :
    refusalOf (step (at0 openS { cmd 0x40#32 with framesIn := [{ f1 with len := 65#7 }] } [])) = some .frameTooLong ∧
      refusalOf (step (at0 openS { cmd 0x00030041#32 with framesIn := [f1, f2] } [])) = some .framesMissing := by decide

/-- V11: a RECV in flight on session 0, a CLOSE held, a word saved, and reset next. -/
def beforeReset : State :=
  { at0 busyS (cmd 0#32) [.reset] with
    portValid := false
    held := [⟨.closeSess 0#8, cmd 0x22#32⟩]
    nv := [(0, 5#64)] }

/-- V11: every session is as after reset, nothing is answered, the saved word is kept. -/
theorem test_reset :
    after beforeReset (fun t => (t.sessions, t.held)) = some (List.replicate 4 Session.reset, []) ∧
      after beforeReset (fun t => (t.nv.read 0, t.history)) = some (some 5#64, []) := by decide

/-- P5: a CLOSE presented while a RECV has the lock is held, unanswered. -/
theorem test_held :
    after (at0 busyS (cmd 0x22#32) []) (fun t => (t.held, t.sessions[0]?, t.history)) =
      some ([⟨.closeSess 0#8, cmd 0x22#32⟩], some busyS, []) := by decide

/-- P5: when the RECV is answered the lock is free again. -/
theorem test_answered :
    after { at0 busyS (cmd 0#32) [ans (.received (.ok g1))] with portValid := false }
      (fun t => (t.resp.res.framesOut, t.sessions[0]?)) = some ([g1], some openS) := by decide

/-- A row of the table run as the first command after reset: ENC_ARB with zero operands is InvalidTimingParameter. -/
theorem test_withFetchWord :
    after (State.reset.withFetchWord 32 0x10) (fun t => t.resp.status) = some 6#64 ∧
      after (State.reset.withFetchWord 32 0x00030041) (fun t => t.resp.status) = some 3#64 := by decide

/-! ### States and operands that meet the hypotheses of the statements -/

theorem next_any {x : Result} {p : State → Bool} (h : (nextOf x).any p = true) : ∃ t, x = .next t ∧ p t = true := by
  cases x with
  | next t => exact ⟨t, rfl, by simpa [nextOf] using h⟩
  | fault f => simp [nextOf] at h
  | refused r => simp [nextOf] at h

theorem witness_EncodeOfDecode : decode (.cmd32 0x00230021#32) = .ok (.openSess 0#8 .fdNoIso .loopback) := by decide

/-- One word for each clause, at the ends of its range. -/
theorem witness_ReservedEncodings :
    (0x00#8 : BitVec 8) ∉ [0x10#8, 0x11#8, 0x12#8, 0x13#8, 0x20#8, 0x21#8, 0x22#8, 0x30#8, 0x31#8, 0x32#8, 0x33#8, 0x34#8,
        0x40#8, 0x41#8, 0x42#8, 0x43#8, 0x50#8, 0x51#8, 0x52#8, 0x53#8, 0x60#8] ∧
      (0x00000110#32).extractLsb' 8 8 ≠ 0#8 ∧ (0x80000060#32).extractLsb' 16 16 ≠ 0#16 ∧
      (0x00010020#32).extractLsb' 16 16 ≠ 0#16 ∧ (0x00020034#32).extractLsb' 17 15 ≠ 0#15 ∧
      (0x01000021#32).extractLsb' 24 8 ≠ 0#8 ∧
      ((0x00040021#32).extractLsb' 24 8 = 0#8 ∧ 4 ≤ ((0x00040021#32).extractLsb' 16 4).toNat) ∧
      ((0x00330021#32).extractLsb' 24 8 = 0#8 ∧ ((0x00330021#32).extractLsb' 16 4).toNat < 4 ∧
        3 ≤ ((0x00330021#32).extractLsb' 20 4).toNat) := by decide

/-- The four ways of a command to be ill-formed, each on the port of a state. -/
theorem witness_IllFormedRefused :
    ((at0 openS (cmd 0x14#32) []).portValid = true ∧
        decode (at0 openS (cmd 0x14#32) []).port.word = .error .reservedOpcode) ∧
      (decode (at0 openS (cmd 0x420#32) []).port.word = .ok (.discover 4#8) ∧
        (Instr.discover 4#8).session? = some 4#8 ∧
        (at0 openS (cmd 0x420#32) []).params.nSessions ≤ (4#8 : BitVec 8).toNat) ∧
      (decode (at0 openS { cmd 0x00030041#32 with framesIn := [f1, f2] } []).port.word = .ok (.sendn 0#8 3#16) ∧
        (Instr.sendn 0#8 3#16).wellFormed (at0 openS (cmd 0#32) []).params.nSessions = true ∧
        (at0 openS { cmd 0x00030041#32 with framesIn := [f1, f2] } []).port.framesIn.length <
          framesNeeded (.sendn 0#8 3#16)) ∧
      (decode (at0 openS { cmd 0x40#32 with framesIn := [{ f1 with len := 65#7 }] } []).port.word = .ok (.send 0#8) ∧
        framesNeeded (.send 0#8) ≤
          (at0 openS { cmd 0x40#32 with framesIn := [{ f1 with len := 65#7 }] } []).port.framesIn.length ∧
        ∃ f ∈ (at0 openS { cmd 0x40#32 with framesIn := [{ f1 with len := 65#7 }] } []).port.framesIn.take
          (framesNeeded (.send 0#8)), 64 < f.len.toNat) := by decide

theorem witness_StepRunsTheCommand :
    (at0 openS (cmd 0x322#32) []).portValid = true ∧ decode (at0 openS (cmd 0x322#32) []).port.word = .ok (.closeSess 3#8) ∧
      (Instr.closeSess 3#8).wellFormed (at0 openS (cmd 0x322#32) []).params.nSessions = true := by decide

theorem witness_StepWaits : State.reset.portValid = false ∧ State.reset.env = [] := by decide

/-- The default clock, and a clock at which a quantum is 0. -/
theorem witness_TimeQuantum :
    (1 : Nat) ≤ 1 ∧ 1 ≤ Params.default.clockMHz ∧ ¬(1 * 1000 < Params.default.clockMHz) ∧
      1 ≤ ({ Params.default with clockMHz := 2000 } : Params).clockMHz ∧
      1 * 1000 < ({ Params.default with clockMHz := 2000 } : Params).clockMHz ∧
      timeQuantum { Params.default with clockMHz := 2000 } 1 = 0 ∧ 32768 ≤ 2 ^ Params.default.tdcoBits := by decide

/-- The two ends of every range. -/
theorem witness_ArbWordFields :
    paramsValid Params.default = true ∧ 8191 < 2 ^ 13 ∧ 0 < 2 ^ 13 ∧ 1 ≤ 256 ∧ 1 ≤ 1 ∧ 1 ≤ 255 := by decide

/-- The two ends of the offset's range, with the widest and the narrowest offset field. -/
theorem witness_FdWordFields :
    paramsValid Params.default = true ∧ 32768 ≤ 2 ^ Params.default.tdcoBits ∧ 0 ≤ 2 ^ Params.default.tdcoBits ∧
      paramsValid { Params.default with tdcoBits := 1 } = true ∧ 2 ≤ 2 ^ ({ Params.default with tdcoBits := 1 } : Params).tdcoBits := by
  decide

theorem witness_FdFixedBits : paramsValid { Params.default with tdcoBits := 14 } = true ∧ 0 < 64 ∧ 54 < 64 ∧ 63 < 64 := by
  decide

/-- V1's first line: the encoder answers `Ok`, and a state that has its word at `a0`. -/
theorem witness_EncodeThenDecode :
    ∃ s e u : State, paramsValid s.params = true ∧ u.params = s.params ∧ u.port.a0 = e.resp.res.r0 ∧
      e.resp.status = statusWord .ok 0#32 ∧ exec .encArb s = .next e := by
  obtain ⟨e, he, hs⟩ := next_any (p := fun e => e.resp.status == statusWord .ok 0#32)
    (x := exec .encArb (at0 openS { cmd 0x10#32 with a0 := 10, a1 := 12, a2 := 3, a3 := 1 } [])) (by decide)
  refine ⟨at0 openS { cmd 0x10#32 with a0 := 10, a1 := 12, a2 := 3, a3 := 1 } [], e,
    at0 openS { cmd 0x12#32 with a0 := e.resp.res.r0 } [], ?_, rfl, rfl, by simpa using hs, he⟩
  exact (by decide : paramsValid Params.default = true)

/-- V2's line 2, 15, 4, 4, 0, and the same with offset 1. -/
theorem witness_EncodeThenDecode_fd (off : Word) (h : off = 0#64 ∨ off = 1#64) :
    ∃ s e u : State, s.port.a4 = off ∧ paramsValid s.params = true ∧ u.params = s.params ∧ u.port.a0 = e.resp.res.r0 ∧
      e.resp.status = statusWord .ok 0#32 ∧ exec .encFd s = .next e := by
  have hn : (nextOf (exec .encFd (at0 openS { cmd 0x11#32 with a0 := 2, a1 := 15, a2 := 4, a3 := 4, a4 := off } []))).any
      (fun e => e.resp.status == statusWord .ok 0#32) = true := by
    rcases h with h | h <;> subst h <;> decide
  obtain ⟨e, he, hs⟩ := next_any hn
  refine ⟨at0 openS { cmd 0x11#32 with a0 := 2, a1 := 15, a2 := 4, a3 := 4, a4 := off } [], e,
    at0 openS { cmd 0x13#32 with a0 := e.resp.res.r0 } [], rfl, ?_, rfl, rfl, by simpa using hs, he⟩
  exact (by decide : paramsValid Params.default = true)

/-- V3's and V4's first lines. -/
theorem witness_DecodeThenPack :
    (∃ s d : State, paramsValid s.params = true ∧ d.resp.status = statusWord .ok 0#32 ∧ exec .decArb s = .next d) ∧
      ∃ s d : State, paramsValid s.params = true ∧ d.resp.status = statusWord .ok 0#32 ∧ exec .decFd s = .next d := by
  obtain ⟨d, hd, hs⟩ := next_any (p := fun d => d.resp.status == statusWord .ok 0#32)
    (x := exec .decArb (at0 openS { cmd 0x12#32 with a0 := 0xA000007D00010B02#64 } [])) (by decide)
  obtain ⟨e, he, hs'⟩ := next_any (p := fun d => d.resp.status == statusWord .ok 0#32)
    (x := exec .decFd (at0 openS { cmd 0x13#32 with a0 := 0x00800F00A0032E33#64 } [])) (by decide)
  exact ⟨⟨_, d, by decide, by simpa using hs, hd⟩, _, e, by decide, by simpa using hs', he⟩

theorem witness_NoWordIsBoth :
    ∃ s d e : State, s.params.arbBase = 0xA000000000000000#64 ∧ s.params.fdBase = 0x00000000A0000000#64 ∧
      exec .decArb s = .next d ∧ exec .decFd s = .next e := by
  obtain ⟨d, hd, -⟩ := next_any (p := fun _ => true) (x := exec .decArb State.reset) (by decide)
  obtain ⟨e, he, -⟩ := next_any (p := fun _ => true) (x := exec .decFd State.reset) (by decide)
  exact ⟨State.reset, d, e, by decide, by decide, hd, he⟩

/-- S6: a batch on a session that was never opened. -/
theorem witness_RejectedByState :
    (Instr.sendn 0#8 3#16).session? = some 0#8 ∧ framesRefused (framesNeeded (.sendn 0#8 3#16)) [f1, f2, f3] = none ∧
      (at0 discoveredS (cmd 0x00030041#32) []).sessions[(0#8 : BitVec 8).toNat]? = some discoveredS ∧
      discoveredS.busy = false ∧ acceptedIn (.sendn 0#8 3#16) discoveredS.state = false := by decide

theorem witness_HeldWhileBusy :
    (Instr.closeSess 0#8).session? = some 0#8 ∧ framesRefused (framesNeeded (.closeSess 0#8)) [] = none ∧
      (at0 busyS (cmd 0x22#32) []).sessions[(0#8 : BitVec 8).toNat]? = some busyS ∧ busyS.busy = true := by decide

/-- P5: a RECV held and the session free again. -/
def heldState : State :=
  { at0 openS (cmd 0#32) [.admission 0] with portValid := false, held := [⟨.recv 0#8, cmd 0x42#32⟩] }

theorem witness_AnyHeldCommandIsAdmitted :
    heldState.portValid = false ∧ heldState.env = .admission 0 :: [] ∧ heldState.held[0]? = some ⟨.recv 0#8, cmd 0x42#32⟩ ∧
      (Instr.recv 0#8).session? = some 0#8 ∧ heldState.sessions[(0#8 : BitVec 8).toNat]? = some openS ∧ openS.busy = false := by
  decide

/-- A session with a word staged for one phase, and the state in which an operation on it is given a frame. -/
def oneStaged (ph : Phase) : Session :=
  match ph with
  | .arb => { openS with arbStaged := some 5#64 }
  | .fd => { openS with fdStaged := some 5#64 }

/-- What every line of the table has in common, on that state. -/
theorem witness_CallOutstanding :
    ∀ ph ∈ [Phase.arb, .fd],
      (at0 (oneStaged ph) { cmd 0#32 with framesIn := [f1] } []).sessions[(0#8 : BitVec 8).toNat]? = some (oneStaged ph) ∧
        (oneStaged ph).busy = false ∧ (oneStaged ph).handle = some h0 ∧ (oneStaged ph).name ≠ none ∧
        (((oneStaged ph).arbStaged = some 5#64 ∧ ph = .arb) ∨
          ((oneStaged ph).arbStaged = none ∧ (oneStaged ph).fdStaged = some 5#64 ∧ ph = .fd)) ∧
        (∀ i ∈ [Instr.closeSess 0#8, .apply 0#8 false, .send 0#8, .sendn 0#8 1#16, .recv 0#8, .recvn 0#8 1#16, .probeTerm 0#8,
            .probeEcho 0#8, .probeBlink 0#8, .probeTxmode 0#8], acceptedIn i (oneStaged ph).state = true) ∧
        (at0 (oneStaged ph) { cmd 0#32 with framesIn := [f1] } []).port.framesIn.head? = some f1 ∧
        framesRefused (framesNeeded (.send 0#8)) (at0 (oneStaged ph) { cmd 0#32 with framesIn := [f1] } []).port.framesIn = none ∧
        framesRefused (framesNeeded (.sendn 0#8 1#16)) (at0 (oneStaged ph) { cmd 0#32 with framesIn := [f1] } []).port.framesIn =
          none ∧
        (1#16 : BitVec 16) ≠ 0#16 ∧ (at0 (oneStaged ph) { cmd 0#32 with framesIn := [f1] } []).env = [] := by decide

/-- A session with a call outstanding for a command. -/
def flying (r : Session) (i : Instr) (c : CtlCall) : Session :=
  { r with busy := true, inflight := some ⟨i, cmd 0#32, 0, [], some c⟩ }

/-- Every call of every operation. -/
def flights : List (Instr × CtlCall) :=
  [(.discover 0#8, .enumerate), (.discover 0#8, .bind ⟨0⟩), (.closeSess 0#8, .unbind h0),
    (.apply 0#8 false, .writeTiming h0 .arb 5#64), (.apply 0#8 true, .writeTiming h0 .fd 5#64),
    (.send 0#8, .transmit h0 f1 0#32), (.sendn 0#8 2#16, .transmit h0 f1 0#32), (.recv 0#8, .receive h0 0#32),
    (.recvn 0#8 2#16, .receive h0 0#32), (.probeTerm 0#8, .queryCapability h0 .termination),
    (.probeEcho 0#8, .queryCapability h0 .echo), (.probeBlink 0#8, .queryCapability h0 .blink),
    (.probeTxmode 0#8, .queryCapability h0 .txMode)]

/-- A RECV whose answer comes later; the bind of a DISCOVER that comes in a later step than its enumeration; and, for each line of
the table, a session with that call outstanding and no further answer of its own to come. -/
theorem witness_AnswerSoonerOrLater :
    (∃ s t : State, s.portValid = false ∧ s.sessions[(0#8 : BitVec 8).toNat]? = some openS ∧ openS.busy = false ∧ s.env = [] ∧
      exec (.recv 0#8) s = .next t ∧ (answered 0 (.received (.ok g1)) { t with env := [] }).isSome = true) ∧
    (∃ s t : State, step { s with env := [ans (.names [⟨0⟩])] } = .next t ∧ t.env = [] ∧
      t.history = s.history ++ [.issue s.port (.discover 0#8), .ctlCall (.session 0) .enumerate,
        .ctlRet (.session 0) (.names [⟨0⟩])] ++ [.ctlCall (.session 0) (.bind ⟨0⟩)] ∧
      (answered 0 (.bound (some h0)) { t with env := [] }).isSome = true) ∧
    ∀ x ∈ flights, (at0 (flying openS x.1 x.2) (cmd 0#32) [.reset]).sessions[0]? = some (flying openS x.1 x.2) ∧
      (flying openS x.1 x.2).inflight = some ⟨x.1, cmd 0#32, 0, [], some x.2⟩ ∧ (flying openS x.1 x.2).name = some ⟨0⟩ ∧
      ({ at0 (flying openS x.1 x.2) (cmd 0#32) [] with portValid := false } : State).portValid = false ∧
      (at0 (flying openS x.1 x.2) (cmd 0#32) []).ctlTiming.wf ∧
      ∀ a, [EnvEvent.reset].head? ≠ some (.answer 0 a) := by
  obtain ⟨t, ht, ha⟩ := next_any (p := fun t => (answered 0 (.received (.ok g1)) { t with env := [] }).isSome)
    (x := exec (.recv 0#8) { at0 openS (cmd 0x42#32) [] with portValid := false }) (by decide)
  obtain ⟨u, hu, hp⟩ := next_any
    (p := fun u => u.env == [] && (u.history == [.issue (cmd 0x20#32) (.discover 0#8), .ctlCall (.session 0) .enumerate,
      .ctlRet (.session 0) (.names [⟨0⟩]), .ctlCall (.session 0) (.bind ⟨0⟩)]) &&
      (answered 0 (.bound (some h0)) { u with env := [] }).isSome)
    (x := step { at0 Session.reset (cmd 0x20#32) [] with env := [ans (.names [⟨0⟩])] }) (by decide)
  simp only [Bool.and_eq_true, beq_iff_eq] at hp
  refine ⟨⟨_, t, rfl, rfl, rfl, rfl, ht, ha⟩, ⟨_, u, hu, hp.1.1, hp.1.2, hp.2⟩, ?_⟩
  intro x hx
  refine ⟨rfl, rfl, rfl, rfl, List.Pairwise.nil, fun a h => by simp at h⟩

/-- The state of P2 step 1. -/
def discoverState (env : List EnvEvent) : State := at0 Session.reset (cmd 0x20#32) env

theorem witness_DiscoverBinds :
    (discoverState [ans (.names [⟨0⟩]), ans (.bound (some h0))]).sessions[(0#8 : BitVec 8).toNat]? = some Session.reset ∧
      Session.reset.busy = false ∧ Session.reset.state = .unbound ∧ (discoverState []).dlock = false ∧
      (discoverState []).port.nameIn ∈ [Name.mk 0] ∧ (discoverState []).bound (discoverState []).port.nameIn = false := by decide

/-- P3 steps 4 and 3, and a bind the controller does not find. -/
theorem witness_DiscoverFails :
    ((discoverState [ans (.names [⟨1⟩])]).env = .answer 0 (.names [⟨1⟩]) :: [] ∧
        (discoverState []).port.nameIn ∉ [Name.mk 1]) ∧
      ((at0 discoveredS (cmd 0x120#32) []).sessions[(1#8 : BitVec 8).toNat]? = some Session.reset ∧
        (at0 discoveredS (cmd 0x120#32) []).port.nameIn ∈ [Name.mk 0] ∧
        (at0 discoveredS (cmd 0x120#32) []).bound (at0 discoveredS (cmd 0x120#32) []).port.nameIn = true) ∧
      ((discoverState [ans (.names [⟨0⟩]), ans (.bound none)]).env =
          .answer 0 (.names [⟨0⟩]) :: .answer 0 (.bound none) :: [] ∧
        (discoverState []).port.nameIn ∈ [Name.mk 0]) := by decide

/-- A DISCOVER that waits for `dlock`. -/
def waitingS : Session :=
  { Session.reset with busy := true, inflight := some ⟨.discover 0#8, cmd 0x20#32, 0, [], none⟩ }

theorem witness_DiscoverWaits :
    ({ discoverState [] with dlock := true } : State).dlock = true ∧ (discoverState []).dlock = false ∧
      (discoverState []).env = [] ∧
      ({ at0 waitingS (cmd 0x20#32) [.grant 0] with portValid := false } : State).env = [.grant 0] ∧
      ({ at0 waitingS (cmd 0x20#32) [.grant 0] with portValid := false } : State).sessions[0]? = some waitingS ∧
      waitingS.inflight = some ⟨.discover 0#8, cmd 0x20#32, 0, [], none⟩ := by decide

theorem witness_OpenChecksModeThenType :
    (at0 discoveredS (cmd 0x21#32) []).sessions[(0#8 : BitVec 8).toNat]? = some discoveredS ∧ discoveredS.busy = false ∧
      discoveredS.state = .discovered := by decide

theorem witness_CloseUnbindsOnce :
    (at0 openS (cmd 0x22#32) [ans .unbound]).sessions[(0#8 : BitVec 8).toNat]? = some openS ∧ openS.busy = false ∧
      openS.state = .opened ∧ openS.handle = some h0 ∧
      (at0 openS (cmd 0x22#32) [ans .unbound]).env = .answer (0#8 : BitVec 8).toNat .unbound :: [] ∧
      (at0 openS (cmd 0x22#32) [ans .unbound]).ctlTiming.wf := by decide

/-- Both states a word can be staged in, and one it cannot. -/
theorem witness_ConfigureRawStagesUnchecked :
    (at0 discoveredS (cmd 0x30#32) []).sessions[(0#8 : BitVec 8).toNat]? = some discoveredS ∧ discoveredS.busy = false ∧
      discoveredS.state = .discovered ∧ (at0 openS (cmd 0x32#32) []).sessions[(0#8 : BitVec 8).toNat]? = some openS ∧
      openS.busy = false ∧ openS.state = .opened ∧
      (at0 closedS (cmd 0x30#32) []).sessions[(0#8 : BitVec 8).toNat]? = some closedS ∧ closedS.busy = false ∧
      ¬(closedS.state = .discovered ∨ closedS.state = .opened) := by decide

/-- Both states, with operands the encoders accept and operands they reject. -/
theorem witness_ConfigureParStagesEncoded :
    (at0 discoveredS { cmd 0x31#32 with a0 := 10, a1 := 12, a2 := 3, a3 := 1 } []).sessions[(0#8 : BitVec 8).toNat]? =
        some discoveredS ∧
      discoveredS.busy = false ∧ discoveredS.state = .discovered ∧
      (at0 openS (cmd 0x33#32) []).sessions[(0#8 : BitVec 8).toNat]? = some openS ∧ openS.busy = false ∧ openS.state = .opened ∧
      ({ cmd 0x31#32 with a0 := 10, a1 := 12, a2 := 3, a3 := 1 } : Cmd).arbWord? Params.default = some 0xA000007D00010B02#64 ∧
      (cmd 0x33#32).fdWord? Params.default = none := by decide

/-- CFG_ARB_PAR and CFG_FD_PAR that stage a word that was not staged before. -/
theorem witness_StagedParIsCanonical :
    (∃ t : State, exec (.cfgArbPar 0#8) (at0 discoveredS { cmd 0x31#32 with a0 := 10, a1 := 12, a2 := 3, a3 := 1 } []) = .next t ∧
        t.sessions[0]?.bind Session.arbStaged = some 0xA000007D00010B02#64) ∧
      ∃ t : State, exec (.cfgFdPar 0#8) (at0 discoveredS { cmd 0x33#32 with a0 := 2, a1 := 15, a2 := 4, a3 := 4 } []) = .next t ∧
        t.sessions[0]?.bind Session.fdStaged = some 0x00000000A0032E33#64 := by
  obtain ⟨t, ht, h⟩ := next_any (p := fun t => t.sessions[0]?.bind Session.arbStaged == some 0xA000007D00010B02#64)
    (x := exec (.cfgArbPar 0#8) (at0 discoveredS { cmd 0x31#32 with a0 := 10, a1 := 12, a2 := 3, a3 := 1 } [])) (by decide)
  obtain ⟨u, hu, h'⟩ := next_any (p := fun t => t.sessions[0]?.bind Session.fdStaged == some 0x00000000A0032E33#64)
    (x := exec (.cfgFdPar 0#8) (at0 discoveredS { cmd 0x33#32 with a0 := 2, a1 := 15, a2 := 4, a3 := 4 } [])) (by decide)
  exact ⟨⟨t, ht, by simpa using h⟩, u, hu, by simpa using h'⟩

/-- Both words staged, one, none. -/
def stagedS : Session := { openS with arbStaged := some 0xA000007D00010B02#64, fdStaged := some 0x00800F00A0032E33#64 }

theorem witness_ApplyWritesStagedWords :
    (at0 stagedS (cmd 0x34#32) [ans .written, ans .written]).sessions[(0#8 : BitVec 8).toNat]? = some stagedS ∧
      stagedS.busy = false ∧ stagedS.state = .opened ∧ stagedS.handle = some h0 ∧ stagedS.name = some ⟨0⟩ ∧
      (at0 stagedS (cmd 0x34#32) [ans .written, ans .written]).env =
        ((stagedS.arbStaged.map fun v => (Phase.arb, v)).toList ++ (stagedS.fdStaged.map fun w => (Phase.fd, w)).toList).map
          (fun _ => EnvEvent.answer (0#8 : BitVec 8).toNat .written) ++ [] ∧
      (at0 openS (cmd 0x34#32) []).env =
        ((openS.arbStaged.map fun v => (Phase.arb, v)).toList ++ (openS.fdStaged.map fun w => (Phase.fd, w)).toList).map
          (fun _ => EnvEvent.answer (0#8 : BitVec 8).toNat .written) ++ [] := by decide

theorem witness_StoreWrites : (0 : Nat) ≠ 1 ∧ timingKey h0 .arb = timingKey h0 .arb ∧ nvKey ⟨0⟩ .fd = nvKey ⟨0⟩ .fd := by decide

/-- A frame of the largest payload. -/
theorem witness_SendTransmitsOneFrame :
    (at0 openS { cmd 0x40#32 with framesIn := [{ f1 with len := 64#7 }] } [ans (.transmitted .ok)]).sessions[
        (0#8 : BitVec 8).toNat]? = some openS ∧
      openS.busy = false ∧ openS.state = .opened ∧ openS.handle = some h0 ∧
      [{ f1 with len := 64#7 }] = { f1 with len := 64#7 } :: [] ∧ ({ f1 with len := 64#7 } : Frame).len.toNat ≤ 64 ∧
      [ans (.transmitted .ok)] = .answer (0#8 : BitVec 8).toNat (.transmitted .ok) :: [] := by decide

/-- V8's three frames, each accepted. -/
def sendAll : State :=
  at0 openS { cmd 0x00030041#32 with framesIn := [f1, f2, f3] }
    [ans (.transmitted .ok), ans (.transmitted .ok), ans (.transmitted .ok)]

/-- V8's three frames, and the empty batch. -/
theorem witness_SendnSendsAll :
    (sendAll.sessions[(0#8 : BitVec 8).toNat]? = some openS ∧ openS.busy = false ∧ openS.state = .opened ∧
        openS.handle = some h0 ∧ (3#16 : BitVec 16).toNat ≤ sendAll.port.framesIn.length ∧
        (∀ f ∈ sendAll.port.framesIn.take (3#16 : BitVec 16).toNat, f.len.toNat ≤ 64) ∧
        sendAll.env = List.replicate (3#16 : BitVec 16).toNat (.answer (0#8 : BitVec 8).toNat (.transmitted .ok)) ++ []) ∧
      (0#16 : BitVec 16).toNat ≤ (at0 openS (cmd 0x41#32) []).port.framesIn.length ∧
      (at0 openS (cmd 0x41#32) []).env =
        List.replicate (0#16 : BitVec 16).toNat (.answer (0#8 : BitVec 8).toNat (.transmitted .ok)) ++ [] := by decide

/-- V8's three frames, `m` of them accepted before one fails. -/
def sendStops (m : Nat) : State :=
  at0 openS { cmd 0x00030041#32 with framesIn := [f1, f2, f3] }
    (List.replicate m (ans (.transmitted .ok)) ++ [ans (.transmitted (.ioFailure 17#32))])

/-- S4, and a batch that fails at its first and one that fails at its last frame. -/
theorem witness_SendnStops :
    ∀ m ∈ [0, 1, 2],
      (sendStops m).sessions[(0#8 : BitVec 8).toNat]? = some openS ∧ openS.busy = false ∧ openS.state = .opened ∧
        openS.handle = some h0 ∧ (3#16 : BitVec 16).toNat ≤ (sendStops m).port.framesIn.length ∧
        (∀ f ∈ (sendStops m).port.framesIn.take (3#16 : BitVec 16).toNat, f.len.toNat ≤ 64) ∧
        m < (3#16 : BitVec 16).toNat ∧ (sendStops m).port.framesIn[m]? = [f1, f2, f3][m]? ∧ ([f1, f2, f3][m]?).isSome = true ∧
        TxAnswer.ioFailure 17#32 ≠ .ok ∧
        (sendStops m).env = List.replicate m (.answer (0#8 : BitVec 8).toNat (.transmitted .ok)) ++
          .answer (0#8 : BitVec 8).toNat (.transmitted (.ioFailure 17#32)) :: [] := by decide

theorem witness_RecvReceivesOneFrame :
    (at0 openS (cmd 0x42#32) [ans (.received (.ok g1))]).sessions[(0#8 : BitVec 8).toNat]? = some openS ∧ openS.busy = false ∧
      openS.state = .opened ∧ openS.handle = some h0 ∧
      (at0 openS (cmd 0x42#32) [ans (.received (.ok g1))]).env = .answer (0#8 : BitVec 8).toNat (.received (.ok g1)) :: [] := by
  decide

/-- `frames` come, and the answer `last` after them. -/
def recvState (frames : List Frame) (last : List EnvEvent) : State :=
  at0 openS (cmd 0x00020043#32) (frames.map (fun f => ans (.received (.ok f))) ++ last)

/-- Two frames of two, and the empty batch. -/
theorem witness_RecvnReceivesAll :
    (recvState [g1, g2] []).sessions[(0#8 : BitVec 8).toNat]? = some openS ∧ openS.busy = false ∧ openS.state = .opened ∧
      openS.handle = some h0 ∧ [g1, g2].length = (2#16 : BitVec 16).toNat ∧
      (recvState [g1, g2] []).env =
        [g1, g2].map (fun f => EnvEvent.answer (0#8 : BitVec 8).toNat (.received (.ok f))) ++ [] ∧
      ([] : List Frame).length = (0#16 : BitVec 16).toNat ∧ (recvState [] []).env = [] := by decide

/-- S5, and a batch that fails at once. -/
theorem witness_RecvnStops :
    (RxAnswer.timeout 2#32).result.1 ≠ .ok ∧ openS.busy = false ∧ openS.state = .opened ∧ openS.handle = some h0 ∧
      ∀ frames ∈ [[g1, g2], []],
        (recvState frames [ans (.received (.timeout 2#32))]).sessions[(0#8 : BitVec 8).toNat]? = some openS ∧
          frames.length < (5#16 : BitVec 16).toNat ∧
          (recvState frames [ans (.received (.timeout 2#32))]).env =
            frames.map (fun f => EnvEvent.answer (0#8 : BitVec 8).toNat (.received (.ok f))) ++
              .answer (0#8 : BitVec 8).toNat (.received (.timeout 2#32)) :: [] := by decide

/-- V8's last line, and a batch of one frame sent. -/
theorem witness_BatchOfOne :
    (∃ t u : State, exec (.send 0#8) (at0 openS { cmd 0#32 with framesIn := [f1] } [ans (.transmitted .ok)]) = .next t ∧
        exec (.sendn 0#8 1#16) (at0 openS { cmd 0#32 with framesIn := [f1] } [ans (.transmitted .ok)]) = .next u) ∧
      ∃ t u : State, exec (.recv 0#8) (at0 openS (cmd 0#32) [ans (.received (.ok g1))]) = .next t ∧
        exec (.recvn 0#8 1#16) (at0 openS (cmd 0#32) [ans (.received (.ok g1))]) = .next u := by
  obtain ⟨t, ht, -⟩ := next_any (p := fun _ => true)
    (x := exec (.send 0#8) (at0 openS { cmd 0#32 with framesIn := [f1] } [ans (.transmitted .ok)])) (by decide)
  obtain ⟨u, hu, -⟩ := next_any (p := fun _ => true)
    (x := exec (.sendn 0#8 1#16) (at0 openS { cmd 0#32 with framesIn := [f1] } [ans (.transmitted .ok)])) (by decide)
  obtain ⟨v, hv, -⟩ := next_any (p := fun _ => true)
    (x := exec (.recv 0#8) (at0 openS (cmd 0#32) [ans (.received (.ok g1))])) (by decide)
  obtain ⟨w, hw, -⟩ := next_any (p := fun _ => true)
    (x := exec (.recvn 0#8 1#16) (at0 openS (cmd 0#32) [ans (.received (.ok g1))])) (by decide)
  exact ⟨⟨t, u, ht, hu⟩, v, w, hv, hw⟩

theorem witness_ProbeReportsCapability :
    (Instr.probeTxmode 0#8, Capability.txMode) ∈ [(.probeTerm 0#8, .termination), (.probeEcho 0#8, .echo),
        (.probeBlink 0#8, .blink), (.probeTxmode 0#8, .txMode)] ∧
      (at0 discoveredS (cmd 0x53#32) [ans (.capability false)]).sessions[(0#8 : BitVec 8).toNat]? = some discoveredS ∧
      discoveredS.busy = false ∧ discoveredS.state = .discovered ∧ discoveredS.handle = some h0 ∧
      (at0 discoveredS (cmd 0x53#32) [ans (.capability false)]).env =
        .answer (0#8 : BitVec 8).toNat (.capability false) :: [] := by decide

def twoLookups : State :=
  { at0 openS (cmd 0#32) [.text 1 []] with portValid := false, lookups := [{ cmd 0x60#32 with req := 8 }, cmd 0x60#32] }

/-- A lookup answered at once, one not answered yet, and the second of two outstanding ones answered. -/
theorem witness_ErrtextReturnsText :
    (at0 openS (cmd 0x60#32) [.text 0 []]).env = .text (at0 openS (cmd 0x60#32) [.text 0 []]).lookups.length [] :: [] ∧
      (at0 openS (cmd 0x60#32) []).env = [] ∧
      twoLookups.portValid = false ∧ twoLookups.env = .text 1 [] :: [] ∧ twoLookups.lookups[1]? = some (cmd 0x60#32) := by
  decide

theorem witness_ResetState : State.reset.sessions[3]? = some Session.reset := by decide

theorem witness_ResetEvent : beforeReset.portValid = false ∧ beforeReset.env = .reset :: [] := by decide

/-! States with the invariant: session 0 as given and idle, the others as after reset. -/

theorem sessionInv_reset : SessionInv Session.reset :=
  .of_idle (by decide) (by decide) (by decide) (by decide) (by decide) (by decide) (by decide) rfl rfl

theorem sessionInv_discovered : SessionInv discoveredS :=
  .of_idle (by decide) (by decide) (by decide) (by decide) (by decide) (by decide) (by decide) rfl rfl

theorem sessionInv_open : SessionInv openS :=
  .of_idle (by decide) (by decide) (by decide) (by decide) (by decide) (by decide) (by decide) rfl rfl

/-- The records of `at0`. -/
theorem at0_session {r q : Session} {c : Cmd} {env : List EnvEvent} {k : Nat}
    (h : (at0 r c env).sessions[k]? = some q) : (k = 0 ∧ q = r) ∨ (k ≠ 0 ∧ q = Session.reset) := by
  match k, h with
  | 0, h => exact .inl ⟨rfl, by simpa [at0] using h.symm⟩
  | 1, h => exact .inr ⟨by decide, by simpa [at0] using h.symm⟩
  | 2, h => exact .inr ⟨by decide, by simpa [at0] using h.symm⟩
  | 3, h => exact .inr ⟨by decide, by simpa [at0] using h.symm⟩
  | k + 4, h => simp [at0] at h

theorem inv_at0 {r : Session} (hr : SessionInv r) (hi : r.inflight = none) (c : Cmd) (env : List EnvEvent) :
    Inv (at0 r c env) := by
  have hf : ∀ k, (at0 r c env).inflight? k = none := by
    intro k
    unfold State.inflight?
    split
    · rename_i q hq
      rcases at0_session hq with ⟨-, h⟩ | ⟨-, h⟩
      · rw [h]; exact hi
      · rw [h]; rfl
    · rfl
  have hd : ∀ k, ¬(at0 r c env).holdsDlock k := by
    rintro k ⟨f, sess, h, -⟩
    rw [hf] at h
    cases h
  constructor
  · rfl
  · intro k q hq
    rcases at0_session hq with ⟨-, h⟩ | ⟨-, h⟩
    · rw [h]; exact hr
    · rw [h]; exact sessionInv_reset
  · intro j k p q hp hq lp lq _
    rcases at0_session hp with ⟨h, -⟩ | ⟨-, h⟩
    · rcases at0_session hq with ⟨h', -⟩ | ⟨-, h'⟩
      · rw [h, h']
      · rw [h'] at lq; exact absurd lq (by decide)
    · rw [h] at lp; exact absurd lp (by decide)
  · constructor
    · intro h; cases h
    · rintro ⟨k, hk⟩; exact absurd hk (hd k)
  · intro j k hj; exact absurd hj (hd j)
  · intro k f n h; rw [hf] at h; cases h
  · intro k
    simp only [State.outstanding, hf]
    rfl
  · exact List.Pairwise.nil
  · exact List.Pairwise.nil
  · exact List.Pairwise.nil

/-- Session 0 holds "can0", and session 1 is to discover "can1" with the handle 0xC1. -/
def secondState : State :=
  at0 discoveredS { cmd 0x120#32 with nameIn := ⟨1⟩ }
    [.answer 1 (.names [⟨0⟩, ⟨1⟩]), .answer 1 (.bound (some ⟨0xC1#64⟩))]

theorem inv_second : Inv secondState := inv_at0 sessionInv_discovered rfl _ _

theorem witness_InvKept : ∃ t : State, Inv secondState ∧ step secondState = .next t := by
  obtain ⟨t, ht, -⟩ := next_any (p := fun _ => true) (x := step secondState) (by decide)
  exact ⟨t, inv_second, ht⟩

/-- Each change of state, and reset. -/
theorem witness_StateTransitions :
    (∃ t : State, Inv secondState ∧ step secondState = .next t ∧ t.sessions[1]?.map Session.state = some .discovered) ∧
      (∃ t : State, Inv (at0 discoveredS (cmd 0x21#32) []) ∧ step (at0 discoveredS (cmd 0x21#32) []) = .next t ∧
        t.sessions[0]?.map Session.state = some .opened) ∧
      (∃ t : State, Inv (at0 openS (cmd 0x22#32) [ans .unbound]) ∧ step (at0 openS (cmd 0x22#32) [ans .unbound]) = .next t ∧
        t.sessions[0]?.map Session.state = some .closed) := by
  obtain ⟨t, ht, h⟩ := next_any (p := fun t => t.sessions[1]?.map Session.state == some .discovered) (x := step secondState)
    (by decide)
  obtain ⟨u, hu, h'⟩ := next_any (p := fun t => t.sessions[0]?.map Session.state == some .opened)
    (x := step (at0 discoveredS (cmd 0x21#32) [])) (by decide)
  obtain ⟨v, hv, h''⟩ := next_any (p := fun t => t.sessions[0]?.map Session.state == some .closed)
    (x := step (at0 openS (cmd 0x22#32) [ans .unbound])) (by decide)
  exact ⟨⟨t, inv_second, ht, by simpa using h⟩, ⟨u, inv_at0 sessionInv_discovered rfl _ _, hu, by simpa using h'⟩, v,
    inv_at0 sessionInv_open rfl _ _, hv, by simpa using h''⟩

theorem sessionInv_closed : SessionInv closedS :=
  .of_idle (by decide) (by decide) (by decide) (by decide) (by decide) (by decide) (by decide) rfl rfl

theorem unique_at0 (r : Session) (c : Cmd) (env : List EnvEvent) : (at0 r c env).uniqueHandles := by
  intro j k p q hp hq lp lq _
  rcases at0_session hp with ⟨h, -⟩ | ⟨-, h⟩
  · rcases at0_session hq with ⟨h', -⟩ | ⟨-, h'⟩
    · rw [h, h']
    · rw [h'] at lq; exact absurd lq (by decide)
  · rw [h] at lp; exact absurd lp (by decide)

/-- P3 steps 14 and 18: "can0" discovered again after its session is closed; the controller answers with the handle it had. -/
def againState : State :=
  at0 closedS (cmd 0x120#32) [.answer 1 (.names [⟨0⟩]), .answer 1 (.bound (some h0))]

/-- A bind answered with a new handle while another session is live, and one answered with the handle that CLOSE gave back, each
of which meets `HANDLE_UNIQUE`; the second over a run as well. -/
theorem witness_HandlesStayUnique :
    (∃ t : State, Inv secondState ∧ secondState.uniqueHandles ∧ step secondState = .next t ∧ secondState.handleUnique t ∧
      t.sessions[1]?.bind Session.handle = some ⟨0xC1#64⟩) ∧
    ∃ t : State, Inv againState ∧ againState.uniqueHandles ∧ step againState = .next t ∧ againState.handleUnique t ∧
      againState.run 1 = some t ∧ againState.handleUniqueFor 1 ∧ t.sessions[1]?.bind Session.handle = some h0 := by
  obtain ⟨t, ht, hp⟩ := next_any
    (p := fun t => t.history.all (fun e =>
        match e with
        | .ctlRet _ (.bound (some h)) => decide (h = ⟨0xC1#64⟩)
        | _ => true) &&
      decide (t.sessions[1]?.bind Session.handle = some ⟨0xC1#64⟩))
    (x := step secondState) (by decide)
  obtain ⟨u, hu, hq⟩ := next_any (p := fun u => decide (u.sessions[1]?.bind Session.handle = some h0))
    (x := step againState) (by decide)
  have hx : ∀ v, againState.handleUnique v := by
    intro v new k h _ _ j r hr lr
    rcases at0_session hr with ⟨-, h'⟩ | ⟨-, h'⟩ <;> rw [h'] at lr <;> exact absurd lr (by decide)
  simp only [Bool.and_eq_true, decide_eq_true_eq, List.all_eq_true] at hp
  refine ⟨⟨t, inv_second, unique_at0 _ _ _, ht, ?_, hp.2⟩, u, inv_at0 sessionInv_closed rfl _ _, unique_at0 _ _ _, hu, hx u, ?_,
    fun v _ => ⟨hx v, trivial⟩, by simpa using hq⟩
  · intro new k h hn hm j r hr lr hh
    have hh' := hp.1 (.ctlRet (.session k) (.bound (some h))) (by rw [hn]; exact List.mem_append_right _ hm)
    have he : h = ⟨0xC1#64⟩ := by simpa using hh'
    rcases at0_session hr with ⟨-, h'⟩ | ⟨-, h'⟩
    · rw [h', he] at hh; exact absurd hh (by decide)
    · rw [h'] at lr; exact absurd lr (by decide)
  · simp only [State.run, hu]

theorem witness_NoFault : Inv secondState := inv_second

theorem witness_WellFormedCommandRuns :
    Inv secondState ∧ secondState.portValid = true ∧ decode secondState.port.word = .ok (.discover 1#8) ∧
      isOperation (.discover 1#8) = true ∧ (Instr.discover 1#8).wellFormed secondState.params.nSessions = true ∧
      framesRefused (framesNeeded (.discover 1#8)) secondState.port.framesIn = none :=
  ⟨inv_second, by decide⟩

/-- An instruction that runs, for the frames. -/
theorem witness_SharedFrame :
    ∃ t : State, exec (.apply 0#8 true) (at0 stagedS (cmd 0x34#32) [ans .written]) = .next t := by
  obtain ⟨t, ht, -⟩ := next_any (p := fun _ => true)
    (x := exec (.apply 0#8 true) (at0 stagedS (cmd 0x34#32) [ans .written])) (by decide)
  exact ⟨t, ht⟩

theorem witness_RecordFrame :
    ∃ (t : State) (q : Session), exec (.cfgArbRaw 0#8) (at0 stagedS (cmd 0x30#32) []) = .next t ∧
      (at0 stagedS (cmd 0x30#32) []).sessions[0]? = some stagedS ∧ t.sessions[0]? = some q := by
  obtain ⟨t, ht, h⟩ := next_any (p := fun t => t.sessions[0]?.isSome)
    (x := exec (.cfgArbRaw 0#8) (at0 stagedS (cmd 0x30#32) [])) (by decide)
  obtain ⟨q, hq⟩ := Option.isSome_iff_exists.mp h
  exact ⟨t, q, ht, rfl, hq⟩

/-- An instruction that is no APPLY, and an APPLY with `temporary` = 1. -/
theorem witness_StoreFrame :
    (∃ t : State, exec (.cfgArbRaw 0#8) (at0 stagedS (cmd 0x30#32) []) = .next t) ∧
      ∃ t : State, exec (.apply 0#8 true) (at0 stagedS (cmd 0x34#32) [ans .written]) = .next t := by
  obtain ⟨t, q, ht, -, -⟩ := witness_RecordFrame
  exact ⟨⟨t, ht⟩, witness_SharedFrame⟩

/-- A word of another session, and the FD register when no FD word is staged. -/
theorem witness_ApplyFrame :
    (∃ t : State, exec (.apply 0#8 true) (at0 stagedS (cmd 0x34#32) [ans .written]) = .next t) ∧
      (at0 stagedS (cmd 0x34#32) [ans .written]).sessions[(0#8 : BitVec 8).toNat]? = some stagedS ∧
      stagedS.handle = some h0 ∧ stagedS.name = some ⟨0⟩ ∧ timingKey ⟨0xC1#64⟩ .arb ≠ timingKey h0 .arb ∧
      timingKey ⟨0xC1#64⟩ .arb ≠ timingKey h0 .fd ∧ nvKey ⟨1⟩ .arb ≠ nvKey ⟨0⟩ .fd ∧ discoveredS.stagedWord .fd = none :=
  ⟨witness_SharedFrame, by decide⟩

/-- A SEND that fails at once, and a RECV that fails when it is answered. -/
theorem witness_KindsOfOperation :
    (∃ t : State, exec (.send 0#8) (at0 discoveredS { cmd 0x40#32 with framesIn := [f1] } []) = .next t) ∧
      (∃ (f : InFlight) (t : State), (at0 busyS (cmd 0#32) []).inflight? 0 = some f ∧
        answered 0 (.received (.timeout 2#32)) (at0 busyS (cmd 0#32) []) = some t) ∧
      ∃ new, (answerText 0 [] { at0 openS (cmd 0#32) [] with lookups := [cmd 0x60#32] }).history =
        (at0 openS (cmd 0#32) []).history ++ new ∧ responsesIn new ≠ [] := by
  obtain ⟨t, ht, -⟩ := next_any (p := fun _ => true)
    (x := exec (.send 0#8) (at0 discoveredS { cmd 0x40#32 with framesIn := [f1] } [])) (by decide)
  obtain ⟨u, hu⟩ := Option.isSome_iff_exists.mp
    (show (answered 0 (.received (.timeout 2#32)) (at0 busyS (cmd 0#32) [])).isSome = true by decide)
  exact ⟨⟨t, ht⟩, ⟨_, u, rfl, hu⟩, _, rfl, by decide⟩

theorem witness_LocalOperations :
    ∃ t : State, exec (.openSess 0#8 .fdBrs .normal) (at0 discoveredS (cmd 0x00020021#32) []) = .next t := by
  obtain ⟨t, ht, -⟩ := next_any (p := fun _ => true)
    (x := exec (.openSess 0#8 .fdBrs .normal) (at0 discoveredS (cmd 0x00020021#32) [])) (by decide)
  exact ⟨t, ht⟩

/-! A state with the invariant in which session 0 waits in a RECV. -/

/-- The RECV of `busyS` is to be answered. -/
def recvWaits : State :=
  { at0 busyS (cmd 0#32) [ans (.received (.timeout 2#32))] with
    portValid := false
    history := [.issue (cmd 0x42#32) (.recv 0#8), .ctlCall (.session 0) (.receive h0 0#32)] }

theorem recvWaits_session {q : Session} {k : Nat} (h : recvWaits.sessions[k]? = some q) :
    (k = 0 ∧ q = busyS) ∨ (k ≠ 0 ∧ q = Session.reset) :=
  at0_session (r := busyS) (c := cmd 0#32) (env := [ans (.received (.timeout 2#32))]) h

theorem recvWaits_inflight {k : Nat} {f : InFlight} (h : recvWaits.inflight? k = some f) :
    k = 0 ∧ f = ⟨.recv 0#8, cmd 0x00000042#32, 0, [], some (.receive h0 0#32)⟩ := by
  obtain ⟨q, hq, hf⟩ := inflight?_some h
  rcases recvWaits_session hq with ⟨hk, h'⟩ | ⟨-, h'⟩
  · rw [h'] at hf
    exact ⟨hk, by simpa [busyS] using hf.symm⟩
  · rw [h'] at hf; simp [Session.reset] at hf

theorem inv_recvWaits : Inv recvWaits := by
  have hd : ∀ k, ¬recvWaits.holdsDlock k := by
    rintro k ⟨f, sess, h, hi, -⟩
    rw [(recvWaits_inflight h).2] at hi
    cases hi
  constructor
  · rfl
  · intro k q hq
    rcases recvWaits_session hq with ⟨-, h⟩ | ⟨-, h⟩
    · rw [h]
      refine ⟨by decide, by decide, by decide, by decide, by decide, by decide, by decide, rfl, ?_, ?_⟩
      · rintro f ⟨⟩; decide
      · rintro f ⟨⟩; exact ⟨h0, rfl, rfl⟩
    · rw [h]; exact sessionInv_reset
  · intro j k p q hp hq lp lq _
    rcases recvWaits_session hp with ⟨h, -⟩ | ⟨-, h⟩
    · rcases recvWaits_session hq with ⟨h', -⟩ | ⟨-, h'⟩
      · rw [h, h']
      · rw [h'] at lq; exact absurd lq (by decide)
    · rw [h] at lp; exact absurd lp (by decide)
  · constructor
    · intro h; cases h
    · rintro ⟨k, hk⟩; exact absurd hk (hd k)
  · intro j k hj; exact absurd hj (hd j)
  · intro k f n h hc
    rw [(recvWaits_inflight h).2] at hc
    cases hc
  · intro k
    by_cases hk : k = 0
    · rw [hk]; decide
    · have : recvWaits.outstanding k = false := by
        unfold State.outstanding
        split
        · rename_i f h; exact absurd (recvWaits_inflight h).1 hk
        · rfl
      rw [this]
      have h0k : ¬(0 = k) := fun h => hk h.symm
      simp [recvWaits, pendingAfter, pendingStep, h0k]
  · exact List.Pairwise.nil
  · exact List.Pairwise.nil
  · exact List.Pairwise.nil

/-- R31, U33: while the RECV waits the port shows the record from before its writes (last error (Ok, 0), lock taken) or from after
them, as a Timeout with code 2 leaves it; an ending the command cannot have is not shown. -/
theorem test_readout :
    (recvWaits.readout 0 .before).map (fun v => (v.state, v.busy, v.lastError)) = some (2#2, true, ⟨.ok, 0#32⟩) ∧
      (recvWaits.readout 0 (.after (.error .timeout 2#32) true)).map (fun v => (v.state, v.busy, v.lastError)) =
        some (2#2, true, ⟨.timeout, 2#32⟩) ∧
      (recvWaits.readout 0 (.after (.error .channelBusy 0#32) false)).map (fun v => (v.busy, v.lastError)) =
        some (true, ⟨.ok, 0#32⟩) := by decide

/-- U33 for a DISCOVER, whose record after its writes has the name and the handle. -/
theorem test_readout_discover :
    ((at0 waitingS (cmd 0#32) []).readout 0 (.after (.ok h0) false)).map
        (fun v => (v.state, v.busy, v.nameSome, v.handleSome, v.openTypeSome)) = some (1#2, false, true, true, false) := by
  decide

/-- A session with nothing in flight, and one whose command is ended by the step. -/
theorem witness_ReadOutPort :
    ((at0 stagedS (cmd 0#32) []).sessions[0]? = some stagedS ∧ stagedS.inflight = none) ∧
    ∃ (t : State) (q : Session), Inv recvWaits ∧ recvWaits.sessions[0]? = some busyS ∧ busyS.inflight ≠ none ∧
      step recvWaits = .next t ∧ t.sessions[0]? = some q ∧ q.inflight = none ∧ ∀ rest, recvWaits.env ≠ .reset :: rest := by
  obtain ⟨t, ht, hp⟩ := next_any
    (p := fun t => decide (t.sessions[0]? = some ({ openS with lastError := ⟨.timeout, 2#32⟩ } : Session)))
    (x := step recvWaits) (by decide)
  exact ⟨by decide, t, { openS with lastError := ⟨.timeout, 2#32⟩ }, inv_recvWaits, rfl, by decide, ht, by simpa using hp, rfl, fun rest h => by
    simp [recvWaits, at0, ans] at h⟩

end Sys2Proof.Tests
end

section
/-! Scope: which commands on the port have a meaning (00_scope.md R12, 30_encoding.md R100, 60_exceptions.md R240 (1)). The
first part says once how a step treats the word on the port and when an operation runs; the two obligations follow from it. -/

namespace Sys2Proof.Machine

/-! ### The step on the word that stands on the port -/

theorem step_of_decode_error {s : State} {e : DecodeError} (hv : s.portValid = true) (hd : decode s.port.word = .error e) :
    step s = .refused (.reservedEncoding e) := by
  simp [step, takeCommand, hv, hd]

theorem step_of_wellFormed {s : State} {i : Instr} (hv : s.portValid = true) (hd : decode s.port.word = .ok i)
    (hw : i.wellFormed s.params.nSessions = true) : step s = exec i s.taken := by
  simp [step, takeCommand, hv, hd, hw]

theorem step_of_not_wellFormed {s : State} {i : Instr} (hv : s.portValid = true) (hd : decode s.port.word = .ok i)
    (hw : i.wellFormed s.params.nSessions = false) : step s = .refused .sessionOutOfRange := by
  simp [step, takeCommand, hv, hd, hw]

theorem wellFormed_of_session {i : Instr} {sess : BitVec 8} (h : i.session? = some sess) (n : Nat) :
    i.wellFormed n = decide (sess.toNat < n) := by
  simp [Instr.wellFormed, h, sessionInRange]

/-! ### Ill-formed frame lists -/

@[simp] theorem framesRefused_zero (l : List Frame) : framesRefused 0 l = none := by
  simp [framesRefused_none]

theorem framesRefused_missing {n : Nat} {l : List Frame} (h : l.length < n) : framesRefused n l = some .framesMissing := by
  simp [framesRefused, h]

theorem framesRefused_tooLong {n : Nat} {l : List Frame} (h : n ≤ l.length) (hf : ∃ f ∈ l.take n, 64 < f.len.toNat) :
    framesRefused n l = some .frameTooLong := by
  obtain ⟨f, hmem, hlen⟩ := hf
  have hbad : ¬(l.take n).all Frame.lenOk = true := fun hall => by
    have hok : f.len.toNat ≤ 64 := of_decide_eq_true (List.all_eq_true.mp hall f hmem)
    omega
  rw [framesRefused, if_neg (by omega), if_neg hbad]

theorem withFrames_refused {i : Instr} {s : State} {body : Result} {why : Refusal}
    (h : framesRefused (framesNeeded i) s.port.framesIn = some why) : withFrames i s body = .refused why := by
  simp [withFrames, h]

theorem withFrames_passes {i : Instr} {s : State} {body : Result}
    (h : framesRefused (framesNeeded i) s.port.framesIn = none) : withFrames i s body = body := by
  simp [withFrames, h]

/-- R100 (e), (f), R240 (1): an ill-formed frame list is what the operation stops at. Only SEND and SENDN read the list. -/
theorem exec_of_framesRefused {i : Instr} {s : State} {why : Refusal}
    (h : framesRefused (framesNeeded i) s.port.framesIn = some why) : exec i s = .refused why := by
  cases i with
  | send sess => exact withFrames_refused h
  | sendn sess count => exact withFrames_refused h
  | _ => simp [framesNeeded] at h

/-! ### Operations that run -/

/-- An operation accepted in a state, but not in `Unbound`, has a handle and a name there (R36 (I1)). -/
theorem SessionInv.handle_name_of_accepted {r : Session} (hi : SessionInv r) {i : Instr}
    (hu : acceptedIn i .unbound = false) (ha : acceptedIn i r.state = true) :
    ∃ h n, r.handle = some h ∧ r.name = some n := by
  have hst : r.state ≠ .unbound := fun h => by simp [h, hu] at ha
  obtain ⟨h, hh⟩ := Option.ne_none_iff_exists'.mp (mt hi.handle_none.mp hst)
  obtain ⟨n, hn⟩ := Option.ne_none_iff_exists'.mp (mt hi.name_none.mp hst)
  exact ⟨h, n, hh, hn⟩

/-- A session operation on a session of the arena has a next state if its body has one (R63). -/
theorem sessionOp_has_next {sess : BitVec 8} {i : Instr} {s : State} {body : Nat → InFlight → Session → State → Result}
    (hin : sess.toNat < s.sessions.length)
    (hbody : ∀ r u, s.sessions[sess.toNat]? = some r → acceptedIn i r.state = true →
      ∃ t, body sess.toNat (startFlight i s.port) r u = .next t) :
    ∃ t, sessionOp sess i s body = .next t := by
  rcases sessionOp_cases sess i s body with ⟨hnone, -⟩ | ⟨r, hr, ⟨-, he⟩ | ⟨-, -, he⟩ | ⟨-, ha, he⟩⟩
  · exact absurd hin (by simpa using hnone)
  · exact ⟨_, he⟩
  · exact ⟨_, he⟩
  · rw [he]
    exact hbody r _ hr ha

/-- The same for an operation that acts on the session's handle: the invariant of the records gives it one. -/
theorem handleOp_has_next {sess : BitVec 8} {i : Instr} {s : State}
    {body : Nat → InFlight → Session → State → Handle → Result}
    (hs : ∀ (k : Nat) (r : Session), s.sessions[k]? = some r → SessionInv r) (hin : sess.toNat < s.sessions.length)
    (hu : acceptedIn i .unbound = false)
    (hbody : ∀ r u h n, r.name = some n → ∃ t, body sess.toNat (startFlight i s.port) r u h = .next t) :
    ∃ t, sessionOp sess i s (fun k f r u => withHandle r (body k f r u)) = .next t := by
  refine sessionOp_has_next hin fun r u hr ha => ?_
  obtain ⟨h, n, hh, hn⟩ := (hs _ r hr).handle_name_of_accepted hu ha
  obtain ⟨t, ht⟩ := hbody r u h n hn
  exact ⟨t, by simp [withHandle, hh, ht]⟩

theorem probe_has_next {id : Capability} {sess : BitVec 8} {i : Instr} {s : State}
    (hs : ∀ (k : Nat) (r : Session), s.sessions[k]? = some r → SessionInv r) (hin : sess.toNat < s.sessions.length)
    (hu : acceptedIn i .unbound = false) : ∃ t, probe id sess i s = .next t := by
  rw [probe]
  exact handleOp_has_next hs hin hu fun _ _ _ _ _ => ⟨_, rfl⟩

/-- R12, R240 (1): where the session records have their invariant, an operation on a session of the arena whose frames are
present and of legal length has a next state. -/
theorem exec_has_next {i : Instr} {s : State} (hs : ∀ (k : Nat) (r : Session), s.sessions[k]? = some r → SessionInv r)
    (hop : isOperation i = true) (hw : i.wellFormed s.sessions.length = true)
    (hf : framesRefused (framesNeeded i) s.port.framesIn = none) : ∃ t, exec i s = .next t := by
  have hin : ∀ sess, i.session? = some sess → sess.toNat < s.sessions.length := fun sess h =>
    of_decide_eq_true ((wellFormed_of_session h _).symm.trans hw)
  cases i with
  | encArb => exact ⟨_, rfl⟩
  | encFd => exact ⟨_, rfl⟩
  | decArb =>
    simp only [exec, execDecArb]
    split <;> exact ⟨_, rfl⟩
  | decFd =>
    simp only [exec, execDecFd]
    split <;> exact ⟨_, rfl⟩
  | errtext => exact ⟨_, rfl⟩
  | discover sess =>
    rw [exec, execDiscover]
    refine sessionOp_has_next (hin sess rfl) fun r u _ _ => ?_
    split <;> exact ⟨_, rfl⟩
  | openSess sess type mode =>
    rw [exec, execOpen]
    refine sessionOp_has_next (hin sess rfl) fun r u _ _ => ?_
    split
    · exact ⟨_, rfl⟩
    · split <;> exact ⟨_, rfl⟩
  | cfgArbRaw sess =>
    rw [exec, execCfgArbRaw]
    exact sessionOp_has_next (hin sess rfl) fun _ _ _ _ => ⟨_, rfl⟩
  | cfgArbPar sess =>
    rw [exec, execCfgArbPar]
    exact sessionOp_has_next (hin sess rfl) fun _ _ _ _ => ⟨_, rfl⟩
  | cfgFdRaw sess =>
    rw [exec, execCfgFdRaw]
    exact sessionOp_has_next (hin sess rfl) fun _ _ _ _ => ⟨_, rfl⟩
  | cfgFdPar sess =>
    rw [exec, execCfgFdPar]
    exact sessionOp_has_next (hin sess rfl) fun _ _ _ _ => ⟨_, rfl⟩
  | closeSess sess =>
    rw [exec, execClose]
    exact handleOp_has_next hs (hin sess rfl) rfl fun _ _ _ _ _ => ⟨_, rfl⟩
  | apply sess temporary =>
    rw [exec, execApply]
    refine handleOp_has_next hs (hin sess rfl) rfl fun r u h n hn => ?_
    rw [hn]
    exact ⟨_, rfl⟩
  | send sess =>
    rw [exec, execSend, withFrames_passes hf]
    refine handleOp_has_next hs (hin sess rfl) rfl fun r u h n _ => ?_
    obtain ⟨fr, rest, hl⟩ := List.exists_cons_of_length_pos ((framesRefused_none _ _).mp hf).1
    simp [startFlight, hl]
  | sendn sess count =>
    rw [exec, execSendn, withFrames_passes hf]
    exact handleOp_has_next hs (hin sess rfl) rfl fun _ _ _ _ _ => ⟨_, rfl⟩
  | recv sess =>
    rw [exec, execRecv]
    exact handleOp_has_next hs (hin sess rfl) rfl fun _ _ _ _ _ => ⟨_, rfl⟩
  | recvn sess count =>
    rw [exec, execRecvn]
    exact handleOp_has_next hs (hin sess rfl) rfl fun _ _ _ _ _ => ⟨_, rfl⟩
  | probeTerm sess => exact probe_has_next hs (hin sess rfl) rfl
  | probeEcho sess => exact probe_has_next hs (hin sess rfl) rfl
  | probeBlink sess => exact probe_has_next hs (hin sess rfl) rfl
  | probeTxmode sess => exact probe_has_next hs (hin sess rfl) rfl
  | arbWord => simp [isOperation] at hop
  | fdWord => simp [isOperation] at hop

/-! ### The obligations -/

/-- Settles O5: each way of a command to be ill-formed is the first check of the step, or of the operation, that fails. -/
theorem illFormedRefused : Obligations.IllFormedRefused := by
  intro s hv
  refine ⟨fun e hd => step_of_decode_error hv hd, fun i hd => ⟨fun sess hs hn => ?_, fun hw hl => ?_, fun hw hl hf => ?_⟩⟩
  · exact step_of_not_wellFormed hv hd (by simpa [wellFormed_of_session hs] using hn)
  · rw [step_of_wellFormed hv hd hw]
    exact exec_of_framesRefused (framesRefused_missing hl)
  · rw [step_of_wellFormed hv hd hw]
    exact exec_of_framesRefused (framesRefused_tooLong hl hf)

/-- Settles O53: the step runs a well-formed command, and `exec_has_next` says that it has a next state. -/
theorem wellFormedCommandRuns : Obligations.WellFormedCommandRuns := by
  intro s i hi hv hd hop hw hf
  rw [step_of_wellFormed hv hd hw]
  exact exec_has_next hi.session hop (by rw [State.taken_sessions, hi.arena]; exact hw) hf

end Sys2Proof.Machine
end

section
/-! State: one turn of an operation (10_state.md R28, R36, R62, R63). A turn is what an operation of session `k` does from
its admission, or from an answer of the controller, up to its next call or its end. `Turn` says once what a turn can leave;
the invariant, the uniqueness of handles and the values of the read-out port each follow from it. -/

namespace Sys2Proof.Machine

/-- `u` is `s` inside a turn of session `k`: its record is changed by `w`, the events `ev` are recorded, none of its calls is
pending. -/
structure Mid (s : State) (k : Nat) (w : Session → Session) (ev : List HistEvent) (u : State) : Prop where
  sessions : u.sessions = s.sessions.modify k w
  params : u.params = s.params
  history : u.history = s.history ++ ev
  pending : ∀ j, pendingAfter j u.history = if j = k then some false else pendingAfter j s.history
  timing_wf : u.ctlTiming.wf
  written_wf : u.ctlWritten.wf
  nv_wf : u.nv.wf

/-- What may have become of the fields `state`, `name`, `handle` of the record `r` after the events `ev`: it holds its channel
only if it held it before, or its pending bind was answered with its handle (R151). -/
def KeepsOrBinds (r : Session) (k : Nat) (ev : List HistEvent) (q : Session) : Prop :=
  (q.live = true → r.live = true ∧ q.name = r.name ∧ q.handle = r.handle) ∨
    ∃ f n h, r.inflight = some f ∧ f.call = some (.bind n) ∧ q.name = some n ∧ q.handle = some h ∧
      .ctlRet (.session k) (.bound (some h)) ∈ ev

/-- One turn of session `k`, whose record in `s` is `r`, with the command in flight `f` and the events `ev` before its end. -/
inductive Turn (s : State) (k : Nat) (r : Session) (f : InFlight) (ev : List HistEvent) : State → Prop where
  /-- A DISCOVER admitted while `dlock` is taken (R151). -/
  | waits (u : State) (sess : BitVec 8) : Mid s k (Session.locked f) ev u → f.instr = .discover sess → f.call = none →
      acceptedIn f.instr r.state = true → r.inflight = none → u.dlock = s.dlock → Turn s k r f ev u
  /-- A controller call (R62). -/
  | calls (u : State) (w : Session → Session) (g : InFlight) (c : CtlCall) : Mid s k w ev u →
      (w r).calling g c = { r with busy := true, inflight := some { g with call := some c } } →
      g.instr = f.instr → g.cmd = f.cmd →
      acceptedIn f.instr r.state = true → callFits r { g with call := some c } → (∀ n, c = .bind n → s.bound n = false) →
      ((∀ sess, g.instr ≠ .discover sess) ∧ ¬r.pastDlock ∧ u.dlock = s.dlock ∨
        (∃ sess, g.instr = .discover sess) ∧ r.pastDlock ∧ u.dlock = s.dlock ∨
        (∃ sess, g.instr = .discover sess) ∧ ¬r.pastDlock ∧ s.dlock = false ∧ u.dlock = true) →
      Turn s k r f ev (u.call k g c)
  /-- The end of the operation (R63, R236); one that was in flight before the turn ends as `Ending` lists it. -/
  | ends (u : State) (w : Session → Session) (req : Nat) (kind : ResultKind) (code : Word32) (res : Results) :
      Mid s k w ev u → SessionInv ((w r).completed kind code) → KeepsOrBinds r k ev (w r) →
      (r.pastDlock ∧ u.dlock = false ∨ ¬r.pastDlock ∧ u.dlock = s.dlock) →
      (r.inflight = some f → ∃ e : Ending, e.possible f.instr = true ∧ (w r).completed kind code = r.endedWith f e) →
      Turn s k r f ev (u.complete k req kind code res)


/-! ### Inside a turn -/

/-- A turn begins with the event that its session's admission records (R35, R63). -/
theorem Mid.lock {s : State} {k : Nat} {r : Session} (hi : Inv s) (hr : s.sessions[k]? = some r) (hb : r.busy = false)
    (i : Instr) : Mid s k (Session.locked (startFlight i s.port)) [.issue s.port i] (s.lock k i) :=
  ⟨rfl, rfl, rfl, hi.pending_issue hr hb _ _, hi.timing_wf, hi.written_wf, hi.nv_wf⟩

/-- A turn begins with the return of the outstanding call (R35, R52). -/
theorem Mid.ret {s : State} {k : Nat} (hi : Inv s) (ho : s.outstanding k = true) (a : CtlAnswer) :
    Mid s k id [.ctlRet (.session k) a] (s.record (.ctlRet (.session k) a)) :=
  ⟨by simp, rfl, rfl, hi.pending_ret ho a, hi.timing_wf, hi.written_wf, hi.nv_wf⟩

/-- A turn begins with the grant of `dlock`, which records nothing (R151). -/
theorem Mid.grant {s : State} {k : Nat} (hi : Inv s) (ho : s.outstanding k = false) : Mid s k id [] s :=
  ⟨by simp, rfl, by simp, fun j => by split <;> simp_all [hi.calls], hi.timing_wf, hi.written_wf, hi.nv_wf⟩

section
variable {s u : State} {k : Nat} {w : Session → Session} {ev : List HistEvent}

theorem Mid.update (m : Mid s k w ev u) (g : Session → Session) : Mid s k (g ∘ w) ev (u.updSession k g) :=
  ⟨by simp [m.sessions, modify_modify], m.params, m.history, m.pending, m.timing_wf, m.written_wf, m.nv_wf⟩

theorem Mid.dlock (m : Mid s k w ev u) (b : Bool) : Mid s k w ev { u with dlock := b } :=
  ⟨m.sessions, m.params, m.history, m.pending, m.timing_wf, m.written_wf, m.nv_wf⟩

theorem Mid.forgetTiming (m : Mid s k w ev u) (h : Handle) : Mid s k w ev (u.forgetTiming h) :=
  ⟨m.sessions, m.params, m.history, m.pending, Memory.erase_wf (Memory.erase_wf m.timing_wf _) _, m.written_wf, m.nv_wf⟩

theorem Mid.writeTiming (m : Mid s k w ev u) (h : Handle) (ph : Phase) (v : Word) :
    Mid s k w ev (u.writeTiming h ph v) :=
  ⟨m.sessions, m.params, m.history, m.pending, Memory.write_wf m.timing_wf _ _, Memory.write_wf m.written_wf _ _, m.nv_wf⟩

theorem Mid.writeNv (m : Mid s k w ev u) (n : Name) (ph : Phase) (v : Word) : Mid s k w ev (u.writeNv n ph v) :=
  ⟨m.sessions, m.params, m.history, m.pending, m.timing_wf, m.written_wf, Memory.write_wf m.nv_wf _ _⟩

theorem Mid.applied (m : Mid s k w ev u) (b : Bool) (h : Handle) (ph : Phase) (v : Word) :
    Mid s k w ev (u.applied b k h ph v) := by
  unfold State.applied
  split
  · exact (m.writeTiming h ph v).writeNv _ ph v
  · exact m.writeTiming h ph v

theorem Mid.record_eq (m : Mid s k w ev u) {r : Session} (hr : s.sessions[k]? = some r) : u.sessions[k]? = some (w r) := by
  simp [m.sessions, hr]

end

@[simp] theorem State.applied_dlock (s : State) (b : Bool) (k : Nat) (h : Handle) (ph : Phase) (v : Word) :
    (s.applied b k h ph v).dlock = s.dlock := by
  unfold State.applied
  split <;> rfl

/-! ### What a turn means for the invariant -/

theorem Session.not_pastDlock_of_idle {r : Session} (hf : r.inflight = none) : ¬r.pastDlock := by
  simp [Session.pastDlock, hf]

/-- R36: a turn keeps the invariant. -/
theorem Turn.inv {s t : State} {k : Nat} {r : Session} {f : InFlight} {ev : List HistEvent} (hi : Inv s)
    (hr : s.sessions[k]? = some r) (ht : Turn s k r f ev t) : Inv t := by
  cases ht with
  | waits _ sess m hd hc ha hidle hdl =>
    have hfit : callFits r f := by simp [callFits, hd, hc]
    have hpd : ¬r.pastDlock := Session.not_pastDlock_of_idle hidle
    have hpd' : ¬(Session.locked f r).pastDlock := by simp [Session.pastDlock, hc]
    refine hi.update hr (m.record_eq hr) (fun j hj => ?_) ?_ m.params ((hi.session k r hr).flight ha hfit)
      (.inl fun hl => ⟨hl, rfl⟩) (.inl ⟨iff_of_false hpd' hpd, hdl⟩) ?_ (fun j => ?_) m.timing_wf m.written_wf m.nv_wf
    · simp [m.sessions, Ne.symm hj]
    · simp [m.sessions]
    · intro g n hg hn
      simp only [Session.locked_inflight, Option.some.injEq] at hg
      simp [← hg, hc] at hn
    · rw [m.pending]
      simp [Session.callOut, hc]
  | calls u w g c m hw hgi hgc ha hfit hfree hdl =>
    refine hi.call hr m.sessions m.params g c (hw ▸ (hi.session k r hr).flight (hgi ▸ ha) hfit) ?_ hdl hfree m.pending
      m.timing_wf m.written_wf m.nv_wf
    have hst : (w r).state = r.state := show ((w r).calling g c).state = r.state by rw [hw]
    have hn : (w r).name = r.name := show ((w r).calling g c).name = r.name by rw [hw]
    exact fun hl => ⟨by simpa [Session.live, hst] using hl, hn⟩
  | ends u w req kind code res m hsi hkeep hdl hend =>
    refine hi.complete hr m.sessions m.params req kind code res hsi ?_ hdl m.pending m.timing_wf m.written_wf m.nv_wf
    rcases hkeep with h | ⟨f, n, h, hf, hc, hn, -⟩
    · exact .inl fun hl => ⟨(h hl).1, (h hl).2.1⟩
    · exact .inr ⟨f, n, hf, hc, hn⟩


/-! ### The records a turn writes -/

theorem SessionInv.closed {r : Session} (hi : SessionInv r) (hs : r.state = .opened) (kind : ResultKind) (code : Word32) :
    SessionInv (r.closedNow.completed kind code) := by
  obtain ⟨h1, h2, h3, h4, -, h6, h7, -, -, -⟩ := hi
  simp only [hs, reduceCtorEq, or_self, iff_false] at h1 h2 h3 h4
  exact .of_idle (by simpa using h1) (by simpa using h2) (by simpa using h3) (by simpa using h4) (by simp) h6 h7 rfl rfl

theorem SessionInv.discovered {r : Session} (hi : SessionInv r) (hs : r.state = .unbound) (n : Name) (h : Handle)
    (kind : ResultKind) (code : Word32) : SessionInv ((r.discoveredAs n h).completed kind code) := by
  obtain ⟨-, -, h3, h4, -, h6, h7, -, -, -⟩ := hi
  simp only [hs, true_or, iff_true] at h3 h4
  exact .of_idle (by simp) (by simp) (by simpa using h3) (by simpa using h4) (by simp) h6 h7 rfl rfl

theorem SessionInv.opened {r : Session} (hi : SessionInv r) (hs : r.state = .discovered) {type : OpenType}
    (ht : type ≠ .fdNoIso) (kind : ResultKind) (code : Word32) :
    SessionInv ((r.openedAs type .normal).completed kind code) := by
  obtain ⟨h1, h2, -, -, -, -, -, -, -, -⟩ := hi
  simp only [hs, reduceCtorEq, iff_false] at h1 h2
  exact .of_idle (by simpa using h1) (by simpa using h2) (by simp) (by simp) (by simp) (by simpa using ht) (.inr rfl) rfl rfl

theorem SessionInv.staged {r : Session} (hi : SessionInv r) (hs : r.live = true) (ph : Phase) (v : Word)
    (kind : ResultKind) (code : Word32) : SessionInv ((r.staged ph v).completed kind code) := by
  have hst : r.state ≠ .unbound := fun h => by simp [Session.live, acceptsBound, h] at hs
  refine .of_idle (by simpa using hi.name_none) (by simpa using hi.handle_none) (by simpa using hi.type_none)
    (by simpa using hi.mode_none) (fun h => absurd (by simpa using h) hst) (by simpa using hi.type_value)
    (by simpa using hi.mode_value) rfl rfl

/-! ### The turn of an operation that goes on with an answer -/

section
variable {s u t : State} {k : Nat} {r : Session} {f : InFlight} {ev : List HistEvent} {sess : BitVec 8}

theorem KeepsOrBinds.refl (r : Session) (k : Nat) (ev : List HistEvent) : KeepsOrBinds r k ev r :=
  .inl fun h => ⟨h, rfl, rfl⟩

/-- A record with a call outstanding is busy, so only the flight changes when the next call is issued. -/
theorem SessionInv.calling_eq (hi : SessionInv r) (hf : r.inflight = some f) (g : InFlight) (c : CtlCall) :
    r.calling g c = { r with busy := true, inflight := some { g with call := some c } } := by
  have hb : r.busy = true := by rw [hi.busy_flight, hf]; rfl
  simp [Session.calling, hb]

theorem Session.not_pastDlock (hf : r.inflight = some f) (hnd : ∀ sess, f.instr ≠ .discover sess) : ¬r.pastDlock := by
  rintro ⟨g, sess, hg, hd, -⟩
  rw [hf] at hg
  cases hg
  exact hnd sess hd

theorem Session.okWrites_self (hnd : ∀ sess, f.instr ≠ .discover sess) (hnc : ∀ sess, f.instr ≠ .closeSess sess)
    (h : Handle) (r : Session) : r.okWrites f h = r := by
  unfold Session.okWrites
  split
  case _ sess hi => exact absurd hi (hnd sess)
  case _ sess hi => exact absurd hi (hnc sess)
  case _ => rfl

/-- The end with an error of an operation that was in flight. -/
theorem Turn.fails (hi : SessionInv r) (m : Mid s k id ev u)
    (hd : r.pastDlock ∧ u.dlock = false ∨ ¬r.pastDlock ∧ u.dlock = s.dlock) (kind : ResultKind) (code : Word32)
    (hp : (Ending.error kind code).possible f.instr = true) (req : Nat) (res : Results) :
    Turn s k r f ev (u.complete k req kind code res) :=
  .ends u id req kind code res m (hi.completed kind code) (.refl r k ev) hd fun _ => ⟨.error kind code, hp, rfl⟩

/-- The end with `Ok` of an operation that was in flight and writes nothing of the record (R176, R191 to R195, R210). -/
theorem Turn.succeeds (hi : SessionInv r) (hf : r.inflight = some f) (m : Mid s k id ev u)
    (hnd : ∀ sess, f.instr ≠ .discover sess) (hnc : ∀ sess, f.instr ≠ .closeSess sess) (hd : u.dlock = s.dlock) (req : Nat)
    (res : Results) : Turn s k r f ev (u.complete k req .ok 0#32 res) := by
  refine .ends u id req .ok 0#32 res m (hi.completed .ok 0#32) (.refl r k ev)
    (.inr ⟨Session.not_pastDlock hf hnd, hd⟩) fun _ => ⟨.ok ⟨0#64⟩, rfl, ?_⟩
  rw [Session.endedWith, Session.okWrites_self hnd hnc]
  rfl

/-- The next call of an operation that was in flight, other than DISCOVER's (R62). -/
theorem Turn.goesOn (hi : SessionInv r) (hf : r.inflight = some f) (m : Mid s k id ev u)
    (hnd : ∀ sess, f.instr ≠ .discover sess) (hd : u.dlock = s.dlock) (g : InFlight) (c : CtlCall)
    (hgi : g.instr = f.instr) (hgc : g.cmd = f.cmd) (hfit : callFits r { g with call := some c })
    (hnb : ∀ n, c ≠ .bind n) : Turn s k r f ev (u.call k g c) :=
  .calls u id g c m (hi.calling_eq hf g c) hgi hgc (hi.flight_accepted f hf) hfit (fun n h => absurd h (hnb n))
    (.inl ⟨hgi ▸ hnd, Session.not_pastDlock hf hnd, hd⟩)

/-- R191. -/
theorem resumeSend_turn (hi : SessionInv r) (hf : r.inflight = some f) (m : Mid s k id ev u) (hd : u.dlock = s.dlock)
    {a : CtlAnswer} (hfi : f.instr = .send sess) (h : resumeSend k f a u = some t) : Turn s k r f ev t := by
  have hnp : ¬r.pastDlock := Session.not_pastDlock hf (by simp [hfi])
  unfold resumeSend at h
  split at h <;> cases h
  · exact .succeeds hi hf m (by simp [hfi]) (by simp [hfi]) hd _ _
  · exact .fails hi m (.inr ⟨hnp, hd⟩) _ _ (by simp [hfi, Ending.possible, allowedKinds]) _ _
  · exact .fails hi m (.inr ⟨hnp, hd⟩) _ _ (by simp [hfi, Ending.possible, allowedKinds]) _ _

/-- R194. -/
theorem resumeRecv_turn (hi : SessionInv r) (hf : r.inflight = some f) (m : Mid s k id ev u) (hd : u.dlock = s.dlock)
    {a : CtlAnswer} (hfi : f.instr = .recv sess) (h : resumeRecv k f a u = some t) : Turn s k r f ev t := by
  have hnp : ¬r.pastDlock := Session.not_pastDlock hf (by simp [hfi])
  unfold resumeRecv at h
  split at h <;> cases h
  · exact .succeeds hi hf m (by simp [hfi]) (by simp [hfi]) hd _ _
  · exact .fails hi m (.inr ⟨hnp, hd⟩) _ _ (by simp [hfi, Ending.possible, allowedKinds]) _ _
  · exact .fails hi m (.inr ⟨hnp, hd⟩) _ _ (by simp [hfi, Ending.possible, allowedKinds]) _ _

/-- R210. -/
theorem resumeProbe_turn (hi : SessionInv r) (hf : r.inflight = some f) (m : Mid s k id ev u) (hd : u.dlock = s.dlock)
    {a : CtlAnswer} (hfi : f.instr ∈ [.probeTerm sess, .probeEcho sess, .probeBlink sess, .probeTxmode sess])
    (h : resumeProbe k f a u = some t) : Turn s k r f ev t := by
  have hk : (∀ sess, f.instr ≠ .discover sess) ∧ (∀ sess, f.instr ≠ .closeSess sess) ∧
      ResultKind.unsupportedFeature ∈ allowedKinds f.instr := by
    simp only [List.mem_cons, List.not_mem_nil, or_false] at hfi
    rcases hfi with h | h | h | h <;> simp [h, allowedKinds]
  obtain ⟨hnd, hnc, hk⟩ := hk
  unfold resumeProbe at h
  split at h <;> cases h
  · exact .succeeds hi hf m hnd hnc hd _ _
  · exact .fails hi m (.inr ⟨Session.not_pastDlock hf hnd, hd⟩) _ _ (by simp [Ending.possible, hk]) _ _

/-- R193. -/
theorem resumeSendn_turn (hi : SessionInv r) (hf : r.inflight = some f) (m : Mid s k id ev u) (hd : u.dlock = s.dlock)
    {a : CtlAnswer} {count : BitVec 16} (hfi : f.instr = .sendn sess count)
    (h : resumeSendn count.toNat k f a u = some t) : Turn s k r f ev t := by
  have hnp : ¬r.pastDlock := Session.not_pastDlock hf (by simp [hfi])
  obtain ⟨h0, fr, hh, hc⟩ : ∃ h fr, r.handle = some h ∧ f.call = some (.transmit h fr f.cmd.low32) := by
    simpa [callFits, hfi] using hi.flight_call f hf
  unfold resumeSendn at h
  split at h <;> cases h
  case _ hcall =>
    rw [hc] at hcall
    cases hcall
    unfold sendnFrom
    split
    · exact .goesOn hi hf m (by simp [hfi]) hd _ _ rfl rfl (by simp [callFits, hfi, hh]) (by simp)
    · exact .succeeds hi hf m (by simp [hfi]) (by simp [hfi]) hd _ _
  · exact .fails hi m (.inr ⟨hnp, hd⟩) _ _ (by simp [hfi, Ending.possible, allowedKinds]) _ _
  · exact .fails hi m (.inr ⟨hnp, hd⟩) _ _ (by simp [hfi, Ending.possible, allowedKinds]) _ _

/-- R195. -/
theorem resumeRecvn_turn (hi : SessionInv r) (hf : r.inflight = some f) (m : Mid s k id ev u) (hd : u.dlock = s.dlock)
    {a : CtlAnswer} {count : BitVec 16} (hfi : f.instr = .recvn sess count)
    (h : resumeRecvn count.toNat k f a u = some t) : Turn s k r f ev t := by
  have hnp : ¬r.pastDlock := Session.not_pastDlock hf (by simp [hfi])
  obtain ⟨h0, hh, hc⟩ : ∃ h, r.handle = some h ∧ f.call = some (.receive h f.cmd.low32) := by
    simpa [callFits, hfi] using hi.flight_call f hf
  unfold resumeRecvn at h
  split at h <;> cases h
  case _ hcall =>
    rw [hc] at hcall
    cases hcall
    unfold recvnFrom
    split
    · exact .goesOn hi hf m (by simp [hfi]) hd _ _ rfl rfl (by simp [callFits, hfi, hh]) (by simp)
    · exact .succeeds hi hf m (by simp [hfi]) (by simp [hfi]) hd _ _
  · exact .fails hi m (.inr ⟨hnp, hd⟩) _ _ (by simp [hfi, Ending.possible, allowedKinds]) _ _
  · exact .fails hi m (.inr ⟨hnp, hd⟩) _ _ (by simp [hfi, Ending.possible, allowedKinds]) _ _

/-- R176. -/
theorem resumeApply_turn (hi : SessionInv r) (hf : r.inflight = some f) (m : Mid s k id ev u) (hd : u.dlock = s.dlock)
    (hr : s.sessions[k]? = some r) {a : CtlAnswer} {b : Bool} (hfi : f.instr = .apply sess b)
    (h : resumeApply b k f a u = some t) : Turn s k r f ev t := by
  have hnp : ¬r.pastDlock := Session.not_pastDlock hf (by simp [hfi])
  obtain ⟨h0, ph, v, hh, -, hc⟩ :
      ∃ h ph v, r.handle = some h ∧ r.stagedWord ph = some v ∧ f.call = some (.writeTiming h ph v) := by
    simpa only [callFits, hfi] using hi.flight_call f hf
  unfold resumeApply at h
  split at h <;> cases h
  case _ hcall =>
    rw [hc] at hcall
    cases hcall
    have m' := m.applied b h0 .arb v
    have hst : (u.applied b k h0 .arb v).fdStaged? k = r.fdStaged := by simp [State.fdStaged?, m'.record_eq hr]
    unfold applyFd
    split
    case _ w hw =>
      rw [hst] at hw
      exact .goesOn hi hf m' (by simp [hfi]) (by simpa using hd) _ _ rfl rfl
        (by simp only [callFits, hfi]; exact ⟨h0, .fd, w, hh, hw, rfl⟩) (by simp)
    · exact .succeeds hi hf m' (by simp [hfi]) (by simp [hfi]) (by simpa using hd) _ _
  · exact .succeeds hi hf (m.applied b _ .fd _) (by simp [hfi]) (by simp [hfi]) (by simpa using hd) _ _

/-- R153. -/
theorem resumeClose_turn (hi : SessionInv r) (hf : r.inflight = some f) (m : Mid s k id ev u) (hd : u.dlock = s.dlock)
    {a : CtlAnswer} (hfi : f.instr = .closeSess sess) (h : resumeClose k f a u = some t) : Turn s k r f ev t := by
  have hnp : ¬r.pastDlock := Session.not_pastDlock hf (by simp [hfi])
  have hop : r.state = .opened := by simpa [hfi, acceptedIn, acceptsOpen] using hi.flight_accepted f hf
  unfold resumeClose at h
  split at h <;> cases h
  refine .ends _ _ _ .ok 0#32 _ ((m.forgetTiming _).update Session.closedNow) ?_ (.inl ?_) (.inr ⟨hnp, hd⟩) fun _ =>
    ⟨.ok ⟨0#64⟩, rfl, ?_⟩
  · exact hi.closed hop .ok 0#32
  · simp [Session.live, acceptsBound]
  · simp [Session.endedWith, Session.okWrites, hfi]

/-- R151. -/
theorem resumeDiscover_turn (hi : SessionInv r) (hf : r.inflight = some f) (m : Mid s k id ev u) (hd : u.dlock = s.dlock)
    {a : CtlAnswer} (hev : .ctlRet (.session k) a ∈ ev) (hb : ∀ n, u.bound n = s.bound n)
    (hfi : f.instr = .discover sess) (h : resumeDiscover k f a u = some t) : Turn s k r f ev t := by
  have hun : r.state = .unbound := by simpa [hfi, acceptedIn, acceptsUnbound] using hi.flight_accepted f hf
  have hpd : f.call ≠ none → r.pastDlock := fun hc => ⟨f, sess, hf, hfi, hc⟩
  have hfail : ∀ kind, (Ending.error kind 0#32).possible f.instr = true → f.call ≠ none →
      Turn s k r f ev (u.raiseDiscover k f.cmd.req kind) :=
    fun kind hp hc => .fails hi (m.dlock false) (.inl ⟨hpd hc, rfl⟩) kind 0#32 hp _ {}
  unfold resumeDiscover at h
  split at h <;> cases h
  case _ names hcall =>
    unfold discoverNamed
    split
    · exact hfail _ (by simp [hfi, Ending.possible, allowedKinds]) (by simp [hcall])
    · split
      · exact hfail _ (by simp [hfi, Ending.possible, allowedKinds]) (by simp [hcall])
      · rename_i hfree
        refine .calls u id f _ m (hi.calling_eq hf f _) rfl rfl (hi.flight_accepted f hf) (by simp [callFits, hfi]) ?_
          (.inr (.inl ⟨⟨sess, hfi⟩, hpd (by simp [hcall]), hd⟩))
        rintro n ⟨⟩
        rw [← hb]
        simpa using hfree
  case _ n hcall => exact hfail _ (by simp [hfi, Ending.possible, allowedKinds]) (by simp [hcall])
  case _ n h hcall =>
    obtain ⟨-, rfl⟩ := hi.bind_pastDlock hf hcall
    refine .ends _ _ _ .ok 0#32 _ ((m.update (Session.discoveredAs _ h)).dlock false) (hi.discovered hun _ h .ok 0#32)
      (.inr ⟨f, _, h, hf, hcall, rfl, rfl, hev⟩) (.inl ⟨hpd (by simp [hcall]), rfl⟩) fun _ => ⟨.ok h, rfl, ?_⟩
    simp [Session.endedWith, Session.okWrites, hfi]

/-- R52: an answer to the outstanding call of session `k` takes a turn of its operation. -/
theorem resumeAny_turn (hi : SessionInv r) (hf : r.inflight = some f) (m : Mid s k id ev u) (hd : u.dlock = s.dlock)
    (hr : s.sessions[k]? = some r) {a : CtlAnswer} (hev : .ctlRet (.session k) a ∈ ev) (hb : ∀ n, u.bound n = s.bound n)
    (h : resumeAny k f a u = some t) : Turn s k r f ev t := by
  unfold resumeAny at h
  cases hfi : f.instr <;> simp only [hfi, reduceCtorEq] at h
  case discover => exact resumeDiscover_turn hi hf m hd hev hb hfi h
  case closeSess => exact resumeClose_turn hi hf m hd hfi h
  case apply => exact resumeApply_turn hi hf m hd hr hfi h
  case send => exact resumeSend_turn hi hf m hd hfi h
  case sendn => exact resumeSendn_turn hi hf m hd hfi h
  case recv => exact resumeRecv_turn hi hf m hd hfi h
  case recvn => exact resumeRecvn_turn hi hf m hd hfi h
  case probeTerm sess => exact resumeProbe_turn (sess := sess) hi hf m hd (by simp [hfi]) h
  case probeEcho sess => exact resumeProbe_turn (sess := sess) hi hf m hd (by simp [hfi]) h
  case probeBlink sess => exact resumeProbe_turn (sess := sess) hi hf m hd (by simp [hfi]) h
  case probeTxmode sess => exact resumeProbe_turn (sess := sess) hi hf m hd (by simp [hfi]) h

end

theorem settle_complete (s : State) (k req : Nat) (kind : ResultKind) (code : Word32) (res : Results) :
    settle k (s.complete k req kind code res) = s.complete k req kind code res := drain_complete ..

theorem Inv.env {s : State} (hi : Inv s) (l : List EnvEvent) : Inv { s with env := l } :=
  hi.congr rfl rfl rfl (fun _ => rfl) hi.timing_wf hi.written_wf hi.nv_wf

theorem answered_turn {s t : State} {k : Nat} {a : CtlAnswer} (hi : Inv s) (h : answered k a s = some t) :
    ∃ r f, s.sessions[k]? = some r ∧ r.inflight = some f ∧ Turn s k r f [.ctlRet (.session k) a] t := by
  obtain ⟨f, c, hf, hc, -, hres⟩ := answered_some h
  obtain ⟨r, hr, hrf⟩ := inflight?_some hf
  have ho : s.outstanding k = true := by simp [State.outstanding, hf, hc]
  exact ⟨r, f, hr, hrf, resumeAny_turn (hi.session k r hr) hrf (.ret hi ho a) rfl hr (by simp) (fun _ => rfl) hres⟩

/-- R36: the operation in flight keeps the invariant through every answer. -/
theorem settle_inv {s : State} (hi : Inv s) (k : Nat) : Inv (settle k s) :=
  settle_keeps (P := Inv) k (fun rest a u v hu ha => by
    obtain ⟨r, f, hr, -, ht⟩ := answered_turn (hu.env rest) ha
    exact ht.inv (hu.env rest) hr) s hi

theorem waitsForDlock_some {s : State} {k : Nat} {f : InFlight} (h : s.waitsForDlock k = some f) :
    s.inflight? k = some f ∧ (∃ sess, f.instr = .discover sess) ∧ f.call = none := by
  unfold State.waitsForDlock at h
  split at h
  case _ g hg =>
    split at h <;> cases h
    case _ sess hi hc => exact ⟨hg, ⟨sess, hi⟩, hc⟩
  case _ => cases h

/-- A DISCOVER that waited for `dlock` takes its turn when it gets it (R151). -/
theorem grant_turn {s : State} {k : Nat} {f : InFlight} (hi : Inv s) (hw : s.waitsForDlock k = some f)
    (hd : s.dlock = false) :
    ∃ r, s.sessions[k]? = some r ∧ r.inflight = some f ∧ Turn s k r f [] (discoverEnumerate k f s) := by
  obtain ⟨hf, ⟨sess, hfi⟩, hc⟩ := waitsForDlock_some hw
  obtain ⟨r, hr, hrf⟩ := inflight?_some hf
  have hsi := hi.session k r hr
  have hnp : ¬r.pastDlock := by simp [Session.pastDlock, hrf, hc]
  have m := (Mid.grant hi (k := k) (by simp [State.outstanding, hf, hc])).dlock true
  exact ⟨r, hr, hrf, .calls _ id f .enumerate m (hsi.calling_eq hrf f _) rfl rfl (hsi.flight_accepted f hrf)
    (by simp [callFits, hfi]) (by simp) (.inr (.inr ⟨⟨sess, hfi⟩, hnp, hd, rfl⟩))⟩

/-! ### The turn of an operation that is admitted -/

section
variable {s t u : State} {k : Nat} {r : Session} {i : Instr} {sess : BitVec 8}

/-- The end of an operation within its first turn. -/
theorem Turn.endsAtOnce {w : Session → Session} {f : InFlight} {ev : List HistEvent} (hidle : r.inflight = none)
    (m : Mid s k w ev u) (hd : u.dlock = s.dlock) (req : Nat) (kind : ResultKind) (code : Word32) (res : Results)
    (hsi : SessionInv ((w r).completed kind code))
    (hkeep : (w r).live = true → r.live = true ∧ (w r).name = r.name ∧ (w r).handle = r.handle) :
    Turn s k r f ev (u.complete k req kind code res) :=
  .ends u w req kind code res m hsi (.inl hkeep) (.inr ⟨Session.not_pastDlock_of_idle hidle, hd⟩)
    fun h => by simp [hidle] at h

/-- What is known when a session operation is admitted (R63, R150). -/
structure Admits (i : Instr) (k : Nat) (s : State) (r : Session) : Prop where
  inv : Inv s
  record : s.sessions[k]? = some r
  free : r.busy = false
  accepted : acceptedIn i r.state = true

theorem Admits.sessionInv (h : Admits i k s r) : SessionInv r := h.inv.session k r h.record

theorem Admits.idle (h : Admits i k s r) : r.inflight = none := h.sessionInv.idle_iff.mp h.free

theorem Admits.mid (h : Admits i k s r) :
    Mid s k (Session.locked (startFlight i s.port)) [.issue s.port i] (s.lock k i) := .lock h.inv h.record h.free i

/-- A state in which session `k` can be after the first turn of the operation `i`. -/
def Admitted (i : Instr) (k : Nat) (s : State) (r : Session) (t : State) : Prop :=
  ∃ u, Turn s k r (startFlight i s.port) [.issue s.port i] u ∧ t = settle k u

/-- An operation admitted with a controller call to make, other than DISCOVER (R62). -/
theorem Admits.calls (h : Admits i k s r) (hnd : ∀ sess, i ≠ .discover sess) (g : InFlight) (c : CtlCall) (hgi : g.instr = i)
    (hgc : g.cmd = s.port) (hfit : callFits r { g with call := some c }) (hnb : ∀ n, c ≠ .bind n) :
    Admitted i k s r (settle k ((s.lock k i).call k g c)) :=
  ⟨_, .calls _ _ g c h.mid rfl hgi hgc h.accepted hfit (fun n e => absurd e (hnb n))
    (.inl ⟨hgi ▸ hnd, Session.not_pastDlock_of_idle h.idle, rfl⟩), rfl⟩

/-- An operation that ends at its admission and writes nothing of the record but `last_error`. -/
theorem Admits.ends (h : Admits i k s r) (req : Nat) (kind : ResultKind) (code : Word32) (res : Results) :
    Admitted i k s r ((s.lock k i).complete k req kind code res) :=
  ⟨_, .endsAtOnce h.idle h.mid rfl req kind code res (h.sessionInv.completed kind code) fun hl => ⟨hl, rfl, rfl⟩,
    (settle_complete ..).symm⟩

/-- An operation that writes the record with `g` and ends at its admission (R152, R171 to R174). -/
theorem Admits.writes (h : Admits i k s r) (g : Session → Session) (req : Nat) (res : Results)
    (hsi : SessionInv ((g (Session.locked (startFlight i s.port) r)).completed .ok 0#32)) (hlive : r.live = true)
    (hkeep : ∀ q, (g q).name = q.name ∧ (g q).handle = q.handle) :
    Admitted i k s r (((s.lock k i).updSession k g).finishOk k req res) :=
  ⟨_, .endsAtOnce h.idle (h.mid.update g) rfl req .ok 0#32 res hsi fun _ => ⟨hlive, hkeep _⟩, (settle_complete ..).symm⟩

/-- An operation that stages a word and ends at its admission (R171 to R174). -/
theorem Admits.stages (h : Admits i k s r) (hlive : r.live = true) (ph : Phase) (v : Word) (req : Nat) (res : Results) :
    Admitted i k s r (((s.lock k i).stage k ph v).finishOk k req res) :=
  h.writes (Session.staged ph v) req res
    (by have hsi := h.sessionInv.staged hlive ph v .ok 0#32; cases ph <;> exact hsi) hlive fun _ => by simp

/-- The end of a parameter form (R172, R174). -/
theorem Admits.stagesEncoded (h : Admits i k s r) (hlive : r.live = true) (ph : Phase) (w : Option Word) (f : InFlight) :
    Admitted i k s r (stageEncoded k f ph w (s.lock k i)) := by
  unfold stageEncoded
  split
  · exact h.stages hlive ..
  · exact h.ends ..

/-- R63, R150: what a session operation leaves, by what its body leaves once it is admitted. -/
theorem sessionOp_turn {body : Nat → InFlight → Session → State → Result} (hi : Inv s)
    (hbody : ∀ r, Admits i sess.toNat s r →
      body sess.toNat (startFlight i s.port) r (s.lock sess.toNat i) = .next t → Admitted i sess.toNat s r t)
    (h : sessionOp sess i s body = .next t) :
    t = s.hold i ∨ ∃ r, s.sessions[sess.toNat]? = some r ∧ r.busy = false ∧ Admitted i sess.toNat s r t := by
  rcases sessionOp_cases sess i s body with ⟨-, he⟩ | ⟨r, hr, ⟨-, he⟩ | ⟨hb, -, he⟩ | ⟨hb, ha, he⟩⟩ <;> rw [he] at h
  · cases h
  · cases h
    exact .inl rfl
  · cases h
    have hsi := hi.session _ r hr
    exact .inr ⟨r, hr, hb, _, .endsAtOnce (hsi.idle_iff.mp hb) (.lock hi hr hb i) rfl _ _ _ _ (hsi.completed _ _)
      fun hl => ⟨hl, rfl, rfl⟩, (settle_complete ..).symm⟩
  · exact .inr ⟨r, hr, hb, hbody r ⟨hi, hr, hb, ha⟩ h⟩

theorem probe_turn {id : Capability} (hi : Inv s) (hnd : ∀ sess, i ≠ .discover sess)
    (hfit : ∀ (r : Session) (h : Handle) (f : InFlight), r.handle = some h → f.instr = i →
      callFits r { f with call := some (.queryCapability h id) })
    (h : probe id sess i s = .next t) :
    t = s.hold i ∨ ∃ r, s.sessions[sess.toNat]? = some r ∧ r.busy = false ∧ Admitted i sess.toNat s r t := by
  refine sessionOp_turn hi (fun r ha hb => ?_) h
  obtain ⟨hd, hh, hb⟩ := withHandle_next hb
  cases hb
  exact ha.calls hnd _ _ rfl rfl (hfit r hd _ hh rfl) (by simp)

/-- R63, R68: a session operation is held, or takes its first turn and then those its answers give it. -/
theorem exec_turn (hi : Inv s) (hs : i.session? = some sess) (h : exec i s = .next t) :
    t = s.hold i ∨ ∃ r, s.sessions[sess.toNat]? = some r ∧ r.busy = false ∧ Admitted i sess.toNat s r t := by
  cases i <;> simp only [Instr.session?, Option.some.injEq, reduceCtorEq] at hs <;> subst hs <;> simp only [exec] at h
  case discover sess =>
    refine sessionOp_turn hi (fun r ha hb => ?_) h
    split at hb <;> cases hb
    · refine ⟨_, .waits _ sess ha.mid rfl rfl ha.accepted ha.idle rfl, (drain_idle ?_ _).symm⟩
      simp [State.outstanding, State.inflight?, ha.record, startFlight]
    · rename_i hd
      exact ⟨_, .calls _ _ _ _ (ha.mid.dlock true) rfl rfl rfl ha.accepted (by simp [callFits, startFlight]) (by simp)
        (.inr (.inr ⟨⟨sess, rfl⟩, Session.not_pastDlock_of_idle ha.idle, by simpa using hd, rfl⟩)), rfl⟩
  case openSess sess type mode =>
    refine sessionOp_turn hi (fun r ha hb => ?_) h
    have hst : r.state = .discovered := by simpa [acceptedIn, acceptsDiscovered] using ha.accepted
    split at hb
    · cases hb
      exact ha.ends ..
    · split at hb <;> cases hb
      · exact ha.ends ..
      · rename_i hm ht
        rw [not_not] at hm
        subst hm
        exact ha.writes _ _ _ (ha.sessionInv.opened hst ht ..) (by simp [Session.live, acceptsBound, hst])
          fun _ => ⟨rfl, rfl⟩
  case closeSess sess =>
    refine sessionOp_turn hi (fun r ha hb => ?_) h
    obtain ⟨hd, hh, hb⟩ := withHandle_next hb
    cases hb
    exact ha.calls (by simp) _ _ rfl rfl (by simp [callFits, startFlight, hh]) (by simp)
  case cfgArbRaw sess =>
    refine sessionOp_turn hi (fun r ha hb => ?_) h
    cases hb
    exact ha.stages ha.accepted ..
  case cfgArbPar sess =>
    refine sessionOp_turn hi (fun r ha hb => ?_) h
    cases hb
    exact ha.stagesEncoded ha.accepted ..
  case cfgFdRaw sess =>
    refine sessionOp_turn hi (fun r ha hb => ?_) h
    cases hb
    exact ha.stages ha.accepted ..
  case cfgFdPar sess =>
    refine sessionOp_turn hi (fun r ha hb => ?_) h
    cases hb
    exact ha.stagesEncoded ha.accepted ..
  case apply sess temporary =>
    refine sessionOp_turn hi (fun r ha hb => ?_) h
    obtain ⟨hd, hh, hb⟩ := withHandle_next hb
    split at hb <;> cases hb
    have hst : (s.lock sess.toNat (.apply sess temporary)).fdStaged? sess.toNat = r.fdStaged := by
      simp [State.fdStaged?, ha.record]
    unfold applyArb
    split
    case _ v hv =>
      exact ha.calls (by simp) _ _ rfl rfl (by simp only [callFits, startFlight]; exact ⟨hd, .arb, v, hh, hv, rfl⟩) (by simp)
    · unfold applyFd
      split
      case _ v hv =>
        rw [hst] at hv
        exact ha.calls (by simp) _ _ rfl rfl (by simp only [callFits, startFlight]; exact ⟨hd, .fd, v, hh, hv, rfl⟩) (by simp)
      · rw [State.finishOk_eq, settle_complete]
        exact ha.ends ..
  case send sess =>
    refine sessionOp_turn hi (fun r ha hb => ?_) (withFrames_next h).2
    obtain ⟨hd, hh, hb⟩ := withHandle_next hb
    split at hb <;> cases hb
    exact ha.calls (by simp) _ _ rfl rfl (by simp [callFits, startFlight, hh]) (by simp)
  case sendn sess count =>
    refine sessionOp_turn hi (fun r ha hb => ?_) (withFrames_next h).2
    obtain ⟨hd, hh, hb⟩ := withHandle_next hb
    cases hb
    unfold sendnFrom
    split
    · exact ha.calls (by simp) _ _ rfl rfl (by simp [callFits, startFlight, hh]) (by simp)
    · rw [State.finishOk_eq, settle_complete]
      exact ha.ends ..
  case recv sess =>
    refine sessionOp_turn hi (fun r ha hb => ?_) h
    obtain ⟨hd, hh, hb⟩ := withHandle_next hb
    cases hb
    exact ha.calls (by simp) _ _ rfl rfl (by simp [callFits, startFlight, hh]) (by simp)
  case recvn sess count =>
    refine sessionOp_turn hi (fun r ha hb => ?_) h
    obtain ⟨hd, hh, hb⟩ := withHandle_next hb
    cases hb
    unfold recvnFrom
    split
    · exact ha.calls (by simp) _ _ rfl rfl (by simp [callFits, startFlight, hh]) (by simp)
    · rw [State.finishOk_eq, settle_complete]
      exact ha.ends ..
  case probeTerm sess => exact probe_turn hi (by simp) (fun r h f hh hf => by simp [callFits, hf, hh]) h
  case probeEcho sess => exact probe_turn hi (by simp) (fun r h f hh hf => by simp [callFits, hf, hh]) h
  case probeBlink sess => exact probe_turn hi (by simp) (fun r h f hh hf => by simp [callFits, hf, hh]) h
  case probeTxmode sess => exact probe_turn hi (by simp) (fun r h f hh hf => by simp [callFits, hf, hh]) h

end

end Sys2Proof.Machine
end

section
/-! State: the invariant, the uniqueness of handles and the absence of faults (10_state.md R20, R29, R36, R37). What a step
can be is said once (`step_happens`); each obligation goes through its cases. -/

namespace Sys2Proof.Machine

/-! ### Operations without a session -/

/-- `t` is `s` with nothing written but what an operation without a session writes (R131, R215). -/
structure SessionlessStep (s t : State) : Prop where
  eq : t = { s with lookups := t.lookups, resp := t.resp, respTo := t.respTo, history := t.history, env := t.env }
  history : ∃ new, t.history = s.history ++ new
  pending : ∀ k, pendingAfter k t.history = pendingAfter k s.history
  env : ∃ used, s.env = used ++ t.env

theorem SessionlessStep.sessions {s t : State} (h : SessionlessStep s t) : t.sessions = s.sessions := by
  rw [h.eq]

theorem SessionlessStep.inv {s t : State} (h : SessionlessStep s t) (hi : Inv s) : Inv t := by
  refine hi.congr ?_ h.sessions ?_ h.pending ?_ ?_ ?_ <;> rw [h.eq]
  · exact hi.timing_wf
  · exact hi.written_wf
  · exact hi.nv_wf

theorem SessionlessStep.refl (s : State) : SessionlessStep s s := ⟨rfl, ⟨[], by simp⟩, fun _ => rfl, ⟨[], rfl⟩⟩

theorem SessionlessStep.trans {s t u : State} (h : SessionlessStep s t) (h' : SessionlessStep t u) :
    SessionlessStep s u := by
  obtain ⟨new, hn⟩ := h.history
  obtain ⟨new', hn'⟩ := h'.history
  obtain ⟨used, he⟩ := h.env
  obtain ⟨used', he'⟩ := h'.env
  refine ⟨?_, ⟨new ++ new', by simp [hn', hn]⟩, fun k => (h'.pending k).trans (h.pending k),
    ⟨used ++ used', by simp [he, he']⟩⟩
  rw [h'.eq, h.eq]

/-- An event of no session's call is recorded. -/
theorem record_sessionless (s : State) {e : HistEvent} (he : ∀ k acc, pendingStep k acc e = acc) :
    SessionlessStep s (s.record e) :=
  ⟨rfl, ⟨[e], rfl⟩, fun k => by rw [State.record_history, pendingAfter_snoc, he], ⟨[], rfl⟩⟩

theorem deliver_sessionless (s : State) (req : Nat) (r : Response) : SessionlessStep s (s.deliver req r) :=
  ⟨rfl, ⟨[_], rfl⟩, fun k => by rw [State.deliver_history, pendingAfter_snoc]; rfl, ⟨[], rfl⟩⟩

theorem lookups_sessionless (s : State) (l : List Cmd) : SessionlessStep s { s with lookups := l } :=
  ⟨rfl, ⟨[], by simp⟩, fun _ => rfl, ⟨[], rfl⟩⟩

theorem answerAtOnce_sessionless (s : State) (i : Instr) (kind : ResultKind) (res : Results) :
    SessionlessStep s (s.answerAtOnce i kind res) :=
  (record_sessionless s (e := .issue s.port i) fun _ _ => rfl).trans (deliver_sessionless ..)

theorem answerText_sessionless (j : Nat) (text : List Byte) (s : State) : SessionlessStep s (answerText j text s) := by
  unfold answerText
  split
  case _ c _ =>
    exact ((lookups_sessionless s _).trans (record_sessionless _ fun _ _ => rfl)).trans (deliver_sessionless ..)
  case _ => exact .refl s

theorem lookupStart_sessionless (s : State) : SessionlessStep s (lookupStart s) :=
  ((record_sessionless s (e := .issue s.port .errtext) fun _ _ => rfl).trans (lookups_sessionless ..)).trans
    (record_sessionless _ fun _ _ => rfl)

theorem settleText_sessionless (j : Nat) (s : State) : SessionlessStep s (settleText j s) := by
  unfold settleText
  split
  case _ j' text rest he =>
    split
    · have hpop : SessionlessStep s { s with env := rest } :=
        ⟨rfl, ⟨[], by simp⟩, fun _ => rfl, ⟨[.text j' text], he⟩⟩
      exact hpop.trans (answerText_sessionless ..)
    · exact .refl s
  case _ => exact .refl s

theorem exec_sessionless {i : Instr} {s t : State} (hs : i.session? = none) (h : exec i s = .next t) :
    SessionlessStep s t ∧ (i ≠ .errtext → t.lookups = s.lookups) := by
  cases i <;> simp only [Instr.session?, reduceCtorEq] at hs <;>
    simp only [exec, execEncArb, execEncFd, execDecArb, execDecFd, execErrtext, execArbWord, execFdWord, answerEncode] at h
  case errtext =>
    cases h
    exact ⟨(lookupStart_sessionless s).trans (settleText_sessionless ..), by simp⟩
  case arbWord => cases h
  case fdWord => cases h
  all_goals
    split at h <;> cases h
    · exact ⟨answerAtOnce_sessionless .., fun _ => rfl⟩
    · exact ⟨answerAtOnce_sessionless .., fun _ => rfl⟩

/-! ### What a step can be -/

/-- `u` is `s` but for the ports, the held commands and the events to come. -/
structure Alike (s u : State) : Prop where
  params : u.params = s.params
  sessions : u.sessions = s.sessions
  dlock : u.dlock = s.dlock
  history : u.history = s.history
  ctlTiming : u.ctlTiming = s.ctlTiming
  ctlWritten : u.ctlWritten = s.ctlWritten
  nv : u.nv = s.nv

theorem Alike.inv {s u : State} (h : Alike s u) (hi : Inv s) : Inv u :=
  hi.congr h.params h.sessions h.dlock (fun _ => by rw [h.history]) (h.ctlTiming ▸ hi.timing_wf)
    (h.ctlWritten ▸ hi.written_wf) (h.nv ▸ hi.nv_wf)

/-- What one step from a state with the invariant can be (R21, R52, R64, R151, R270). -/
inductive Happens (s : State) : State → Prop where
  /-- No session record changes. -/
  | still (t : State) : t.sessions = s.sessions → Inv t → Happens s t
  /-- A turn of one session, and the further turns that the next events give it. -/
  | turns (u v : State) (k : Nat) (r : Session) (f : InFlight) (ev : List HistEvent) : Alike s u →
      s.sessions[k]? = some r → (r.inflight = some f ∨ r.inflight = none) → Turn u k r f ev v → Happens s (settle k v)
  | reset (rest : List EnvEvent) : s.portValid = false → s.env = .reset :: rest →
      Happens s (State.assertReset { s with env := rest })

theorem exec_happens {i : Instr} {s u t : State} (hi : Inv s) (h : exec i u = .next t) (hu : Alike s u) :
    Happens s t := by
  cases hs : i.session? with
  | none =>
    have hq := (exec_sessionless hs h).1
    exact .still t (hq.sessions.trans hu.sessions) (hq.inv (hu.inv hi))
  | some sess =>
    rcases exec_turn (hu.inv hi) hs h with rfl | ⟨r, hr, hb, v, hv, rfl⟩
    · exact .still _ hu.sessions ((hu.inv hi).congr rfl rfl rfl (fun _ => rfl) (hu.inv hi).timing_wf (hu.inv hi).written_wf
        (hu.inv hi).nv_wf)
    · rw [hu.sessions] at hr
      exact .turns u v _ r _ _ hu hr (.inr ((hi.session _ r hr).idle_iff.mp hb)) hv

theorem Alike.env (s : State) (l : List EnvEvent) : Alike s { s with env := l } := ⟨rfl, rfl, rfl, rfl, rfl, rfl, rfl⟩

theorem onAnswer_happens {s u : State} (hi : Inv s) (hu : Alike s u) (k : Nat) (a : CtlAnswer) :
    Happens s (onAnswer k a u) := by
  unfold onAnswer
  split
  case _ v ha =>
    obtain ⟨r, f, hr, hf, ht⟩ := answered_turn (hu.inv hi) ha
    exact .turns u v k r f _ hu (hu.sessions ▸ hr) (.inl hf) ht
  case _ => exact .still u hu.sessions (hu.inv hi)

theorem onGrant_happens {s u : State} (hi : Inv s) (hu : Alike s u) (k : Nat) : Happens s (onGrant k u) := by
  unfold onGrant
  split
  case _ f hw =>
    split
    · exact .still u hu.sessions (hu.inv hi)
    case _ hd =>
      obtain ⟨r, hr, hf, ht⟩ := grant_turn (hu.inv hi) hw (by simpa using hd)
      exact .turns u _ k r f _ hu (hu.sessions ▸ hr) (.inl hf) ht
  case _ => exact .still u hu.sessions (hu.inv hi)

theorem onAdmit_happens {s u t : State} (hi : Inv s) (hu : Alike s u) {j : Nat} (h : onAdmit j u = .next t) :
    Happens s t := by
  unfold onAdmit at h
  split at h
  · cases h
    exact .still _ hu.sessions (hu.inv hi)
  · split at h
    · exact exec_happens hi h ⟨hu.params, hu.sessions, hu.dlock, hu.history, hu.ctlTiming, hu.ctlWritten, hu.nv⟩
    · cases h
      exact .still _ hu.sessions (hu.inv hi)

theorem takeCommand_happens {s t : State} (hi : Inv s) (h : takeCommand s = .next t) : Happens s t := by
  unfold takeCommand at h
  split at h
  · cases h
  · split at h
    · exact exec_happens hi h ⟨rfl, rfl, rfl, rfl, rfl, rfl, rfl⟩
    · cases h

theorem step_happens {s t : State} (hi : Inv s) (h : step s = .next t) : Happens s t := by
  unfold step at h
  split at h
  · exact takeCommand_happens hi h
  case _ hv =>
    unfold nextEvent at h
    split at h
    · cases h
      exact .still _ rfl hi
    case _ e rest he =>
      have hu : Alike s { s with env := rest } := .env s rest
      cases e with
      | present c =>
        cases h
        exact .still _ rfl (Alike.inv (s := s) ⟨rfl, rfl, rfl, rfl, rfl, rfl, rfl⟩ hi)
      | answer k a =>
        cases h
        exact onAnswer_happens hi hu k a
      | text j text =>
        cases h
        have hq := answerText_sessionless j text { s with env := rest }
        exact .still _ hq.sessions (hq.inv (hu.inv hi))
      | admission j => exact onAdmit_happens hi hu h
      | grant k =>
        cases h
        exact onGrant_happens hi hu k
      | reset =>
        cases h
        exact .reset rest (by simpa using hv) he

/-! ### The invariant -/

theorem sessionInv_reset : SessionInv Session.reset :=
  .of_idle (by simp [Session.reset]) (by simp [Session.reset]) (by simp [Session.reset]) (by simp [Session.reset])
    (by simp [Session.reset]) (by simp [Session.reset]) (.inl rfl) rfl rfl

/-- R37: the invariant holds when every record has its reset value. -/
theorem Inv.of_reset {s : State} (hs : s.sessions = List.replicate s.params.nSessions Session.reset) (hd : s.dlock = false)
    (hh : s.history = []) (ht : s.ctlTiming.wf) (hw : s.ctlWritten.wf) (hn : s.nv.wf) : Inv s := by
  have hrec : ∀ (k : Nat) (r : Session), s.sessions[k]? = some r → r = Session.reset := fun k r hr => by
    rw [hs] at hr
    exact List.eq_of_mem_replicate (List.mem_of_getElem? hr)
  have hfree : ∀ k, s.inflight? k = none := fun k => by
    by_contra hne
    obtain ⟨f, hf⟩ := Option.ne_none_iff_exists'.mp hne
    obtain ⟨r, hr, hrf⟩ := inflight?_some hf
    rw [hrec k r hr] at hrf
    cases hrf
  have hno : ∀ k, ¬s.holdsDlock k := fun k ⟨f, _, hf, _⟩ => by simp [hfree] at hf
  have hlive : ∀ (k : Nat) (r : Session), s.sessions[k]? = some r → r.live ≠ true := fun k r hr => by
    rw [hrec k r hr]
    decide
  exact {
    arena := by simp [hs]
    session := fun k r hr => hrec k r hr ▸ sessionInv_reset
    names := fun j k r q hj _ hr => absurd hr (hlive j r hj)
    dlock_held := by simp [hd, hno]
    dlock_one := fun j _ hj => absurd hj (hno j)
    bind_free := fun k f n hf => by simp [hfree] at hf
    calls := fun k => by simp [hh, State.outstanding, hfree]
    timing_wf := ht
    written_wf := hw
    nv_wf := hn }

theorem Happens.inv {s t : State} (hi : Inv s) (h : Happens s t) : Inv t := by
  cases h with
  | still _ _ ht => exact ht
  | turns u v k r f ev hu hr _ hv => exact settle_inv (hv.inv (hu.inv hi) (hu.sessions ▸ hr)) k
  | reset rest => exact .of_reset rfl rfl rfl .nil hi.written_wf hi.nv_wf

/-- Settles O49: at reset every record has its reset value. -/
theorem invAtReset : Obligations.InvAtReset :=
  .of_reset rfl rfl rfl Memory.reset_wf.1 Memory.reset_wf.2.1 Memory.reset_wf.2.2

/-- Settles O50: by the cases of `Happens`; a turn keeps the invariant (`Turn.inv`), and so do the turns that follow it. -/
theorem invKept : Obligations.InvKept := fun _ _ hi h => (step_happens hi h).inv hi

/-! ### Handles -/

/-- The record `q` holds its channel with the handle it had as `r`, or with one that a bind answered in `new`. -/
def HandleFrom (r : Session) (k : Nat) (new : List HistEvent) (q : Session) : Prop :=
  q.live = true → (r.live = true ∧ q.handle = r.handle) ∨
    ∃ h, q.handle = some h ∧ .ctlRet (.session k) (.bound (some h)) ∈ new

theorem HandleFrom.then_turn {r q p : Session} {k : Nat} {new ev : List HistEvent} (h : HandleFrom r k new q)
    (h' : KeepsOrBinds q k ev p) (more : List HistEvent) : HandleFrom r k (new ++ ev ++ more) p := by
  intro hl
  rcases h' with hkeep | ⟨-, -, hd, -, -, -, hh, hmem⟩
  · obtain ⟨hql, -, hqh⟩ := hkeep hl
    rcases h hql with ⟨hrl, hrh⟩ | ⟨hd, hh, hmem⟩
    · exact .inl ⟨hrl, hqh.trans hrh⟩
    · exact .inr ⟨hd, hqh.trans hh, by simp [hmem]⟩
  · exact .inr ⟨hd, hh, by simp [hmem]⟩

/-- What one turn leaves of the session records and the history. -/
theorem Turn.records {s t : State} {k : Nat} {r : Session} {f : InFlight} {ev : List HistEvent}
    (hr : s.sessions[k]? = some r) (ht : Turn s k r f ev t) :
    (∀ j, j ≠ k → t.sessions[j]? = s.sessions[j]?) ∧
      ∃ q more, t.sessions[k]? = some q ∧ t.history = s.history ++ ev ++ more ∧ KeepsOrBinds r k ev q := by
  cases ht with
  | waits _ sess m =>
    exact ⟨fun j hj => by simp [m.sessions, Ne.symm hj], _, [], m.record_eq hr, by simp [m.history], .refl r k ev⟩
  | calls u w g c m hw =>
    refine ⟨fun j hj => by simp [m.sessions, Ne.symm hj], (w r).calling g c, _, by simp [m.sessions, hr],
      by rw [State.call_history, m.history], ?_⟩
    rw [hw]
    exact .inl fun hl => ⟨hl, rfl, rfl⟩
  | ends u w req kind code res m _ hk =>
    exact ⟨fun j hj => by simp [m.sessions, Ne.symm hj], (w r).completed kind code, _, by simp [m.sessions, hr],
      by rw [State.complete_history, m.history], hk⟩

/-- `x` comes from `s` by turns of session `k`, whose record was `r`. -/
structure TurnsFrom (s : State) (k : Nat) (r : Session) (x : State) : Prop where
  inv : Inv x
  others : ∀ j, j ≠ k → x.sessions[j]? = s.sessions[j]?
  own : ∃ q new, x.sessions[k]? = some q ∧ x.history = s.history ++ new ∧ HandleFrom r k new q

theorem TurnsFrom.refl {s : State} {k : Nat} {r : Session} (hi : Inv s) (hr : s.sessions[k]? = some r) :
    TurnsFrom s k r s :=
  ⟨hi, fun _ _ => rfl, r, [], hr, by simp, fun hl => .inl ⟨hl, rfl⟩⟩

theorem TurnsFrom.turn {s x t : State} {k : Nat} {r p : Session} {f : InFlight} {ev : List HistEvent}
    (h : TurnsFrom s k r x) (hp : x.sessions[k]? = some p) (ht : Turn x k p f ev t) : TurnsFrom s k r t := by
  obtain ⟨q, new, hq, hnew, hfrom⟩ := h.own
  obtain ⟨ho, q', more, hq', hmore, hkeep⟩ := ht.records hp
  rw [hp] at hq
  cases hq
  exact ⟨ht.inv h.inv hp, fun j hj => (ho j hj).trans (h.others j hj), q', new ++ ev ++ more, hq', by simp [hmore, hnew],
    hfrom.then_turn hkeep more⟩

theorem TurnsFrom.settle {s x : State} {k : Nat} {r : Session} (h : TurnsFrom s k r x) :
    TurnsFrom s k r (settle k x) :=
  settle_keeps (P := TurnsFrom s k r) k (fun rest a u v hu ha => by
    have hu' : TurnsFrom s k r { u with env := rest } := ⟨hu.inv.env rest, hu.others, hu.own⟩
    obtain ⟨p, f, hp, -, ht⟩ := answered_turn hu'.inv ha
    exact hu'.turn hp ht) x h

theorem TurnsFrom.of_turn {s t : State} {k : Nat} {r : Session} {f : InFlight} {ev : List HistEvent} (hi : Inv s)
    (hr : s.sessions[k]? = some r) (ht : Turn s k r f ev t) : TurnsFrom s k r (Machine.settle k t) :=
  ((TurnsFrom.refl hi hr).turn hr ht).settle

/-- R52: the turns of one session keep handles unique, if no bind answers with a handle that a session holds. -/
theorem TurnsFrom.uniqueHandles {s t : State} {k : Nat} {r : Session} (h : TurnsFrom s k r t)
    (hr : s.sessions[k]? = some r) (hu : s.uniqueHandles) (hp : s.handleUnique t) : t.uniqueHandles := by
  obtain ⟨q, new, hq, hnew, hfrom⟩ := h.own
  have hapart : ∀ (j : Nat) (p : Session), j ≠ k → t.sessions[j]? = some p → p.live = true → q.live = true →
      p.handle ≠ q.handle := by
    intro j p hj htj hpl hql he
    rw [h.others j hj] at htj
    rcases hfrom hql with ⟨hrl, hqh⟩ | ⟨hd, hqh, hmem⟩
    · exact hj (hu j k p r htj hr hpl hrl (he.trans hqh))
    · exact hp new k hd hnew hmem j p htj hpl (he.trans hqh)
  intro j i p p' hj hi hpl hpl' he
  by_cases hjk : j = k <;> by_cases hik : i = k
  · rw [hjk, hik]
  · subst hjk
    rw [hq] at hj
    cases hj
    exact absurd he.symm (hapart i p' hik hi hpl' hpl)
  · subst hik
    rw [hq] at hi
    cases hi
    exact absurd he (hapart j p hjk hj hpl hpl')
  · rw [h.others j hjk] at hj
    rw [h.others i hik] at hi
    exact hu j i p p' hj hi hpl hpl' he

theorem step_keeps_uniqueHandles {s t : State} (hi : Inv s) (hu : s.uniqueHandles) (h : step s = .next t)
    (hp : s.handleUnique t) : t.uniqueHandles := by
  cases step_happens hi h with
  | still _ ht => simpa [State.uniqueHandles, ht] using hu
  | turns u v k r f ev ha hr _ hv =>
    have hru : u.sessions[k]? = some r := ha.sessions ▸ hr
    refine (TurnsFrom.of_turn (ha.inv hi) hru hv).uniqueHandles hru ?_ ?_
    · simpa [State.uniqueHandles, ha.sessions] using hu
    · simpa [State.handleUnique, ha.sessions, ha.history] using hp
  | reset rest =>
    intro j k r q hj _ hl
    have hr : r = Session.reset := List.eq_of_mem_replicate (List.mem_of_getElem? hj)
    simp [hr, Session.live, Session.reset, acceptsBound] at hl

/-- Settles O51: only the answer of a bind gives a session a handle (`TurnsFrom`), and the premise keeps it apart from those of
the other sessions; along a run by induction on the number of steps. -/
theorem handlesStayUnique : Obligations.HandlesStayUnique := by
  refine ⟨fun s t hi hu h hp => step_keeps_uniqueHandles hi hu h hp, fun n => ?_⟩
  induction n with
  | zero =>
    intro s t hi hu h _
    cases h
    exact ⟨hi, hu⟩
  | succ n ih =>
    intro s t hi hu h hp
    unfold State.run at h
    split at h
    case _ v hv =>
      obtain ⟨hp1, hpn⟩ := hp v hv
      exact ih v t (invKept s v hi hv) (step_keeps_uniqueHandles hi hu hv hp1) h hpn
    case _ => cases h
    case _ => cases h

/-! ### Faults -/

theorem exec_ne_fault {i : Instr} {s : State} (hs : ∀ (k : Nat) (r : Session), s.sessions[k]? = some r → SessionInv r)
    (hw : i.wellFormed s.sessions.length = true) (f : Fault) : exec i s ≠ .fault f := by
  intro h
  cases hop : isOperation i with
  | false => cases i <;> simp [isOperation] at hop <;> cases h
  | true =>
    cases hf : framesRefused (framesNeeded i) s.port.framesIn with
    | some why => simp [exec_of_framesRefused hf] at h
    | none =>
      obtain ⟨t, ht⟩ := exec_has_next hs hop hw hf
      simp [ht] at h

theorem freeFor_wellFormed {s : State} {i : Instr} (h : s.freeFor i = true) : i.wellFormed s.sessions.length = true := by
  unfold State.freeFor at h
  split at h
  · cases h
  case _ sess hs =>
    split at h
    case _ r hr =>
      rw [wellFormed_of_session hs]
      exact decide_eq_true (List.getElem?_eq_some_iff.mp hr).1
    case _ => cases h

theorem takeCommand_ne_fault {s : State} (hi : Inv s) (f : Fault) : takeCommand s ≠ .fault f := by
  intro h
  unfold takeCommand at h
  split at h
  · cases h
  · split at h
    case _ hw => exact exec_ne_fault (s := s.taken) hi.session (by rw [State.taken_sessions, hi.arena]; exact hw) f h
    case _ => cases h

theorem onAdmit_ne_fault {s : State} (hi : Inv s) (j : Nat) (f : Fault) : onAdmit j s ≠ .fault f := by
  intro h
  unfold onAdmit at h
  split at h
  · cases h
  case _ c _ =>
    split at h
    case _ hfree =>
      exact exec_ne_fault (s := { s with held := s.held.eraseIdx j, port := c.cmd }) hi.session (freeFor_wellFormed hfree) f h
    case _ => cases h

/-- Settles O52: a step runs `exec` at two places, for a command taken and for a command admitted, both on a session of the
arena, where `exec_ne_fault` holds. -/
theorem noFault : Obligations.NoFault := by
  intro s f hi h
  unfold step at h
  split at h
  · exact takeCommand_ne_fault hi f h
  · unfold nextEvent at h
    split at h
    · cases h
    case _ e rest _ =>
      cases e with
      | admission j => exact onAdmit_ne_fault (hi.env rest) j f h
      | _ => cases h

end Sys2Proof.Machine
end

section
/-! State: what an operation leaves as it was (10_state.md R22 to R26, R30, R32, R33). An operation with a session is a chain
of pieces (`exec_pieces`), so a frame is a relation that every piece has and that chains; one without a session writes nothing
but what `SessionlessStep` lists. -/

namespace Sys2Proof.Machine

/-! ### What no operation changes -/

/-- The frame that the operation `i` of session `k` keeps (R30, R63, R68). -/
structure Framed (i : Instr) (k : Nat) (s t : State) : Prop where
  params : t.params = s.params
  port : t.port = s.port
  portValid : t.portValid = s.portValid
  arena : t.sessions.length = s.sessions.length
  others : ∀ j, k ≠ j → t.sessions[j]? = s.sessions[j]?
  history : ∃ new, t.history = s.history ++ new
  env : ∃ used, s.env = used ++ t.env
  dlock : (∀ sess, i ≠ .discover sess) → t.dlock = s.dlock
  lookups : t.lookups = s.lookups

theorem Framed.refl (i : Instr) (k : Nat) (s : State) : Framed i k s s :=
  ⟨rfl, rfl, rfl, rfl, fun _ _ => rfl, ⟨[], by simp⟩, ⟨[], rfl⟩, fun _ => rfl, rfl⟩

theorem Framed.trans {i : Instr} {k : Nat} {s t u : State} (h : Framed i k s t) (h' : Framed i k t u) : Framed i k s u := by
  obtain ⟨new, hn⟩ := h.history
  obtain ⟨new', hn'⟩ := h'.history
  obtain ⟨used, he⟩ := h.env
  obtain ⟨used', he'⟩ := h'.env
  exact ⟨h'.params.trans h.params, h'.port.trans h.port, h'.portValid.trans h.portValid, h'.arena.trans h.arena,
    fun j hj => (h'.others j hj).trans (h.others j hj), ⟨new ++ new', by simp [hn', hn]⟩, ⟨used ++ used', by simp [he, he']⟩,
    fun hd => (h'.dlock hd).trans (h.dlock hd), h'.lookups.trans h.lookups⟩

/-- A change of the record of session `k` with events recorded is within the frame. -/
theorem Framed.updates (i : Instr) {k : Nat} {s t : State} (g : Session → Session) (new : List HistEvent)
    (h : t.sessions = s.sessions.modify k g) (hh : t.history = s.history ++ new) (hp : t.params = s.params)
    (hc : t.port = s.port) (hv : t.portValid = s.portValid) (he : t.env = s.env) (hd : t.dlock = s.dlock)
    (hl : t.lookups = s.lookups) : Framed i k s t :=
  ⟨hp, hc, hv, by simp [h], fun j hj => by simp [h, hj], ⟨new, hh⟩, ⟨[], by simp [he]⟩, fun _ => hd, hl⟩

theorem Piece.framed {i : Instr} {k : Nat} {s t : State} (h : Piece i k s t) : Framed i k s t := by
  cases h with
  | env used rest he => exact ⟨rfl, rfl, rfl, rfl, fun _ _ => rfl, ⟨[], by simp⟩, ⟨used, he⟩, fun _ => rfl, rfl⟩
  | dlock sess b hi => exact ⟨rfl, rfl, rfl, rfl, fun _ _ => rfl, ⟨[], by simp⟩, ⟨[], rfl⟩, fun hd => absurd hi (hd sess), rfl⟩
  | ret a => exact .updates i id _ (by simp) rfl rfl rfl rfl rfl rfl rfl
  | lock => exact .updates i _ _ rfl rfl rfl rfl rfl rfl rfl rfl
  | call => exact .updates i _ _ rfl rfl rfl rfl rfl rfl rfl rfl
  | complete => exact .updates i _ _ rfl rfl rfl rfl rfl rfl rfl rfl
  | discovered => exact .updates i _ [] rfl (by simp) rfl rfl rfl rfl rfl rfl
  | opened => exact .updates i _ [] rfl (by simp) rfl rfl rfl rfl rfl rfl
  | closed => exact .updates i _ [] rfl (by simp) rfl rfl rfl rfl rfl rfl
  | stage => exact .updates i _ [] rfl (by simp) rfl rfl rfl rfl rfl rfl
  | hold => exact .updates i id [] (by simp) (by simp) rfl rfl rfl rfl rfl rfl
  | forget => exact .updates i id [] (by simp) (by simp) rfl rfl rfl rfl rfl rfl
  | writeTiming => exact .updates i id [] (by simp) (by simp) rfl rfl rfl rfl rfl rfl
  | writeNv => exact .updates i id [] (by simp) (by simp) rfl rfl rfl rfl rfl rfl

theorem exec_framed {i : Instr} {sess : BitVec 8} {s t : State} (hs : i.session? = some sess) (h : exec i s = .next t) :
    Framed i sess.toNat s t :=
  (exec_pieces hs h).gives (Framed.refl i _) (fun _ _ _ => Framed.trans) (fun _ _ => Piece.framed)

/-- Settles O54: an operation with a session keeps `Framed`, one without keeps `SessionlessStep`. -/
theorem sharedFrame : Obligations.SharedFrame := by
  intro i s t h
  cases hs : i.session? with
  | some sess =>
    have hf := exec_framed hs h
    exact ⟨hf.params, hf.port, hf.portValid, hf.arena, fun j hj => hf.others j (hj sess rfl), hf.history, hf.env, hf.dlock,
      fun _ => hf.lookups, by simp⟩
  | none =>
    obtain ⟨hq, hl⟩ := exec_sessionless hs h
    have he := hq.eq
    exact ⟨by rw [he], by rw [he], by rw [he], by rw [he], fun _ _ => by rw [he], hq.history, hq.env, fun _ => by rw [he], hl,
      fun _ => ⟨by rw [he], by rw [he]⟩⟩

/-! ### Which operation writes which field of a record -/

/-- What the operation `i` keeps of the record `r` of its session, which becomes `q` (R22, R24 to R26, R154). -/
structure KeepsFields (i : Instr) (r q : Session) : Prop where
  channel : (∀ sess, i ≠ .discover sess) → q.name = r.name ∧ q.handle = r.handle
  opening : (∀ sess type mode, i ≠ .openSess sess type mode) → q.openType = r.openType ∧ q.openMode = r.openMode
  arb : (∀ sess, i ≠ .cfgArbRaw sess ∧ i ≠ .cfgArbPar sess) → q.arbStaged = r.arbStaged
  fd : (∀ sess, i ≠ .cfgFdRaw sess ∧ i ≠ .cfgFdPar sess) → q.fdStaged = r.fdStaged
  state : (∀ sess type mode, i ≠ .discover sess ∧ i ≠ .openSess sess type mode ∧ i ≠ .closeSess sess) → q.state = r.state

theorem KeepsFields.refl (i : Instr) (r : Session) : KeepsFields i r r :=
  ⟨fun _ => ⟨rfl, rfl⟩, fun _ => ⟨rfl, rfl⟩, fun _ => rfl, fun _ => rfl, fun _ => rfl⟩

theorem KeepsFields.trans {i : Instr} {r q p : Session} (h : KeepsFields i r q) (h' : KeepsFields i q p) : KeepsFields i r p :=
  ⟨fun hi => ⟨(h'.channel hi).1.trans (h.channel hi).1, (h'.channel hi).2.trans (h.channel hi).2⟩,
    fun hi => ⟨(h'.opening hi).1.trans (h.opening hi).1, (h'.opening hi).2.trans (h.opening hi).2⟩,
    fun hi => (h'.arb hi).trans (h.arb hi), fun hi => (h'.fd hi).trans (h.fd hi), fun hi => (h'.state hi).trans (h.state hi)⟩

/-- Any operation may write the lock, the flight and `last_error` (R27, R28). -/
theorem KeepsFields.of_flight (i : Instr) (r : Session) (e : LastError) (b : Bool) (f : Option InFlight) :
    KeepsFields i r { r with lastError := e, busy := b, inflight := f } :=
  ⟨fun _ => ⟨rfl, rfl⟩, fun _ => ⟨rfl, rfl⟩, fun _ => rfl, fun _ => rfl, fun _ => rfl⟩

/-- Every record of `s` is still one of `t`, with its fields kept. -/
def RecordsKept (i : Instr) (s t : State) : Prop :=
  ∀ (j : Nat) (r : Session), s.sessions[j]? = some r → ∃ q, t.sessions[j]? = some q ∧ KeepsFields i r q

theorem RecordsKept.of_modify {i : Instr} {k : Nat} {s t : State} {g : Session → Session}
    (h : t.sessions = s.sessions.modify k g) (hg : ∀ r, KeepsFields i r (g r)) : RecordsKept i s t := by
  intro j r hr
  by_cases hj : k = j
  · exact ⟨g r, by simp [h, hj, hr], hg r⟩
  · exact ⟨r, by simp [h, hj, hr], .refl i r⟩

theorem RecordsKept.of_eq {i : Instr} {s t : State} (h : t.sessions = s.sessions) : RecordsKept i s t :=
  fun _ r hr => ⟨r, h ▸ hr, .refl i r⟩

theorem RecordsKept.trans {i : Instr} {s t u : State} (h : RecordsKept i s t) (h' : RecordsKept i t u) : RecordsKept i s u :=
  fun j r hr => by
    obtain ⟨q, hq, hrq⟩ := h j r hr
    obtain ⟨p, hp, hqp⟩ := h' j q hq
    exact ⟨p, hp, hrq.trans hqp⟩

theorem Session.staged_keepsFields {i : Instr} {sess : BitVec 8} {ph : Phase} {v : Word} (r : Session)
    (hi : (ph = .arb ∧ (i = .cfgArbRaw sess ∨ i = .cfgArbPar sess)) ∨ (ph = .fd ∧ (i = .cfgFdRaw sess ∨ i = .cfgFdPar sess))) :
    KeepsFields i r (r.staged ph v) := by
  rcases hi with ⟨rfl, hi⟩ | ⟨rfl, hi⟩
  · exact ⟨fun _ => ⟨rfl, rfl⟩, fun _ => ⟨rfl, rfl⟩,
      fun h => (hi.elim (fun e => (h sess).1 e) (fun e => (h sess).2 e)).elim, fun _ => rfl, fun _ => rfl⟩
  · exact ⟨fun _ => ⟨rfl, rfl⟩, fun _ => ⟨rfl, rfl⟩, fun _ => rfl,
      fun h => (hi.elim (fun e => (h sess).1 e) (fun e => (h sess).2 e)).elim, fun _ => rfl⟩

theorem Piece.recordsKept {i : Instr} {k : Nat} {s t : State} (h : Piece i k s t) : RecordsKept i s t := by
  cases h with
  | lock => exact .of_modify rfl fun r => .of_flight i r _ _ _
  | call => exact .of_modify rfl fun r => .of_flight i r _ _ _
  | complete => exact .of_modify rfl fun r => .of_flight i r _ _ _
  | discovered sess _ _ hi =>
    exact .of_modify rfl fun _ => ⟨fun h => absurd hi (h sess), fun _ => ⟨rfl, rfl⟩, fun _ => rfl, fun _ => rfl,
      fun h => absurd hi (h sess .fd .normal).1⟩
  | opened sess type mode hi =>
    exact .of_modify rfl fun _ => ⟨fun _ => ⟨rfl, rfl⟩, fun h => absurd hi (h sess type mode), fun _ => rfl, fun _ => rfl,
      fun h => absurd hi (h sess type mode).2.1⟩
  | closed sess hi =>
    exact .of_modify rfl fun _ => ⟨fun _ => ⟨rfl, rfl⟩, fun _ => ⟨rfl, rfl⟩, fun _ => rfl, fun _ => rfl,
      fun h => absurd hi (h sess .fd .normal).2.2⟩
  | stage sess ph v hi => exact .of_modify rfl fun r => r.staged_keepsFields hi
  | _ => exact .of_eq rfl

/-- Settles O55: every piece of the operation keeps `RecordsKept`. -/
theorem recordFrame : Obligations.RecordFrame := by
  intro i s t k r q h hr hq
  have hkept : RecordsKept i s t := by
    cases hs : i.session? with
    | none => exact .of_eq (exec_sessionless hs h).1.sessions
    | some sess =>
      exact (exec_pieces hs h).gives (R := RecordsKept i) (fun _ => .of_eq rfl) (fun _ _ _ => RecordsKept.trans)
        (fun _ _ => Piece.recordsKept)
  obtain ⟨q', hq', hf⟩ := hkept k r hr
  rw [hq] at hq'
  cases hq'
  exact ⟨hf.channel, hf.opening, hf.arb, hf.fd, hf.state⟩

/-! ### Which operation writes the stores -/

/-- What the operation `i` keeps of the stores (R32, R33, R57). -/
structure StoresKept (i : Instr) (s t : State) : Prop where
  written : (∀ sess b, i ≠ .apply sess b) → t.ctlWritten = s.ctlWritten
  timing : (∀ sess b, i ≠ .apply sess b ∧ i ≠ .closeSess sess) → t.ctlTiming = s.ctlTiming
  nv : (∀ sess, i ≠ .apply sess false) → t.nv = s.nv

theorem StoresKept.refl (i : Instr) (s : State) : StoresKept i s s := ⟨fun _ => rfl, fun _ => rfl, fun _ => rfl⟩

theorem StoresKept.trans {i : Instr} {s t u : State} (h : StoresKept i s t) (h' : StoresKept i t u) : StoresKept i s u :=
  ⟨fun hi => (h'.written hi).trans (h.written hi), fun hi => (h'.timing hi).trans (h.timing hi),
    fun hi => (h'.nv hi).trans (h.nv hi)⟩

theorem Piece.storesKept {i : Instr} {k : Nat} {s t : State} (h : Piece i k s t) : StoresKept i s t := by
  cases h with
  | forget sess _ hi => exact ⟨fun _ => rfl, fun h => absurd hi (h sess false).2, fun _ => rfl⟩
  | writeTiming sess b _ _ _ hi => exact ⟨fun h => absurd hi (h sess b), fun h => absurd hi (h sess b).1, fun _ => rfl⟩
  | writeNv sess _ _ _ hi => exact ⟨fun _ => rfl, fun _ => rfl, fun h => absurd hi (h sess)⟩
  | _ => exact ⟨fun _ => rfl, fun _ => rfl, fun _ => rfl⟩

/-- Settles O56: every piece of the operation keeps `StoresKept`. -/
theorem storeFrame : Obligations.StoreFrame := by
  intro i s t h
  have hkept : StoresKept i s t := by
    cases hs : i.session? with
    | none =>
      have he := (exec_sessionless hs h).1.eq
      exact ⟨fun _ => by rw [he], fun _ => by rw [he], fun _ => by rw [he]⟩
    | some sess =>
      exact (exec_pieces hs h).gives (StoresKept.refl i) (fun _ _ _ => StoresKept.trans) (fun _ _ => Piece.storesKept)
  exact ⟨hkept.written, hkept.timing, hkept.nv⟩

/-! ### The words an APPLY writes -/

/-- The key `a` is not one of a register or word, numbered by `key`, for which the record `r` has a staged word. -/
def Session.keyUnstaged (r : Session) (key : Phase → Nat) (a : Nat) : Prop :=
  ∀ ph v, r.stagedWord ph = some v → a ≠ key ph

/-- `x` comes from `s` within an APPLY of session `k`, whose record `r` has the handle `h` and the name `n`: what it reads of
the record is kept, and so is every word that is not its own. -/
structure ApplyStores (s : State) (k : Nat) (r : Session) (h : Handle) (n : Name) (x : State) : Prop where
  record : ∃ q, x.sessions[k]? = some q ∧ q.name = some n ∧ q.fdStaged = r.fdStaged
  timing : ∀ a, r.keyUnstaged (timingKey h) a →
    x.ctlTiming.read a = s.ctlTiming.read a ∧ x.ctlWritten.read a = s.ctlWritten.read a
  nv : ∀ a, r.keyUnstaged (nvKey n) a → x.nv.read a = s.nv.read a

/-- The same, between two turns of the APPLY: the call outstanding, if any, is for a staged word. -/
structure ApplyRun (s : State) (k : Nat) (i : Instr) (r : Session) (h : Handle) (n : Name) (x : State) : Prop
    extends ApplyStores s k r h n x where
  flight : ∀ f, x.inflight? k = some f →
    f.instr = i ∧ ∀ h' ph v, f.call = some (.writeTiming h' ph v) → h' = h ∧ r.stagedWord ph = some v

section
variable {s x y : State} {k : Nat} {i : Instr} {r : Session} {h : Handle} {n : Name}

theorem ApplyStores.update (hx : ApplyStores s k r h n x) {g : Session → Session} (hy : y.sessions = x.sessions.modify k g)
    (hg : ∀ q, (g q).name = q.name ∧ (g q).fdStaged = q.fdStaged) (ht : y.ctlTiming = x.ctlTiming)
    (hw : y.ctlWritten = x.ctlWritten) (hn : y.nv = x.nv) : ApplyStores s k r h n y := by
  obtain ⟨q, hq, hqn, hqf⟩ := hx.record
  exact ⟨⟨g q, by simp [hy, hq], by rw [(hg q).1, hqn], by rw [(hg q).2, hqf]⟩,
    fun a ha => by rw [ht, hw]; exact hx.timing a ha, fun a ha => by rw [hn]; exact hx.nv a ha⟩

theorem ApplyStores.calls (hx : ApplyStores s k r h n x) {f : InFlight} (hf : f.instr = i) {ph : Phase} {v : Word}
    (hv : r.stagedWord ph = some v) : ApplyRun s k i r h n (x.call k f (.writeTiming h ph v)) where
  toApplyStores := hx.update rfl (fun _ => ⟨rfl, rfl⟩) rfl rfl rfl
  flight := by
    obtain ⟨q, hq, -, -⟩ := hx.record
    intro g hg
    simp only [State.inflight?, State.call_sessions, List.getElem?_modify, hq, if_true, Option.map_eq_map, Option.map_some,
      Session.calling_inflight, Option.some.injEq] at hg
    subst hg
    refine ⟨hf, ?_⟩
    rintro h' ph' v' ⟨⟩
    exact ⟨rfl, hv⟩

theorem ApplyStores.ends (hx : ApplyStores s k r h n x) (req : Nat) (kind : ResultKind) (code : Word32) (res : Results) :
    ApplyRun s k i r h n (x.complete k req kind code res) where
  toApplyStores := hx.update rfl (fun _ => ⟨rfl, rfl⟩) rfl rfl rfl
  flight := by
    obtain ⟨q, hq, -, -⟩ := hx.record
    simp [State.inflight?, hq]

/-- The second half of APPLY (R176). -/
theorem ApplyStores.applyFd (hx : ApplyStores s k r h n x) {f : InFlight} (hf : f.instr = i) :
    ApplyRun s k i r h n (applyFd k f h x) := by
  obtain ⟨q, hq, -, hqf⟩ := hx.record
  unfold Machine.applyFd
  split
  case _ w hw => exact hx.calls hf (by simpa [State.fdStaged?, hq, hqf, Session.stagedWord] using hw)
  case _ => exact hx.ends ..

/-- A returned `CtlWriteTiming` stores at the keys of its own phase (R32, R33, R176). -/
theorem ApplyStores.applied (hx : ApplyStores s k r h n x) (b : Bool) {ph : Phase} {v : Word}
    (hv : r.stagedWord ph = some v) : ApplyStores s k r h n (x.applied b k h ph v) := by
  obtain ⟨q, hq, hqn, hqf⟩ := hx.record
  have hname : x.name? k = some n := by simp [State.name?, hq, hqn]
  have htiming : ApplyStores s k r h n (x.writeTiming h ph v) := by
    refine ⟨hx.record, fun a ha => ?_, hx.nv⟩
    have hne : timingKey h ph ≠ a := (ha ph v hv).symm
    simpa [Memory.read_write, hne] using hx.timing a ha
  unfold State.applied
  split
  case _ m hm =>
    rw [hname] at hm
    cases hm
    refine ⟨htiming.record, htiming.timing, fun a ha => ?_⟩
    have hne : nvKey n ph ≠ a := (ha ph v hv).symm
    simpa [Memory.read_write, hne] using hx.nv a ha
  case _ => exact htiming

theorem ApplyRun.answered (hx : ApplyRun s k i r h n x) {sess : BitVec 8} {b : Bool} (hi : i = .apply sess b) {a : CtlAnswer}
    (ha : answered k a x = some y) : ApplyRun s k i r h n y := by
  obtain ⟨f, c, hf, hc, -, hres⟩ := answered_some ha
  obtain ⟨hfi, hcall⟩ := hx.flight f hf
  have hrec : ApplyStores s k r h n (x.record (.ctlRet (.session k) a)) := ⟨hx.record, hx.timing, hx.nv⟩
  simp only [resumeAny, hfi, hi] at hres
  unfold resumeApply at hres
  split at hres <;> cases hres
  case _ hw =>
    obtain ⟨rfl, hv⟩ := hcall _ _ _ hw
    exact (hrec.applied b hv).applyFd hfi
  case _ hw =>
    obtain ⟨rfl, hv⟩ := hcall _ _ _ hw
    exact (hrec.applied b hv).ends ..

theorem ApplyRun.settle (hx : ApplyRun s k i r h n x) {sess : BitVec 8} {b : Bool} (hi : i = .apply sess b) :
    ApplyRun s k i r h n (settle k x) :=
  settle_keeps k (fun rest _ u _ hu ha =>
    ApplyRun.answered (x := { u with env := rest }) ⟨⟨hu.record, hu.timing, hu.nv⟩, hu.flight⟩ hi ha) x hx

end

/-- Settles O57: through every turn of the APPLY its calls are for staged words (`ApplyRun`). -/
theorem applyFrame : Obligations.ApplyFrame := by
  intro sess temporary s t r h n he hr hh hn
  suffices hst : ApplyStores s sess.toNat r h n t from fun a => ⟨hst.timing a, hst.nv a⟩
  have h0 : ApplyStores s sess.toNat r h n s := ⟨⟨r, hr, hn, rfl⟩, fun _ _ => ⟨rfl, rfl⟩, fun _ _ => rfl⟩
  have h1 : ApplyStores s sess.toNat r h n (s.lock sess.toNat (.apply sess temporary)) :=
    h0.update rfl (fun _ => ⟨rfl, rfl⟩) rfl rfl rfl
  simp only [exec, execApply] at he
  rcases sessionOp_cases sess (.apply sess temporary) s _ with
    ⟨hnone, -⟩ | ⟨q, hq, ⟨-, hx⟩ | ⟨-, -, hx⟩ | ⟨-, -, hx⟩⟩
  · simp [hr] at hnone
  all_goals
    rw [hx] at he
    rw [hr] at hq
    cases hq
  · cases he
    exact h0.update (g := id) (by simp) (fun _ => ⟨rfl, rfl⟩) rfl rfl rfl
  · cases he
    exact (h1.ends (i := .apply sess temporary) ..).toApplyStores
  · simp only [withHandle, hh, hn] at he
    cases he
    refine (ApplyRun.settle (i := .apply sess temporary) ?_ rfl).toApplyStores
    unfold applyArb
    split
    case _ v hv => exact h1.calls (i := .apply sess temporary) (ph := .arb) rfl hv
    case _ => exact h1.applyFd rfl

end Sys2Proof.Machine
end

section
/-! State: the read-out port (10_state.md R31). While a command is in flight its session's record changes only in the flight, and
then in the writes of the command's end (`GoesOnOrEnds`); the port shows the record from before those writes or from after
them. -/

namespace Sys2Proof.Machine

/-- What may have become of the record `r` with the command in flight `f`: another call, or an end that `Ending` lists. -/
def GoesOnOrEnds (r : Session) (f : InFlight) (q : Session) : Prop :=
  (∃ g : InFlight, g.instr = f.instr ∧ g.cmd = f.cmd ∧ q = { r with busy := true, inflight := some g }) ∨
    ∃ e : Ending, e.possible f.instr = true ∧ q = r.endedWith f e

theorem Session.endedWith_inflight (r : Session) (f : InFlight) (e : Ending) : (r.endedWith f e).inflight = none := by
  cases e <;> rfl

/-- The record after a command's writes does not depend on the flight. -/
theorem Session.endedWith_flight (r : Session) {f g : InFlight} (hi : g.instr = f.instr) (hc : g.cmd = f.cmd) (e : Ending) :
    Session.endedWith g { r with busy := true, inflight := some g } e = r.endedWith f e := by
  cases e with
  | error kind code => rfl
  | ok h =>
    simp only [Session.endedWith, Session.okWrites, hi, hc]
    split <;> rfl

theorem Turn.goesOnOrEnds {s t : State} {k : Nat} {r : Session} {f : InFlight} {ev : List HistEvent}
    (hr : s.sessions[k]? = some r) (hf : r.inflight = some f) (ht : Turn s k r f ev t) :
    ∃ q, t.sessions[k]? = some q ∧ GoesOnOrEnds r f q := by
  cases ht with
  | waits _ sess m _ _ _ hidle => simp [hidle] at hf
  | calls u w g c m hw hgi hgc =>
    exact ⟨(w r).calling g c, by simp [m.sessions, hr], .inl ⟨{ g with call := some c }, hgi, hgc, hw⟩⟩
  | ends u w req kind code res m _ _ _ hend =>
    exact ⟨(w r).completed kind code, by simp [m.sessions, hr], .inr (hend hf)⟩

theorem GoesOnOrEnds.trans {r q p : Session} {f g : InFlight} (h : GoesOnOrEnds r f q) (hg : q.inflight = some g)
    (h' : GoesOnOrEnds q g p) : GoesOnOrEnds r f p := by
  rcases h with ⟨g', hi, hc, rfl⟩ | ⟨e, -, rfl⟩
  · cases hg
    rcases h' with ⟨g', hi', hc', rfl⟩ | ⟨e, he, rfl⟩
    · exact .inl ⟨g', hi'.trans hi, hc'.trans hc, rfl⟩
    · exact .inr ⟨e, hi ▸ he, r.endedWith_flight hi hc e⟩
  · rw [r.endedWith_inflight] at hg
    cases hg

theorem settle_goesOnOrEnds {s : State} {k : Nat} {r q : Session} {f : InFlight} (hi : Inv s) (hq : s.sessions[k]? = some q)
    (h : GoesOnOrEnds r f q) : ∃ p, (settle k s).sessions[k]? = some p ∧ GoesOnOrEnds r f p := by
  refine (settle_keeps (P := fun x => Inv x ∧ ∃ p, x.sessions[k]? = some p ∧ GoesOnOrEnds r f p) k ?_ s ⟨hi, q, hq, h⟩).2
  rintro rest a u v ⟨hu, p, hp, hpr⟩ ha
  obtain ⟨p', g, hp', hg, ht⟩ := answered_turn (hu.env rest) ha
  obtain rfl : p = p' := by simpa [hp] using hp'
  obtain ⟨x, hx, hpx⟩ := ht.goesOnOrEnds hp' hg
  exact ⟨ht.inv (hu.env rest) hp', x, hx, hpr.trans hg hpx⟩

/-- R31: a command in flight before a step is in flight after it, or has ended as `Ending` lists, unless the step is a reset. -/
theorem step_goesOnOrEnds {s t : State} {k : Nat} {r : Session} {f : InFlight} (hi : Inv s) (hr : s.sessions[k]? = some r)
    (hf : r.inflight = some f) (h : step s = .next t) (hnr : s.portValid = true ∨ ∀ rest, s.env ≠ .reset :: rest) :
    ∃ q, t.sessions[k]? = some q ∧ (q = r ∨ GoesOnOrEnds r f q) := by
  cases step_happens hi h with
  | still _ ht => exact ⟨r, ht ▸ hr, .inl rfl⟩
  | turns u v j p g ev hu hp hpf hv =>
    have hur : u.sessions[k]? = some r := hu.sessions ▸ hr
    by_cases hjk : j = k
    · subst hjk
      obtain rfl : r = p := by simpa [hr] using hp
      obtain rfl : f = g := by simpa [hf] using hpf
      obtain ⟨q, hq, hrq⟩ := hv.goesOnOrEnds hur hf
      obtain ⟨x, hx, hrx⟩ := settle_goesOnOrEnds (hv.inv (hu.inv hi) hur) hq hrq
      exact ⟨x, hx, .inr hrx⟩
    · have hup : u.sessions[j]? = some p := hu.sessions ▸ hp
      exact ⟨r, ((TurnsFrom.of_turn (hu.inv hi) hup hv).others k (Ne.symm hjk)).trans hur, .inl rfl⟩
  | reset rest hv he =>
    rcases hnr with h | h
    · simp [hv] at h
    · exact absurd he (h rest)

/-! ### What the port shows -/

theorem State.readout_eq {s : State} {k : Nat} {r : Session} (hr : s.sessions[k]? = some r) (m : ReadMoment) :
    s.readout k m = some (r.readout m) := by
  simp [State.readout, hr]

theorem Session.readout_idle {r : Session} (h : r.inflight = none) (m : ReadMoment) : r.readout m = r.shown := by
  cases m <;> simp [Session.readout, h]

theorem Session.readout_after {r : Session} {f : InFlight} (h : r.inflight = some f) {e : Ending}
    (he : e.possible f.instr = true) (busy : Bool) :
    r.readout (.after e busy) = { (r.endedWith f e).shown with busy := busy } := by
  simp [Session.readout, h, he]

/-- Every read while a command is in flight shows the record from before its writes, or from after them (R31). -/
theorem Session.readout_cases {r : Session} {f : InFlight} (h : r.inflight = some f) (m : ReadMoment) :
    r.readout m = r.shown ∨ ∃ e busy, r.readout m = { (r.endedWith f e).shown with busy := busy } := by
  cases m with
  | before => exact .inl rfl
  | after e busy =>
    cases he : e.possible f.instr with
    | true => exact .inr ⟨e, busy, r.readout_after h he busy⟩
    | false => simp [Session.readout, h, he]

/-- A command that waits for the controller writes only the state of what the port shows for its whole flight (R151, R153). -/
theorem Session.endedWith_kept (r : Session) (f : InFlight) (e : Ending) :
    (r.endedWith f e).openType = r.openType ∧ (r.endedWith f e).openMode = r.openMode ∧
      (r.endedWith f e).arbStaged = r.arbStaged ∧ (r.endedWith f e).fdStaged = r.fdStaged ∧
      ((r.endedWith f e).state = r.state ∨ (∃ sess, f.instr = .discover sess ∧ (r.endedWith f e).state = .discovered) ∨
        ∃ sess, f.instr = .closeSess sess ∧ (r.endedWith f e).state = .closed) := by
  cases e with
  | error kind code => exact ⟨rfl, rfl, rfl, rfl, .inl rfl⟩
  | ok h =>
    simp only [Session.endedWith, Session.okWrites]
    split
    case _ sess hd => exact ⟨rfl, rfl, rfl, rfl, .inr (.inl ⟨sess, hd, rfl⟩)⟩
    case _ sess hc => exact ⟨rfl, rfl, rfl, rfl, .inr (.inr ⟨sess, hc, rfl⟩)⟩
    case _ => exact ⟨rfl, rfl, rfl, rfl, .inl rfl⟩

/-- Settles O60: `step_goesOnOrEnds` says which record a command's end leaves, and `readout_after` that the port can show it. -/
theorem readOutPort : Obligations.ReadOutPort := by
  refine ⟨fun s k r hr => ?_, fun s t k r q hi hr hf h hq hidle hnr => ?_, fun s k r f m v hr hf hv => ?_, rfl⟩
  · exact ⟨State.readout_eq hr .before, fun hidle m => by rw [State.readout_eq hr, r.readout_idle hidle]; rfl⟩
  · obtain ⟨f, hf'⟩ := Option.ne_none_iff_exists'.mp hf
    obtain ⟨q', hq', hcase⟩ := step_goesOnOrEnds hi hr hf' h hnr
    obtain rfl : q = q' := by simpa [hq] using hq'
    rcases hcase with rfl | ⟨g, -, -, rfl⟩ | ⟨e, he, rfl⟩
    · exact absurd hidle hf
    · cases hidle
    · exact ⟨e, fun busy => by rw [State.readout_eq hr, r.readout_after hf' he]; rfl⟩
  · rw [State.readout_eq hr] at hv
    cases hv
    rcases r.readout_cases hf m with hm | ⟨e, busy, hm⟩ <;> rw [hm]
    · exact ⟨rfl, rfl, rfl, rfl, .inl rfl⟩
    · obtain ⟨h1, h2, h3, h4, hst⟩ := r.endedWith_kept f e
      refine ⟨h1, h2, congrArg Option.isSome h3, congrArg Option.isSome h4, ?_⟩
      rcases hst with hs | ⟨sess, hd, hs⟩ | ⟨sess, hc, hs⟩
      · exact .inl (congrArg LifeState.number hs)
      · exact .inr (.inl ⟨sess, hd, congrArg LifeState.number hs⟩)
      · exact .inr (.inr ⟨sess, hc, congrArg LifeState.number hs⟩)

end Sys2Proof.Machine
end

section
/-! State: the session whose controller call is not answered yet (10_state.md R28, R29, 20_memory.md R62), the staged words
(30_encoding.md R86, R91), the stores (R32, R33) and reset (R37). -/

namespace Sys2Proof.Machine

/-! ### A call outstanding -/

theorem settle_of_env_nil {s : State} (h : s.env = []) (k : Nat) : settle k s = s := by
  simp [settle, h, drain]

/-- The state of an admitted operation with its first call outstanding, written out (R28, R62). -/
theorem lock_call_eq {s : State} {k : Nat} {r : Session} (hr : s.sessions[k]? = some r) (i : Instr) (c : CtlCall) :
    (s.lock k i).call k (startFlight i s.port) c =
      { s with
        sessions := s.sessions.set k { r with busy := true, inflight := some ⟨i, s.port, 0, [], some c⟩ }
        history := s.history ++ [.issue s.port i, .ctlCall (.session k) c] } := by
  refine State.ext_fields rfl ?_ rfl rfl rfl rfl rfl rfl rfl rfl rfl rfl (by simp) rfl
  rw [State.call_sessions, State.lock_sessions, modify_modify, modify_eq_set hr]
  rfl

/-- An operation that acts on its session's handle and issues the call `c` first, with nothing to come from outside. -/
theorem handleOp_callOutstanding {sess : BitVec 8} {i : Instr} {s : State} {r : Session} {h : Handle} {c : CtlCall}
    {body : Nat → InFlight → Session → State → Handle → Result} (hr : s.sessions[sess.toNat]? = some r) (hb : r.busy = false)
    (ha : acceptedIn i r.state = true) (hh : r.handle = some h) (he : s.env = [])
    (hbody : body sess.toNat (startFlight i s.port) r (s.lock sess.toNat i) h =
      .next (settle sess.toNat ((s.lock sess.toNat i).call sess.toNat (startFlight i s.port) c))) :
    sessionOp sess i s (fun k f r u => withHandle r (body k f r u)) = .next
      { s with
        sessions := s.sessions.set sess.toNat { r with busy := true, inflight := some ⟨i, s.port, 0, [], some c⟩ }
        history := s.history ++ [.issue s.port i, .ctlCall (.session sess.toNat) c] } := by
  rw [sessionOp_runs hr hb ha, ← lock_call_eq hr]
  simp only [withHandle, hh, hbody]
  rw [settle_of_env_nil (by simpa using he)]

theorem applyArb_of_arb {r : Session} {v : Word} (hv : r.arbStaged = some v) (k : Nat) (f : InFlight) (h : Handle)
    (s : State) : applyArb k f r h s = s.call k f (.writeTiming h .arb v) := by
  simp [applyArb, hv]

theorem applyArb_of_fd {s : State} {k : Nat} {r : Session} {v : Word} (ha : r.arbStaged = none)
    (hv : s.fdStaged? k = some v) (f : InFlight) (h : Handle) :
    applyArb k f r h s = s.call k f (.writeTiming h .fd v) := by
  simp [applyArb, ha, applyFd, hv]

/-- Settles O25: each operation's body is its first call, and with `env` empty nothing answers it. -/
theorem callOutstanding : Obligations.CallOutstanding := by
  intro i c sess count temporary s r h f ph v hmem hr hb ha hh happly hframes hcount he
  have hpos : i = .sendn sess count ∨ i = .recvn sess count → 0 < count.toNat := fun hi =>
    Nat.pos_of_ne_zero fun h0 => hcount hi (BitVec.eq_of_toNat_eq h0)
  simp only [List.mem_cons, Prod.mk.injEq, List.not_mem_nil, or_false] at hmem
  rcases hmem with ⟨rfl, rfl⟩ | ⟨rfl, rfl⟩ | ⟨rfl, rfl⟩ | ⟨rfl, rfl⟩ | ⟨rfl, rfl⟩ | ⟨rfl, rfl⟩ | ⟨rfl, rfl⟩ | ⟨rfl, rfl⟩ |
    ⟨rfl, rfl⟩ | ⟨rfl, rfl⟩
  case _ =>
    rw [exec, execClose]
    exact handleOp_callOutstanding hr hb ha hh he rfl
  case _ =>
    obtain ⟨hn, hst⟩ := happly rfl
    obtain ⟨n, hn⟩ := Option.ne_none_iff_exists'.mp hn
    rw [exec, execApply]
    refine handleOp_callOutstanding hr hb ha hh he ?_
    rw [hn]
    rcases hst with ⟨hv, rfl⟩ | ⟨hnone, hv, rfl⟩
    · simp only [applyArb_of_arb hv]
    · have hfd : (s.lock sess.toNat (.apply sess temporary)).fdStaged? sess.toNat = some v := by
        simpa [State.fdStaged?, hr] using hv
      simp only [applyArb_of_fd hnone hfd]
  case _ =>
    obtain ⟨hhead, hok⟩ := hframes (.inl rfl)
    obtain ⟨rest, hl⟩ := List.head?_eq_some_iff.mp hhead
    rw [exec, execSend, withFrames_passes hok]
    exact handleOp_callOutstanding hr hb ha hh he (by simp [startFlight, hl, Cmd.low32])
  case _ =>
    obtain ⟨hhead, hok⟩ := hframes (.inr rfl)
    obtain ⟨rest, hl⟩ := List.head?_eq_some_iff.mp hhead
    rw [exec, execSendn, withFrames_passes hok]
    refine handleOp_callOutstanding hr hb ha hh he ?_
    simp [startFlight, hl, Cmd.low32, sendnFrom, batchFrame?, hpos (.inl rfl)]
  case _ =>
    rw [exec, execRecv]
    exact handleOp_callOutstanding hr hb ha hh he rfl
  case _ =>
    rw [exec, execRecvn]
    refine handleOp_callOutstanding hr hb ha hh he ?_
    simp [startFlight, Cmd.low32, recvnFrom, hpos (.inr rfl)]
  case _ =>
    rw [exec, execProbeTerm, probe]
    exact handleOp_callOutstanding hr hb ha hh he rfl
  case _ =>
    rw [exec, execProbeEcho, probe]
    exact handleOp_callOutstanding hr hb ha hh he rfl
  case _ =>
    rw [exec, execProbeBlink, probe]
    exact handleOp_callOutstanding hr hb ha hh he rfl
  case _ =>
    rw [exec, execProbeTxmode, probe]
    exact handleOp_callOutstanding hr hb ha hh he rfl

theorem onGrant_of_free {s : State} {k : Nat} {f : InFlight} (hw : s.waitsForDlock k = some f) (hd : s.dlock = false) :
    onGrant k s = settle k (discoverEnumerate k f s) := by
  simp [onGrant, hw, hd]

/-- Settles O29: DISCOVER's body, and the grant, by whether `dlock` is free. -/
theorem discoverWaits : Obligations.DiscoverWaits := by
  refine ⟨fun sess s r hr hb hst hd => ?_, fun sess s r hr hb hst hd he => ?_, fun k sess s r f hv hd he hr hf hi hc => ?_⟩
  · have hacc : acceptedIn (.discover sess) r.state = true := by simp [acceptedIn, acceptsUnbound, hst]
    rw [exec, execDiscover, sessionOp_runs hr hb hacc, State.lock_dlock, if_pos hd]
    refine congrArg Host.Outcome.next (State.ext_fields rfl ?_ rfl rfl rfl rfl rfl rfl rfl rfl rfl rfl rfl rfl)
    rw [State.lock_sessions, modify_eq_set hr]
    rfl
  · have hacc : acceptedIn (.discover sess) r.state = true := by simp [acceptedIn, acceptsUnbound, hst]
    rw [exec, execDiscover, sessionOp_runs hr hb hacc, State.lock_dlock, if_neg (by simp [hd]), discoverEnumerate,
      settle_of_env_nil (by simpa using he)]
    exact congrArg (fun u : State => Host.Outcome.next { u with dlock := true }) (lock_call_eq hr _ _)
  · have hw : State.waitsForDlock { s with env := [] } k = some f := by
      simp [State.waitsForDlock, State.inflight?, hr, hf, hi, hc]
    have hstep : step s = .next (onGrant k { s with env := [] }) := by simp [step, hv, nextEvent, he]
    rw [hstep, onGrant_of_free hw hd, discoverEnumerate, settle_of_env_nil rfl]
    refine congrArg Host.Outcome.next (State.ext_fields rfl ?_ rfl rfl rfl rfl rfl rfl rfl rfl rfl rfl rfl rfl)
    exact modify_eq_set hr _

/-! ### What a parameter form stages -/

/-- R86: the fixed bits of a packed arbitration word are those of the base. -/
theorem packArb_fixed {p : Params} (hp : paramsValid p = true) {tq ts1 ts2 sjw : Nat} (htq : tq < 2 ^ 13)
    (h1 : ts1 - 1 < 2 ^ 8) (h2 : ts2 - 1 < 2 ^ 8) (hs : sjw < 2 ^ 8) :
    packArb p tq ts1 ts2 sjw &&& arbFixedMask = p.arbBase := by
  apply BitVec.eq_of_getLsbD_eq
  intro i hi
  rw [BitVec.getLsbD_and, arbFixedMask_bit i hi, packArb_bit _ _ _ _ _ _ hi]
  by_cases hf : i < 24 ∨ 32 ≤ i ∧ i ≤ 44
  · have hm : (decide (45 ≤ i) || decide (24 ≤ i) && decide (i ≤ 31)) = false := by
      simp only [Bool.or_eq_false_iff, Bool.and_eq_false_iff, decide_eq_false_iff_not]
      omega
    rw [hm, Bool.and_false, arbBase_clear hp hi hf]
  · have hm : (decide (45 ≤ i) || decide (24 ≤ i) && decide (i ≤ 31)) = true := by
      simp only [Bool.or_eq_true, Bool.and_eq_true, decide_eq_true_eq]
      omega
    have hq : (decide (32 ≤ i) && tq.testBit (i - 32)) = false := by
      by_cases h : 32 ≤ i
      · rw [testBit_high htq (by omega), Bool.and_false]
      · simp [h]
    rw [hm, hq, testBit_high hs (by omega), testBit_high h1 (by omega), testBit_high h2 (by omega)]
    simp

/-- R82: the width field of a packed arbitration word. -/
theorem packArb_sjw {p : Params} (hp : paramsValid p = true) {tq ts1 ts2 sjw : Nat} (h1 : ts1 - 1 < 2 ^ 8)
    (h2 : ts2 - 1 < 2 ^ 8) (hs : sjw < 2 ^ 8) : ((packArb p tq ts1 ts2 sjw).extractLsb' 16 8).toNat = sjw := by
  apply Nat.eq_of_testBit_eq
  intro j
  rw [testBit_extractLsb']
  by_cases hj : j < 8
  · rw [packArb_bit _ _ _ _ _ _ (by omega), arbBase_clear hp (by omega) (by omega), testBit_high h1 (by omega),
      testBit_high h2 (by omega)]
    simp [hj, show ¬32 ≤ 16 + j by omega]
  · simp [hj, testBit_high hs (Nat.le_of_not_lt hj)]

/-- R86: the word ENC_ARB computes is canonical. -/
theorem encodeArb_canonical {p : Params} (hp : paramsValid p = true) {pr ts1 ts2 sjw : Nat} {v : Word}
    (h : encodeArb p pr ts1 ts2 sjw = some v) : canonicalArb p v = true := by
  obtain ⟨htq, -, h1, -, h2, hs0, hs, rfl⟩ := encodeArb_some h
  refine (canonicalArb_iff p _).mpr ⟨packArb_fixed hp htq (by omega) (by omega) (by omega), fun h0 => ?_⟩
  have hw := packArb_sjw hp (tq := timeQuantum p pr) (ts1 := ts1) (ts2 := ts2) (sjw := sjw) (by omega) (by omega) (by omega)
  rw [h0] at hw
  simp at hw
  omega

/-- The bits of an FD word that are fixed (R87). -/
theorem fdMask_bit {p : Params} (hp : p.tdcoBits ≤ 15) {i : Nat} (hi : i < 64) :
    (fdMask p).getLsbD i =
      (decide (56 ≤ i) || (decide (40 + p.tdcoBits ≤ i) && decide (i ≤ 54)) || (decide (26 ≤ i) && decide (i ≤ 39))) := by
  have hpow : (2 ^ p.tdcoBits - 1) < 2 ^ 15 :=
    Nat.lt_of_lt_of_le (Nat.sub_lt (Nat.two_pow_pos _) (by decide)) (Nat.pow_le_pow_right (by decide) hp)
  have hsub : 2 ^ 15 - 2 ^ p.tdcoBits = 2 ^ 15 - (2 ^ p.tdcoBits - 1 + 1) := by
    rw [Nat.sub_add_cancel (Nat.two_pow_pos _)]
  have hoff : ((2 ^ 15 - 2 ^ p.tdcoBits) * 2 ^ 40).testBit i = (decide (40 + p.tdcoBits ≤ i) && decide (i ≤ 54)) := by
    rw [Nat.testBit_mul_two_pow, hsub, Nat.testBit_two_pow_sub_succ hpow, Nat.testBit_two_pow_sub_one]
    rw [Bool.eq_iff_iff]
    simp only [Bool.and_eq_true, Bool.not_eq_true', decide_eq_true_eq, decide_eq_false_iff_not]
    omega
  rw [fdMask, BitVec.getLsbD_or, fdFixedMask_bit i hi, BitVec.getLsbD_ofNat, hoff]
  rw [decide_eq_true hi, Bool.true_and, Bool.or_right_comm]

/-- The bits of a packed FD word above its segment fields: the base, the enable bit and the offset (R87, R88). -/
theorem packFd_bit_high (p : Params) {tq ts1 ts2 sjw : Nat} (off : Nat) (htq : tq < 2 ^ 13) (h1 : ts1 - 1 < 2 ^ 5)
    (h2 : ts2 - 1 < 2 ^ 4) (hs : sjw - 1 < 2 ^ 4) {i : Nat} (hl : 26 ≤ i) (hi : i < 64) :
    (packFd p tq ts1 ts2 sjw off).getLsbD i =
      (p.fdBase.getLsbD i || (decide (55 ≤ i) && (tdcEnable off).testBit (i - 55)) ||
        (decide (40 ≤ i) && (off - 1).testBit (i - 40))) := by
  rw [packFd_bit _ _ _ _ _ _ _ hi, testBit_high htq (by omega), testBit_high h1 (by omega), testBit_high h2 (by omega),
    testBit_high hs (by omega)]
  simp

theorem tdcEnable_lt (off : Nat) : tdcEnable off < 2 ^ 1 := by
  unfold tdcEnable
  split <;> decide

/-- R91: the fixed bits of a packed FD word are those of the base. -/
theorem packFd_fixed {p : Params} (hp : paramsValid p = true) {tq ts1 ts2 sjw off : Nat} (htq : tq < 2 ^ 13)
    (h1 : ts1 - 1 < 2 ^ 5) (h2 : ts2 - 1 < 2 ^ 4) (hs : sjw - 1 < 2 ^ 4) (ho : off - 1 < 2 ^ p.tdcoBits) :
    packFd p tq ts1 ts2 sjw off &&& fdMask p = p.fdBase := by
  have hb : p.tdcoBits ≤ 15 := ((paramsValid_iff p).mp hp).2.2.2.1
  apply BitVec.eq_of_getLsbD_eq
  intro i hi
  rw [BitVec.getLsbD_and, fdMask_bit hb hi]
  by_cases hf : i < 26 ∨ 40 ≤ i ∧ i < 40 + p.tdcoBits ∨ i = 55
  · have hm : (decide (56 ≤ i) || (decide (40 + p.tdcoBits ≤ i) && decide (i ≤ 54)) ||
        (decide (26 ≤ i) && decide (i ≤ 39))) = false := by
      simp only [Bool.or_eq_false_iff, Bool.and_eq_false_iff, decide_eq_false_iff_not]
      omega
    rw [hm, Bool.and_false, fdBase_clear hp hi (by omega)]
  · have hm : (decide (56 ≤ i) || (decide (40 + p.tdcoBits ≤ i) && decide (i ≤ 54)) ||
        (decide (26 ≤ i) && decide (i ≤ 39))) = true := by
      simp only [Bool.or_eq_true, Bool.and_eq_true, decide_eq_true_eq]
      omega
    have he : (decide (55 ≤ i) && (tdcEnable off).testBit (i - 55)) = false := by
      by_cases h : 55 ≤ i
      · rw [testBit_high (tdcEnable_lt off) (by omega), Bool.and_false]
      · simp [h]
    have hofs : (decide (40 ≤ i) && (off - 1).testBit (i - 40)) = false := by
      by_cases h : 40 ≤ i
      · rw [testBit_high ho (by omega), Bool.and_false]
      · simp [h]
    rw [packFd_bit_high p off htq h1 h2 hs (by omega) hi, hm, he, hofs]
    simp

/-- R88, R91: bit 55 is set with a positive offset, and the offset field is 0 without one. -/
theorem packFd_offset {p : Params} (hp : paramsValid p = true) {tq ts1 ts2 sjw : Nat} (off : Nat) (htq : tq < 2 ^ 13)
    (h1 : ts1 - 1 < 2 ^ 5) (h2 : ts2 - 1 < 2 ^ 4) (hs : sjw - 1 < 2 ^ 4) :
    (packFd p tq ts1 ts2 sjw off).getLsbD 55 = true ∨ (packFd p tq ts1 ts2 sjw off).extractLsb' 40 15 = 0#15 := by
  rcases Nat.eq_zero_or_pos off with rfl | hpos
  · refine .inr (BitVec.eq_of_getLsbD_eq fun j hj => ?_)
    rw [BitVec.getLsbD_extractLsb', packFd_bit_high p 0 htq h1 h2 hs (by omega) (by omega),
      fdBase_clear hp (by omega) (by omega)]
    simp
    omega
  · left
    rw [packFd_bit_high p off htq h1 h2 hs (by omega) (by omega)]
    simp [tdcEnable, Nat.ne_of_gt hpos]

/-- R91: the word ENC_FD computes is canonical. -/
theorem encodeFd_canonical {p : Params} (hp : paramsValid p = true) {pr ts1 ts2 sjw off : Nat} {v : Word}
    (h : encodeFd p pr ts1 ts2 sjw off = some v) : canonicalFd p v = true := by
  obtain ⟨htq, -, h1, -, h2, -, hs, ho, rfl⟩ := encodeFd_some h
  have hpow : 0 < 2 ^ p.tdcoBits := Nat.two_pow_pos _
  exact (canonicalFd_iff p _).mpr ⟨packFd_fixed hp htq (by omega) (by omega) (by omega) (by omega),
    packFd_offset hp off htq (by omega) (by omega) (by omega)⟩

/-- What a parameter form leaves in the record of its session: the encoder's word, or the staged word of before. -/
theorem stageEncoded_stagedWord {sess : BitVec 8} {i : Instr} {s t : State} {r q : Session} {ph : Phase} {v : Word}
    {w : InFlight → State → Option Word} (hr : s.sessions[sess.toNat]? = some r) (hq : t.sessions[sess.toNat]? = some q)
    (h : sessionOp sess i s (fun k f _ u => .next (stageEncoded k f ph (w f u) u)) = .next t)
    (hv : q.stagedWord ph = some v) (hne : r.stagedWord ph ≠ some v) :
    w (startFlight i s.port) (s.lock sess.toNat i) = some v := by
  have hkeep : ∀ {u : State} {g : Session → Session}, u.sessions = s.sessions.modify sess.toNat g →
      (∀ x, (g x).stagedWord ph = x.stagedWord ph) → u.sessions[sess.toNat]? = some q → r.stagedWord ph = some v := by
    intro u g hu hg hq
    obtain rfl : g r = q := by simpa [hu, hr] using hq
    rwa [hg] at hv
  rcases sessionOp_cases sess i s (fun k f _ u => .next (stageEncoded k f ph (w f u) u)) with
    ⟨-, he⟩ | ⟨x, -, ⟨-, he⟩ | ⟨-, -, he⟩ | ⟨-, -, he⟩⟩ <;> rw [he] at h <;> cases h
  · exact absurd (hkeep (u := s.hold i) (g := id) (by simp) (fun _ => rfl) hq) hne
  · exact absurd (hkeep (by rw [State.complete_sessions, State.lock_sessions, modify_modify]) (fun _ => by cases ph <;> rfl) hq) hne
  · cases hw : w (startFlight i s.port) (s.lock sess.toNat i) with
    | none =>
      rw [hw] at hq
      exact absurd (hkeep (by rw [stageEncoded, State.raise_eq, State.complete_sessions, State.lock_sessions, modify_modify])
        (fun _ => by cases ph <;> rfl) hq) hne
    | some v' =>
      rw [hw] at hq
      obtain rfl : ((Session.locked (startFlight i s.port) r).staged ph v').completed .ok 0#32 = q := by
        simpa [stageEncoded, hr] using hq
      cases ph <;> exact hv

/-- Settles O35: a word that was not staged before is the encoder's, which is canonical. -/
theorem stagedParIsCanonical : Obligations.StagedParIsCanonical := by
  intro sess s t r q v hp hr hq
  refine ⟨fun h hv hne => ?_, fun h hv hne => ?_⟩
  · rw [exec, execCfgArbPar] at h
    have hw := stageEncoded_stagedWord (ph := .arb) (w := fun f u => f.cmd.arbWord? u.params) hr hq h hv hne
    exact (canonicalArb_iff _ _).mp (encodeArb_canonical hp hw)
  · rw [exec, execCfgFdPar] at h
    have hw := stageEncoded_stagedWord (ph := .fd) (w := fun f u => f.cmd.fdWord? u.params) hr hq h hv hne
    exact (canonicalFd_iff _ _).mp (encodeFd_canonical hp hw)

/-! ### The step, the stores and reset -/

/-- Settles O6: `step_of_wellFormed`, the only way of a step from a well-formed command on the port. -/
theorem stepRunsTheCommand : Obligations.StepRunsTheCommand := fun _ _ hv hd hw => step_of_wellFormed hv hd hw

/-- Settles O37: `Memory.read_write`, and the keys are injective. -/
theorem storeWrites : Obligations.StoreWrites :=
  ⟨fun m a b v => ⟨by simp [Memory.read_write], fun hne => by simp [Memory.read_write, hne]⟩, fun _ _ _ _ => timingKey_inj,
    fun _ _ _ _ => nvKey_inj⟩

/-- Settles O47: every record of the arena is `Session.reset`. -/
theorem resetState : Obligations.ResetState := by
  refine ⟨rfl, fun k r hr => ?_, rfl, rfl, fun _ => rfl, fun _ => rfl⟩
  obtain rfl : r = Session.reset := List.eq_of_mem_replicate (List.mem_of_getElem? hr)
  exact ⟨rfl, rfl, rfl, rfl, rfl, rfl, rfl, rfl, rfl, rfl⟩

/-- Settles O48: the step takes the event, which is `State.assertReset`. -/
theorem resetEvent : Obligations.ResetEvent := by
  intro s rest hv he
  simp [step, hv, nextEvent, he, State.assertReset]

end Sys2Proof.Machine
end

section
/-! Memory: commands that are held until their session is free (20_memory.md R63, R64, R71), and operations that make no
controller call (R62). -/

namespace Sys2Proof.Machine

/-! ### Held commands -/

/-- R63: a session operation whose frame list is well-formed is a `sessionOp`. -/
theorem exec_eq_sessionOp {i : Instr} {sess : BitVec 8} {s : State} (hs : i.session? = some sess)
    (hf : framesRefused (framesNeeded i) s.port.framesIn = none) : ∃ body, exec i s = sessionOp sess i s body := by
  cases i <;> simp only [Instr.session?, Option.some.injEq, reduceCtorEq] at hs <;> subst hs
  case send => exact ⟨_, withFrames_passes hf⟩
  case sendn => exact ⟨_, withFrames_passes hf⟩
  all_goals
    simp only [exec, execDiscover, execOpen, execClose, execCfgArbRaw, execCfgArbPar, execCfgFdRaw, execCfgFdPar, execApply,
      execRecv, execRecvn, execProbeTerm, execProbeEcho, execProbeBlink, execProbeTxmode, probe]
    exact ⟨_, rfl⟩

/-- R63: a session operation whose session is taken is held. -/
theorem exec_of_busy {i : Instr} {sess : BitVec 8} {s : State} {r : Session} (hs : i.session? = some sess)
    (hf : framesRefused (framesNeeded i) s.port.framesIn = none) (hr : s.sessions[sess.toNat]? = some r)
    (hb : r.busy = true) : exec i s = .next (s.hold i) := by
  obtain ⟨body, he⟩ := exec_eq_sessionOp hs hf
  rw [he, sessionOp_holds hr hb]

theorem eq_hold_of_busy {i : Instr} {sess : BitVec 8} {s t : State} {r : Session} (hs : i.session? = some sess)
    (hr : s.sessions[sess.toNat]? = some r) (hb : r.busy = true) (h : exec i s = .next t) : t = s.hold i := by
  cases hf : framesRefused (framesNeeded i) s.port.framesIn with
  | none =>
    rw [exec_of_busy hs hf hr hb] at h
    cases h
    rfl
  | some why =>
    rw [exec_of_framesRefused hf] at h
    cases h

/-- Settles O23: `exec_of_busy`, with `State.hold` written out. -/
theorem heldWhileBusy : Obligations.HeldWhileBusy := fun _ _ _ _ hs hf hr hb => exec_of_busy hs hf hr hb

/-- Settles O24: the step takes the event, and the session of the held command is free. -/
theorem anyHeldCommandIsAdmitted : Obligations.AnyHeldCommandIsAdmitted := by
  intro s j c sess r rest hv he hc hs hr hb
  have hfree : State.freeFor { s with env := rest } c.instr = true := by simp [State.freeFor, hs, hr, hb]
  have hstep : step s = onAdmit j { s with env := rest } := by simp [step, hv, nextEvent, he]
  rw [hstep, onAdmit]
  simp only [hc, if_pos hfree]

/-! ### Operations that make no controller call -/

/-- No controller call is made and no event taken from `s` to `t`. -/
structure Quiet (s t : State) : Prop where
  calls : callsIn t.history = callsIn s.history
  env : t.env = s.env

theorem Quiet.trans {s t u : State} (h : Quiet s t) (h' : Quiet t u) : Quiet s u :=
  ⟨h'.calls.trans h.calls, h'.env.trans h.env⟩

theorem hold_quiet (s : State) (i : Instr) : Quiet s (s.hold i) := ⟨rfl, rfl⟩

theorem updSession_quiet (s : State) (k : Nat) (g : Session → Session) : Quiet s (s.updSession k g) := ⟨rfl, rfl⟩

theorem lock_quiet (s : State) (k : Nat) (i : Instr) : Quiet s (s.lock k i) := ⟨by simp [callsIn], rfl⟩

theorem complete_quiet (s : State) (k req : Nat) (kind : ResultKind) (code : Word32) (res : Results) :
    Quiet s (s.complete k req kind code res) := ⟨by simp [callsIn], rfl⟩

theorem answerAtOnce_quiet (s : State) (i : Instr) (kind : ResultKind) (res : Results) :
    Quiet s (s.answerAtOnce i kind res) := ⟨by simp [callsIn], rfl⟩

theorem stageEncoded_quiet (k : Nat) (f : InFlight) (ph : Phase) (w : Option Word) (s : State) :
    Quiet s (stageEncoded k f ph w s) := by
  unfold stageEncoded
  split
  · exact (updSession_quiet ..).trans (complete_quiet ..)
  · exact complete_quiet ..

/-- R63: a session operation is quiet if its body is. -/
theorem sessionOp_quiet {sess : BitVec 8} {i : Instr} {s t : State} {body : Nat → InFlight → Session → State → Result}
    (hbody : ∀ k f r u, body k f r u = .next t → Quiet u t) (h : sessionOp sess i s body = .next t) : Quiet s t := by
  rcases sessionOp_cases sess i s body with ⟨-, he⟩ | ⟨r, -, ⟨-, he⟩ | ⟨-, -, he⟩ | ⟨-, -, he⟩⟩ <;> rw [he] at h
  · cases h
  · cases h
    exact hold_quiet s i
  · cases h
    exact (lock_quiet ..).trans (complete_quiet ..)
  · exact (lock_quiet ..).trans (hbody _ _ _ _ h)

/-- R131: the four codec operations answer at once. -/
theorem codec_answersAtOnce {i : Instr} (hi : i ∈ [.encArb, .encFd, .decArb, .decFd]) (s : State) :
    ∃ kind res, exec i s = .next (s.answerAtOnce i kind res) := by
  simp only [List.mem_cons, List.not_mem_nil, or_false] at hi
  rcases hi with rfl | rfl | rfl | rfl <;>
    simp only [exec, execEncArb, execEncFd, execDecArb, execDecFd, answerEncode] <;> split <;> exact ⟨_, _, rfl⟩

theorem codec_quiet {i : Instr} (hi : i ∈ [.encArb, .encFd, .decArb, .decFd]) {s t : State} (h : exec i s = .next t) :
    Quiet s t := by
  obtain ⟨kind, res, he⟩ := codec_answersAtOnce hi s
  rw [he] at h
  cases h
  exact answerAtOnce_quiet ..

theorem execOpen_quiet {sess : BitVec 8} {type : OpenType} {mode : OpenMode} {s t : State}
    (h : execOpen sess type mode s = .next t) : Quiet s t := by
  refine sessionOp_quiet (fun k f r u hb => ?_) h
  split at hb
  · cases hb
    exact complete_quiet ..
  · split at hb <;> cases hb
    · exact complete_quiet ..
    · exact (updSession_quiet ..).trans (complete_quiet ..)

/-- R171, R173: a raw form stages its operand and ends. -/
theorem cfgRaw_quiet {sess : BitVec 8} {i : Instr} {ph : Phase} {s t : State}
    (h : sessionOp sess i s (fun k f _ u => .next ((u.stage k ph f.cmd.a0).finishOk k f.cmd.req {})) = .next t) :
    Quiet s t := by
  refine sessionOp_quiet (fun k f r u hb => ?_) h
  cases hb
  exact (updSession_quiet ..).trans (complete_quiet ..)

/-- R172, R174: a parameter form stages the encoder's word, or fails, and ends. -/
theorem cfgPar_quiet {sess : BitVec 8} {i : Instr} {ph : Phase} {w : InFlight → State → Option Word} {s t : State}
    (h : sessionOp sess i s (fun k f _ u => .next (stageEncoded k f ph (w f u) u)) = .next t) : Quiet s t := by
  refine sessionOp_quiet (fun k f r u hb => ?_) h
  cases hb
  exact stageEncoded_quiet ..

/-- Settles O59: the codec operations answer at once, and the bodies of OPEN and the configure operations write the record and
end. -/
theorem localOperations : Obligations.LocalOperations := by
  intro i sess type mode s t hi h
  suffices hq : Quiet s t from ⟨hq.calls, hq.env⟩
  simp only [List.mem_cons, List.not_mem_nil, or_false] at hi
  rcases hi with rfl | rfl | rfl | rfl | rfl | rfl | rfl | rfl | rfl
  · exact codec_quiet (by simp) h
  · exact codec_quiet (by simp) h
  · exact codec_quiet (by simp) h
  · exact codec_quiet (by simp) h
  · exact execOpen_quiet h
  · exact cfgRaw_quiet h
  · exact cfgPar_quiet (w := fun f u => f.cmd.arbWord? u.params) h
  · exact cfgRaw_quiet h
  · exact cfgPar_quiet (w := fun f u => f.cmd.fdWord? u.params) h

end Sys2Proof.Machine
end

section
/-! Memory: the answers of the controller, which may come at once or in any later step (20_memory.md R52, R62, R281). What an
answer makes of an operation does not depend on the events behind it (`answered_withEnv`). So an operation is its part up to its
first call, whatever is to come, and then `settle` (`SettlesFrom`), and an answer taken in a later step is taken as `settle`
takes it (`onAnswer_eq_settle`). -/

namespace Sys2Proof.Machine

/-! ### The events behind an answer -/

/-- The state with other events of the world outside to come. -/
def State.withEnv (s : State) (l : List EnvEvent) : State := { s with env := l }

section
variable (k : Nat) (f : InFlight) (s : State) (l : List EnvEvent)

theorem State.applied_withEnv (b : Bool) (h : Handle) (ph : Phase) (v : Word) :
    (s.withEnv l).applied b k h ph v = (s.applied b k h ph v).withEnv l := by
  have hn : (s.withEnv l).name? k = s.name? k := rfl
  unfold State.applied
  rw [hn]
  split <;> rfl

theorem applyFd_withEnv (h : Handle) : applyFd k f h (s.withEnv l) = (applyFd k f h s).withEnv l := by
  have hw : (s.withEnv l).fdStaged? k = s.fdStaged? k := rfl
  unfold applyFd
  rw [hw]
  split <;> rfl

theorem discoverNamed_withEnv (names : List Name) :
    discoverNamed k f names (s.withEnv l) = (discoverNamed k f names s).withEnv l := by
  have hb : (s.withEnv l).bound f.cmd.nameIn = s.bound f.cmd.nameIn := rfl
  unfold discoverNamed
  rw [hb]
  split
  · rfl
  · split <;> rfl

theorem sendnFrom_withEnv (count : Nat) (h : Handle) (t : Word32) (i : Nat) :
    sendnFrom count k f h t i (s.withEnv l) = (sendnFrom count k f h t i s).withEnv l := by
  unfold sendnFrom
  split <;> rfl

theorem recvnFrom_withEnv (count : Nat) (h : Handle) (t : Word32) (got : List Frame) :
    recvnFrom count k f h t got (s.withEnv l) = (recvnFrom count k f h t got s).withEnv l := by
  unfold recvnFrom
  split <;> rfl

/-- R52: how an operation goes on with an answer does not depend on the events to come. -/
theorem resumeAny_withEnv (a : CtlAnswer) : resumeAny k f a (s.withEnv l) = (resumeAny k f a s).map (·.withEnv l) := by
  have hprobe : resumeProbe k f a (s.withEnv l) = (resumeProbe k f a s).map (·.withEnv l) := by
    unfold resumeProbe
    split <;> rfl
  unfold resumeAny
  cases f.instr <;> dsimp only
  case discover =>
    unfold resumeDiscover
    split
    · exact congrArg some (discoverNamed_withEnv ..)
    all_goals rfl
  case closeSess =>
    unfold resumeClose
    split <;> rfl
  case apply =>
    unfold resumeApply
    split
    · rw [State.applied_withEnv, applyFd_withEnv]
      rfl
    · rw [State.applied_withEnv]
      rfl
    · rfl
  case send =>
    unfold resumeSend
    split <;> rfl
  case sendn =>
    unfold resumeSendn
    split
    · exact congrArg some (sendnFrom_withEnv ..)
    all_goals rfl
  case recv =>
    unfold resumeRecv
    split <;> rfl
  case recvn =>
    unfold resumeRecvn
    split
    · exact congrArg some (recvnFrom_withEnv ..)
    all_goals rfl
  case probeTerm => exact hprobe
  case probeEcho => exact hprobe
  case probeBlink => exact hprobe
  case probeTxmode => exact hprobe
  all_goals rfl

theorem answered_withEnv (a : CtlAnswer) : answered k a (s.withEnv l) = (answered k a s).map (·.withEnv l) := by
  have hf : (s.withEnv l).inflight? k = s.inflight? k := rfl
  unfold answered
  rw [hf]
  split
  case _ => rfl
  case _ f _ =>
    split
    · rfl
    · split
      · exact resumeAny_withEnv k f (s.record _) l a
      · rfl

end

/-- An event is taken only if it answers the session's call (R52). -/
theorem drain_cons (k : Nat) (e : EnvEvent) (rest : List EnvEvent) (s : State) :
    drain k (e :: rest) s = s ∨ ∃ a v, e = .answer k a ∧ answered k a (s.withEnv rest) = some v := by
  unfold drain
  split
  case _ j a =>
    split
    case _ hj =>
      subst hj
      split
      case _ v hv => exact .inr ⟨a, v, rfl, hv⟩
      case _ => exact .inl rfl
    case _ => exact .inl rfl
  case _ => exact .inl rfl

/-- R281: with no answer of its own next, an operation in flight waits. -/
theorem drain_waits {k : Nat} {l : List EnvEvent} (h : ∀ a, l.head? ≠ some (.answer k a)) (s : State) :
    drain k l s = s := by
  cases l with
  | nil => rfl
  | cons e rest =>
    rcases drain_cons k e rest s with hs | ⟨a, -, rfl, -⟩
    · exact hs
    · exact absurd rfl (h a)

/-- An operation that has taken all the events to come goes on with any further ones as if they came later. -/
theorem drain_append {k : Nat} (m : List EnvEvent) {l : List EnvEvent} {s : State} (hs : s.env = l)
    (hd : (drain k l s).env = []) : drain k (l ++ m) (s.withEnv (l ++ m)) = drain k m ((drain k l s).withEnv m) := by
  induction l generalizing s with
  | nil => rfl
  | cons e rest ih =>
    rcases drain_cons k e rest s with hstop | ⟨a, v, rfl, hv⟩
    · rw [hstop, hs] at hd
      cases hd
    · have hv' : answered k a ((s.withEnv (.answer k a :: rest ++ m)).withEnv (rest ++ m)) =
          some (v.withEnv (rest ++ m)) := by
        have h := answered_withEnv k (s.withEnv rest) (rest ++ m) a
        rwa [hv] at h
      rw [drain_answer hv] at hd ⊢
      exact (drain_answer hv').trans (ih (answered_env hv) hd)

/-- `F`, by the events to come, has no next state, or goes on from one state as `settle` does. -/
def SettlesFrom (k : Nat) (F : List EnvEvent → Result) : Prop :=
  (∀ l t, F l ≠ .next t) ∨ ∃ u : State, ∀ l, F l = .next (settle k (u.withEnv l))

/-- Where `F` has taken all the events to come, more of them go on from there. -/
theorem SettlesFrom.append {k : Nat} {F : List EnvEvent → Result} (h : SettlesFrom k F) {l : List EnvEvent} {t : State}
    (ht : F l = .next t) (he : t.env = []) (m : List EnvEvent) : F (l ++ m) = .next (settle k (t.withEnv m)) := by
  rcases h with h | ⟨u, hu⟩
  · exact absurd ht (h l t)
  · rw [hu] at ht ⊢
    cases ht
    exact congrArg Host.Outcome.next (drain_append (s := u.withEnv l) m rfl he)

theorem SettlesFrom.congr {k : Nat} {F G : List EnvEvent → Result} (h : SettlesFrom k G) (he : ∀ l, F l = G l) :
    SettlesFrom k F := funext he ▸ h

section
variable {sess : BitVec 8} {i : Instr} {s : State} {k : Nat}

theorem SettlesFrom.settled {G : List EnvEvent → State} {u : State} (h : ∀ l, G l = u.withEnv l) :
    SettlesFrom k fun l => .next (settle k (G l)) :=
  .inr ⟨u, fun l => congrArg (fun v => Host.Outcome.next (settle k v)) (h l)⟩

theorem SettlesFrom.call (u : State) (f : InFlight) (c : CtlCall) :
    SettlesFrom k fun l => .next (settle k ((u.withEnv l).call k f c)) := .settled (u := u.call k f c) fun _ => rfl

theorem SettlesFrom.idle {u : State} (h : u.outstanding k = false) : SettlesFrom k fun l => .next (u.withEnv l) :=
  .inr ⟨u, fun l => congrArg Host.Outcome.next (drain_idle (s := u.withEnv l) h _).symm⟩

theorem SettlesFrom.complete (u : State) (req : Nat) (kind : ResultKind) (code : Word32) (res : Results) :
    SettlesFrom k fun l => .next ((u.withEnv l).complete k req kind code res) :=
  .idle (u := u.complete k req kind code res) (outstanding_complete ..)

theorem SettlesFrom.withHandle {r : Session} {body : List EnvEvent → Handle → Result}
    (h : ∀ hd, SettlesFrom k fun l => body l hd) : SettlesFrom k fun l => withHandle r (body l) := by
  unfold Machine.withHandle
  cases r.handle with
  | none => exact .inl fun _ _ => by simp
  | some hd => exact h hd

theorem SettlesFrom.withFrames {body : List EnvEvent → Result} (h : SettlesFrom k body) :
    SettlesFrom k fun l => withFrames i (s.withEnv l) (body l) := by
  cases hf : framesRefused (framesNeeded i) s.port.framesIn with
  | none => exact h.congr fun l => withFrames_passes (s := s.withEnv l) hf
  | some why => exact .inl fun l t => by simp [withFrames_refused (s := s.withEnv l) hf]

/-- R63, R150: an operation whose session is not taken settles if its body does. -/
theorem SettlesFrom.sessionOp {body : Nat → InFlight → Session → State → Result}
    (hfree : ∀ r, s.sessions[sess.toNat]? = some r → r.busy = false)
    (hbody : ∀ r, s.sessions[sess.toNat]? = some r → SettlesFrom sess.toNat fun l =>
      body sess.toNat (startFlight i s.port) r ((s.lock sess.toNat i).withEnv l)) :
    SettlesFrom sess.toNat fun l => sessionOp sess i (s.withEnv l) body := by
  cases hr : s.sessions[sess.toNat]? with
  | none => exact .inl fun l t => by simp [Machine.sessionOp, State.withEnv, hr]
  | some r =>
    have hb := hfree r hr
    cases ha : acceptedIn i r.state with
    | false =>
      exact (complete (s.lock sess.toNat i) s.port.req .invalidChannelState 0#32 {}).congr fun l =>
        sessionOp_rejects (s := s.withEnv l) hr hb ha
    | true => exact (hbody r hr).congr fun l => sessionOp_runs (s := s.withEnv l) hr hb ha

theorem SettlesFrom.probe {id : Capability} (hfree : ∀ r, s.sessions[sess.toNat]? = some r → r.busy = false) :
    SettlesFrom sess.toNat fun l => probe id sess i (s.withEnv l) :=
  .sessionOp hfree fun _ _ => .withHandle fun _ => .call (s.lock sess.toNat i) ..

/-- The end of a parameter form (R172, R174). -/
theorem SettlesFrom.stageEncoded (f : InFlight) (ph : Phase) (w : Option Word) (u : State) :
    SettlesFrom k fun l => .next (stageEncoded k f ph w (u.withEnv l)) := by
  cases w with
  | none => exact .complete u ..
  | some v => exact .complete (u.stage k ph v) ..

/-- APPLY from its start (R176). -/
theorem SettlesFrom.applyArb (f : InFlight) (r : Session) (h : Handle) (u : State) :
    SettlesFrom k fun l => .next (settle k (applyArb k f r h (u.withEnv l))) := by
  unfold Machine.applyArb
  split
  · exact .call u ..
  · exact .settled fun _ => applyFd_withEnv ..

/-- R52, R62: a session operation whose session is not taken is its part up to its first call, and then takes what answers
come next. -/
theorem exec_settlesFrom (hs : i.session? = some sess) (hfree : ∀ r, s.sessions[sess.toNat]? = some r → r.busy = false) :
    SettlesFrom sess.toNat fun l => exec i (s.withEnv l) := by
  cases i <;> simp only [Instr.session?, Option.some.injEq, reduceCtorEq] at hs <;> subst hs <;> simp only [exec]
  case discover sess =>
    refine .sessionOp hfree fun r hr => ?_
    cases hd : s.dlock with
    | true =>
      have hidle : (s.lock sess.toNat (.discover sess)).outstanding sess.toNat = false := by
        simp [State.outstanding, State.inflight?, hr, startFlight]
      exact (SettlesFrom.idle hidle).congr fun _ => if_pos hd
    | false =>
      exact (SettlesFrom.call { s.lock sess.toNat (.discover sess) with dlock := true } ..).congr fun _ =>
        if_neg (by simp [State.withEnv, hd])
  case openSess sess type mode =>
    refine .sessionOp hfree fun r hr => ?_
    split
    · exact .complete ..
    · split
      · exact .complete ..
      · exact .complete (State.updSession _ _ _) ..
  case closeSess sess =>
    exact .sessionOp hfree fun _ _ => .withHandle fun h => .call (s.lock sess.toNat _) ..
  case cfgArbRaw sess => exact .sessionOp hfree fun r _ => .complete (State.stage _ _ _ _) ..
  case cfgArbPar sess =>
    exact .sessionOp hfree fun r _ => .stageEncoded _ .arb (s.port.arbWord? s.params) (s.lock sess.toNat _)
  case cfgFdRaw sess => exact .sessionOp hfree fun r _ => .complete (State.stage _ _ _ _) ..
  case cfgFdPar sess =>
    exact .sessionOp hfree fun r _ => .stageEncoded _ .fd (s.port.fdWord? s.params) (s.lock sess.toNat _)
  case apply sess temporary =>
    refine .sessionOp hfree fun r _ => .withHandle fun h => ?_
    cases r.name with
    | none => exact .inl fun _ _ => by simp
    | some => exact .applyArb ..
  case send sess =>
    refine .withFrames (.sessionOp hfree fun r _ => .withHandle fun h => ?_)
    dsimp only [startFlight]
    cases s.port.framesIn with
    | nil => exact .inl fun _ _ => by simp
    | cons fr => exact .call (s.lock sess.toNat _) ..
  case sendn sess count =>
    exact .withFrames (.sessionOp hfree fun _ _ => .withHandle fun h => .settled fun _ => sendnFrom_withEnv ..)
  case recv sess =>
    exact .sessionOp hfree fun _ _ => .withHandle fun h => .call (s.lock sess.toNat _) ..
  case recvn sess count =>
    exact .sessionOp hfree fun _ _ => .withHandle fun h => .settled fun _ => recvnFrom_withEnv ..
  case probeTerm sess => exact .probe hfree
  case probeEcho sess => exact .probe hfree
  case probeBlink sess => exact .probe hfree
  case probeTxmode sess => exact .probe hfree

end

/-! ### What a step does that ends with a call -/

/-- The controller calls of session `k` in a history. -/
def sessionCalls (k : Nat) (h : List HistEvent) : List CtlCall :=
  h.filterMap fun e =>
    match e with
    | .ctlCall (.session j) c => if j = k then some c else none
    | _ => none

theorem sessionCalls_of_call {k : Nat} {s t : State} {new : List HistEvent} {c : CtlCall}
    (h : t.history = s.history ++ new ++ [.ctlCall (.session k) c]) :
    sessionCalls k t.history ≠ sessionCalls k s.history := by
  intro he
  have hlen := congrArg List.length he
  simp [h, sessionCalls] at hlen

theorem Piece.sessionCalls_other {i : Instr} {j k : Nat} {s t : State} (hjk : j ≠ k) (h : Piece i j s t) :
    sessionCalls k t.history = sessionCalls k s.history := by
  cases h <;> simp [sessionCalls, hjk, State.forgetTiming]

theorem Pieces.sessionCalls_other {i : Instr} {j k : Nat} {s t : State} (hjk : j ≠ k) (h : Pieces i j s t) :
    sessionCalls k t.history = sessionCalls k s.history :=
  h.gives (R := fun s t => sessionCalls k t.history = sessionCalls k s.history) (fun _ => rfl)
    (fun _ _ _ h h' => h'.trans h) (fun _ _ => Piece.sessionCalls_other hjk)

/-- An answer makes calls for its own session only, and leaves the port alone. -/
theorem answered_frame {k : Nat} {a : CtlAnswer} {s t : State} (h : answered k a s = some t) :
    t.portValid = s.portValid ∧ ∀ j, k ≠ j → sessionCalls j t.history = sessionCalls j s.history := by
  obtain ⟨f, c, hf, -⟩ := answered_some h
  have hp := answered_pieces hf h
  exact ⟨(hp.gives (Framed.refl f.instr k) (fun _ _ _ => Framed.trans) fun _ _ => Piece.framed).portValid,
    fun j hj => hp.sessionCalls_other hj⟩

theorem settle_frame {k : Nat} (s : State) : (settle k s).portValid = s.portValid ∧
    ∀ j, k ≠ j → sessionCalls j (settle k s).history = sessionCalls j s.history := by
  refine settle_keeps (P := fun x => x.portValid = s.portValid ∧
    ∀ j, k ≠ j → sessionCalls j x.history = sessionCalls j s.history) k ?_ s ⟨rfl, fun _ _ => rfl⟩
  rintro rest a u v ⟨hp, hc⟩ ha
  obtain ⟨hport, hother⟩ := answered_frame ha
  exact ⟨hport.trans hp, fun j hj => (hother j hj).trans (hc j hj)⟩

theorem answerText_sessionCalls (k j : Nat) (text : List Byte) (s : State) :
    sessionCalls k (answerText j text s).history = sessionCalls k s.history := by
  unfold answerText
  split
  · simp [lookupDone, sessionCalls]
  · rfl

/-- R131, R215: an operation without a session makes no call for one. -/
theorem exec_sessionless_sessionCalls {i : Instr} {s t : State} (hs : i.session? = none) (h : exec i s = .next t) (k : Nat) :
    sessionCalls k t.history = sessionCalls k s.history := by
  have hcodec (hi : i ∈ [.encArb, .encFd, .decArb, .decFd]) : sessionCalls k t.history = sessionCalls k s.history := by
    obtain ⟨kind, res, he⟩ := codec_answersAtOnce hi s
    rw [he] at h
    cases h
    simp [sessionCalls]
  cases i <;> simp only [Instr.session?, reduceCtorEq] at hs
  case errtext =>
    cases h
    have hstart : sessionCalls k (lookupStart s).history = sessionCalls k s.history := by simp [lookupStart, sessionCalls]
    unfold settleText
    split
    · split
      · exact (answerText_sessionCalls ..).trans hstart
      · exact hstart
    · exact hstart
  case arbWord => cases h
  case fdWord => cases h
  all_goals exact hcodec (by simp)

/-- Where `F`, by the events to come, makes a call for session `k`, it goes on from there as `settle` does. -/
def CallsSettle (k : Nat) (s : State) (F : List EnvEvent → Result) : Prop :=
  ∀ l t, F l = .next t → sessionCalls k t.history ≠ sessionCalls k s.history → t.portValid = false ∧ SettlesFrom k F

section
variable {k : Nat} {s : State}

theorem CallsSettle.congr {F G : List EnvEvent → Result} (h : CallsSettle k s G) (he : ∀ l, F l = G l) :
    CallsSettle k s F := funext he ▸ h

theorem CallsSettle.still {G : List EnvEvent → State} (h : ∀ l, sessionCalls k (G l).history = sessionCalls k s.history) :
    CallsSettle k s fun l => .next (G l) := by
  rintro l t ⟨⟩ hc
  exact absurd (h l) hc

theorem CallsSettle.refused (why : Refusal) : CallsSettle k s fun _ => .refused why := by
  rintro l t ⟨⟩

/-- What session `j` settles makes no call for another session. -/
theorem CallsSettle.settled {j : Nat} {u : State} (hv : u.portValid = false)
    (hu : ∀ i, j ≠ i → sessionCalls i u.history = sessionCalls i s.history) :
    CallsSettle k s fun l => .next (settle j (u.withEnv l)) := by
  rintro l t ⟨⟩ hc
  obtain ⟨hport, hother⟩ := settle_frame (k := j) (u.withEnv l)
  obtain rfl : j = k := by
    by_contra hjk
    exact hc ((hother k hjk).trans (hu k hjk))
  exact ⟨hport.trans hv, .settled fun _ => rfl⟩

theorem exec_callsSettle (i : Instr) (hv : s.portValid = false) : CallsSettle k s fun l => exec i (s.withEnv l) := by
  intro l t h hc
  cases hs : i.session? with
  | none => exact absurd (exec_sessionless_sessionCalls hs h k) hc
  | some sess =>
    obtain rfl : sess.toNat = k := by
      by_contra hk
      exact hc (Pieces.sessionCalls_other (s := s.withEnv l) hk (exec_pieces hs h))
    refine ⟨(exec_framed hs h).portValid.trans hv, exec_settlesFrom hs fun r hr => ?_⟩
    cases hb : r.busy with
    | false => rfl
    | true =>
      obtain rfl := eq_hold_of_busy (s := s.withEnv l) hs hr hb h
      exact absurd rfl hc

theorem onAnswer_callsSettle (j : Nat) (a : CtlAnswer) (hv : s.portValid = false) :
    CallsSettle k s fun l => .next (onAnswer j a (s.withEnv l)) := by
  cases ha : answered j a s with
  | none => exact (CallsSettle.still (G := s.withEnv) fun _ => rfl).congr fun l => by simp [onAnswer, answered_withEnv, ha]
  | some v =>
    obtain ⟨hport, hother⟩ := answered_frame ha
    exact (CallsSettle.settled (hport.trans hv) hother).congr fun l => by simp [onAnswer, answered_withEnv, ha]

theorem onGrant_callsSettle (j : Nat) (hv : s.portValid = false) :
    CallsSettle k s fun l => .next (onGrant j (s.withEnv l)) := by
  have hwait : ∀ l, (s.withEnv l).waitsForDlock j = s.waitsForDlock j := fun _ => rfl
  have hlock : ∀ l, (s.withEnv l).dlock = s.dlock := fun _ => rfl
  have hstill : CallsSettle k s fun l => .next (s.withEnv l) := .still fun _ => rfl
  cases hw : s.waitsForDlock j with
  | none => exact hstill.congr fun l => by simp [onGrant, hwait, hw]
  | some f =>
    cases hd : s.dlock with
    | true => exact hstill.congr fun l => by simp [onGrant, hwait, hw, hlock, hd]
    | false =>
      refine (CallsSettle.settled (j := j) (u := discoverEnumerate j f s) hv fun i hi => ?_).congr fun l => ?_
      · simp [discoverEnumerate, sessionCalls, hi]
      · exact congrArg Host.Outcome.next (onGrant_of_free (s := s.withEnv l) hw hd)

theorem onAdmit_callsSettle (j : Nat) (hv : s.portValid = false) : CallsSettle k s fun l => onAdmit j (s.withEnv l) := by
  have hheld : ∀ l, (s.withEnv l).held[j]? = s.held[j]? := fun _ => rfl
  have hstill : CallsSettle k s fun l => .next (s.withEnv l) := .still fun _ => rfl
  cases hc : s.held[j]? with
  | none => exact hstill.congr fun l => by simp [onAdmit, hheld, hc]
  | some c =>
    have hfree : ∀ l, (s.withEnv l).freeFor c.instr = s.freeFor c.instr := fun _ => rfl
    cases hf : s.freeFor c.instr with
    | false => exact hstill.congr fun l => by simp [onAdmit, hheld, hc, hfree, hf]
    | true =>
      have hexec : CallsSettle k s fun l => exec c.instr ({ s with held := s.held.eraseIdx j, port := c.cmd }.withEnv l) :=
        exec_callsSettle c.instr (s := { s with held := s.held.eraseIdx j, port := c.cmd }) hv
      exact hexec.congr fun l => by simp only [onAdmit, hheld, hc, hfree, hf]; rfl

theorem step_event (hv : s.portValid = false) (l : List EnvEvent) : step (s.withEnv l) = nextEvent (s.withEnv l) := by
  simp [step, State.withEnv, hv]

/-- R8, R52, R64, R151, R215: an event other than reset. -/
theorem event_callsSettle (hv : s.portValid = false) {e : EnvEvent} (he : e ≠ .reset) :
    CallsSettle k s fun l => step (s.withEnv (e :: l)) := by
  refine CallsSettle.congr ?_ fun l => step_event hv (e :: l)
  cases e with
  | present c => exact .still fun _ => rfl
  | answer j a => exact onAnswer_callsSettle j a hv
  | text j text => exact .still fun l => answerText_sessionCalls k j text (s.withEnv l)
  | admission j => exact onAdmit_callsSettle j hv
  | grant j => exact onGrant_callsSettle j hv
  | reset => exact absurd rfl he

/-- R21, R100: the command on the port. -/
theorem command_callsSettle (hv : s.portValid = true) : CallsSettle k s fun l => step (s.withEnv l) := by
  cases hd : decode s.port.word with
  | error e => exact (CallsSettle.refused _).congr fun l => step_of_decode_error (s := s.withEnv l) hv hd
  | ok i =>
    cases hw : i.wellFormed s.params.nSessions with
    | false => exact (CallsSettle.refused _).congr fun l => step_of_not_wellFormed (s := s.withEnv l) hv hd hw
    | true =>
      have hexec : CallsSettle k s fun l => exec i (s.taken.withEnv l) := exec_callsSettle i (s := s.taken) rfl
      exact hexec.congr fun l => step_of_wellFormed (s := s.withEnv l) hv hd hw

end

/-! ### An answer that comes later -/

theorem step_answer {s : State} (hv : s.portValid = false) (k : Nat) (a : CtlAnswer) (rest : List EnvEvent) :
    step (s.withEnv (.answer k a :: rest)) = .next (onAnswer k a (s.withEnv rest)) := by
  simp [step, nextEvent, State.withEnv, hv]

/-- An answer that comes in a step of its own is taken as one that comes at once (R52, R281). -/
theorem onAnswer_eq_settle {s v : State} {k : Nat} {a : CtlAnswer} {rest : List EnvEvent}
    (h : answered k a (s.withEnv rest) = some v) :
    onAnswer k a (s.withEnv rest) = settle k (s.withEnv (.answer k a :: rest)) := by
  have hv : v.env = rest := answered_env h
  have hd : drain k (.answer k a :: rest) (s.withEnv (.answer k a :: rest)) = drain k rest v := drain_answer h
  simp only [onAnswer, h, settle, hv]
  exact hd.symm

theorem SettlesFrom.answer_later {k : Nat} {F : List EnvEvent → Result} (hF : SettlesFrom k F) {l rest : List EnvEvent}
    {t : State} {a : CtlAnswer} (ht : F l = .next t) (he : t.env = []) (hp : t.portValid = false)
    (ha : (answered k a (t.withEnv rest)).isSome = true) :
    step (t.withEnv (.answer k a :: rest)) = F (l ++ .answer k a :: rest) := by
  obtain ⟨v, hv⟩ := Option.isSome_iff_exists.mp ha
  rw [step_answer hp, onAnswer_eq_settle hv, hF.append ht he]

/-- R52: an operation's first call, answered in a later step. -/
theorem first_answer_later {i : Instr} {sess : BitVec 8} {s t : State} {r : Session} {a : CtlAnswer} {rest : List EnvEvent}
    (hs : i.session? = some sess) (hv : s.portValid = false) (hr : s.sessions[sess.toNat]? = some r) (hb : r.busy = false)
    (he : s.env = []) (h : exec i s = .next t) (ha : (answered sess.toNat a (t.withEnv rest)).isSome = true) :
    step (t.withEnv (.answer sess.toNat a :: rest)) = exec i (s.withEnv (.answer sess.toNat a :: rest)) := by
  have hF := exec_settlesFrom (s := s) hs fun q hq => by
    rw [hr] at hq
    cases hq
    exact hb
  have hs0 : s.withEnv [] = s := by rw [State.withEnv, ← he]
  have hframed := exec_framed hs h
  have henv : t.env = [] := by
    obtain ⟨used, hused⟩ := hframed.env
    exact (List.append_eq_nil_iff.mp (hused.symm.trans he)).2
  exact hF.answer_later (l := []) (by rw [hs0]; exact h) henv (hframed.portValid.trans hv) ha

/-- R52: any call that a step ended by issuing, answered in a later step. -/
theorem any_answer_later {k : Nat} {s t : State} {taken rest : List EnvEvent} {new : List HistEvent} {c : CtlCall}
    {a : CtlAnswer} (h : step (s.withEnv taken) = .next t) (he : t.env = [])
    (hh : t.history = s.history ++ new ++ [.ctlCall (.session k) c]) (ha : (answered k a (t.withEnv rest)).isSome = true) :
    step (t.withEnv (.answer k a :: rest)) = step (s.withEnv (taken ++ .answer k a :: rest)) := by
  have hc := sessionCalls_of_call hh
  cases hv : s.portValid with
  | true =>
    obtain ⟨hp, hF⟩ := command_callsSettle hv taken t h hc
    exact hF.answer_later h he hp ha
  | false =>
    cases taken with
    | nil =>
      rw [step_event hv] at h
      cases h
      exact absurd rfl hc
    | cons e l =>
      by_cases hreset : e = .reset
      · rw [hreset, step_event hv] at h
        cases h
        simp [State.assertReset] at hh
      · obtain ⟨hp, hF⟩ := event_callsSettle hv hreset l t h hc
        exact hF.answer_later h he hp ha

/-! ### What an answer makes of each operation -/

/-- The state `s` after the answer `a` to a call of session `k` has ended its operation: the record `q` with the lock free,
the response to `req`, and the events `rest` still to come (R35, R52, R236). -/
def State.endedBy (s : State) (k req : Nat) (rest : List EnvEvent) (a : CtlAnswer) (kind : ResultKind) (code : Word32)
    (res : Results) (q : Session) : State :=
  { s with
    sessions := s.sessions.set k
      { q with
        lastError := if kind = .ok then q.lastError else ⟨kind, code⟩
        busy := false
        inflight := none }
    resp := ⟨statusWord kind code, res⟩
    respTo := req
    history := s.history ++ [.ctlRet (.session k) a, .complete req ⟨statusWord kind code, res⟩]
    env := rest }

/-- The state `s` after the answer `a` to a call of session `k` has made it issue the call `c`: the flight `g` goes on in the
record `r` (R35, R52, R62). -/
def State.callsOn (s : State) (k : Nat) (rest : List EnvEvent) (r : Session) (a : CtlAnswer) (g : InFlight) (c : CtlCall) :
    State :=
  { s with
    sessions := s.sessions.set k { r with inflight := some { g with call := some c } }
    history := s.history ++ [.ctlRet (.session k) a, .ctlCall (.session k) c]
    env := rest }

/-- The state in which an operation goes on with the answer `a` (R35). -/
def State.returned (s : State) (k : Nat) (rest : List EnvEvent) (a : CtlAnswer) : State :=
  (s.withEnv rest).record (.ctlRet (.session k) a)

/-- The command `f` is in flight on session `k`, whose record is `r`, with no further answer for `k` next in `rest`. -/
structure InFlightOn (k : Nat) (s : State) (r : Session) (f : InFlight) (rest : List EnvEvent) : Prop where
  port : s.portValid = false
  record : s.sessions[k]? = some r
  flight : r.inflight = some f
  last : ∀ a, rest.head? ≠ some (.answer k a)

section
variable {k : Nat} {s : State} {r : Session} {f : InFlight} {rest : List EnvEvent}

theorem State.returned_complete (hr : s.sessions[k]? = some r) (req : Nat) (a : CtlAnswer) (kind : ResultKind) (code : Word32)
    (res : Results) : (s.returned k rest a).complete k req kind code res = s.endedBy k req rest a kind code res r := by
  refine State.ext_fields rfl ?_ rfl rfl rfl rfl rfl rfl rfl rfl rfl rfl (List.append_assoc ..) rfl
  exact modify_eq_set hr _

theorem State.returned_updSession_complete (hr : s.sessions[k]? = some r) (g : Session → Session) (req : Nat)
    (a : CtlAnswer) (kind : ResultKind) (code : Word32) (res : Results) :
    ((s.returned k rest a).updSession k g).complete k req kind code res = s.endedBy k req rest a kind code res (g r) := by
  refine State.ext_fields rfl ?_ rfl rfl rfl rfl rfl rfl rfl rfl rfl rfl (List.append_assoc ..) rfl
  rw [State.complete_sessions, State.updSession_sessions, modify_modify]
  exact modify_eq_set hr _

theorem State.returned_call (hr : s.sessions[k]? = some r) (a : CtlAnswer) (g : InFlight) (c : CtlCall) :
    (s.returned k rest a).call k g c = s.callsOn k rest r a g c := by
  refine State.ext_fields rfl ?_ rfl rfl rfl rfl rfl rfl rfl rfl rfl rfl (List.append_assoc ..) rfl
  exact modify_eq_set hr _

/-- R52: the step that takes the answer `a` to the call `c` leaves what its operation's rule makes of it. -/
theorem InFlightOn.step_eq (h : InFlightOn k s r f rest) {c : CtlCall} (hc : f.call = some c) {a : CtlAnswer}
    (ha : c.admits a = true) {t : State} (ht : resumeAny k f a (s.returned k rest a) = some t) :
    step (s.withEnv (.answer k a :: rest)) = .next t := by
  have hf : (s.withEnv rest).inflight? k = some f := (inflight?_eq (s := s.withEnv rest) h.record).trans h.flight
  have hans : answered k a (s.withEnv rest) = some t := (answered_eq hf hc ha).trans ht
  have henv : t.env = rest := answered_env hans
  rw [step_answer h.port]
  simp only [onAnswer, hans, settle, henv]
  rw [drain_waits h.last]

/-- R151: the enumeration's return. -/
theorem InFlightOn.enumerated (h : InFlightOn k s r f rest) {sess : BitVec 8} (hi : f.instr = .discover sess)
    (hc : f.call = some .enumerate) (names : List Name) :
    step (s.withEnv (.answer k (.names names) :: rest)) = .next
      (if f.cmd.nameIn ∉ names then
        { s.endedBy k f.cmd.req rest (.names names) .channelNotFound 0#32 {} r with dlock := false }
      else if s.bound f.cmd.nameIn then
        { s.endedBy k f.cmd.req rest (.names names) .channelBusy 0#32 {} r with dlock := false }
      else s.callsOn k rest r (.names names) f (.bind f.cmd.nameIn)) := by
  refine h.step_eq hc rfl ?_
  have hb : (s.returned k rest (.names names)).bound f.cmd.nameIn = s.bound f.cmd.nameIn := rfl
  have hfail : ∀ kind, (s.returned k rest (.names names)).raiseDiscover k f.cmd.req kind =
      { s.endedBy k f.cmd.req rest (.names names) kind 0#32 {} r with dlock := false } := fun kind =>
    congrArg (fun u : State => { u with dlock := false }) (State.returned_complete h.record ..)
  simp only [resumeAny, hi, resumeDiscover, hc, discoverNamed, hb, hfail, State.returned_call h.record]

/-- R151: the answers of `CtlBind`. -/
theorem InFlightOn.bindAnswered (h : InFlightOn k s r f rest) {sess : BitVec 8} (hi : f.instr = .discover sess) {n : Name}
    (hc : f.call = some (.bind n)) :
    step (s.withEnv (.answer k (.bound none) :: rest)) =
        .next { s.endedBy k f.cmd.req rest (.bound none) .channelNotFound 0#32 {} r with dlock := false } ∧
      ∀ hd, step (s.withEnv (.answer k (.bound (some hd)) :: rest)) =
        .next { s.endedBy k f.cmd.req rest (.bound (some hd)) .ok 0#32 {} (r.discoveredAs n hd) with dlock := false } := by
  refine ⟨h.step_eq hc rfl ?_, fun hd => h.step_eq hc rfl ?_⟩ <;> simp only [resumeAny, hi, resumeDiscover, hc]
  · exact congrArg (fun u : State => some { u with dlock := false }) (State.returned_complete h.record ..)
  · exact congrArg (fun u : State => some { u with dlock := false })
      (State.returned_updSession_complete h.record (Session.discoveredAs n hd) ..)

/-- R32: after `CtlUnbind` the registers of its handle hold nothing, and every other one what it held. -/
theorem read_forgetTiming (hwf : s.ctlTiming.wf) (hd : Handle) (a : Nat) :
    (s.forgetTiming hd).ctlTiming.read a =
      if a = timingKey hd .arb ∨ a = timingKey hd .fd then none else s.ctlTiming.read a := by
  rw [State.forgetTiming_ctlTiming, Memory.read_erase (Memory.erase_wf hwf _), Memory.read_erase hwf]
  grind

/-- R153: the return of `CtlUnbind`. -/
theorem InFlightOn.unbound (h : InFlightOn k s r f rest) {sess : BitVec 8} (hi : f.instr = .closeSess sess) {hd : Handle}
    (hc : f.call = some (.unbind hd)) :
    step (s.withEnv (.answer k .unbound :: rest)) = .next
      { s.endedBy k f.cmd.req rest .unbound .ok 0#32 {} r.closedNow with ctlTiming := (s.forgetTiming hd).ctlTiming } := by
  refine h.step_eq hc rfl ?_
  simp only [resumeAny, hi, resumeClose, hc]
  exact congrArg (fun u : State => some { u with ctlTiming := (s.forgetTiming hd).ctlTiming })
    (State.returned_updSession_complete h.record Session.closedNow ..)

/-- R176: the return of a `CtlWriteTiming`. -/
theorem InFlightOn.written (h : InFlightOn k s r f rest) {sess : BitVec 8} {temporary : Bool}
    (hi : f.instr = .apply sess temporary) {hd : Handle} {ph : Phase} {v : Word} (hc : f.call = some (.writeTiming hd ph v))
    {n : Name} (hn : r.name = some n) :
    step (s.withEnv (.answer k .written :: rest)) = .next
      { (match ph, r.fdStaged with
          | .arb, some w => s.callsOn k rest r .written f (.writeTiming hd .fd w)
          | _, _ => s.endedBy k f.cmd.req rest .written .ok 0#32 {} r) with
        ctlTiming := s.ctlTiming.write (timingKey hd ph) v
        ctlWritten := s.ctlWritten.write (timingKey hd ph) v
        nv := if temporary then s.nv else s.nv.write (nvKey n ph) v } := by
  have happlied : (s.returned k rest .written).applied temporary k hd ph v =
      { s.returned k rest .written with
        ctlTiming := s.ctlTiming.write (timingKey hd ph) v
        ctlWritten := s.ctlWritten.write (timingKey hd ph) v
        nv := if temporary then s.nv else s.nv.write (nvKey n ph) v } := by
    have hname : (s.returned k rest .written).name? k = some n := by
      simp [State.returned, State.withEnv, State.name?, h.record, hn]
    cases temporary <;> simp only [State.applied, hname] <;> rfl
  have hstaged : ((s.returned k rest .written).applied temporary k hd ph v).fdStaged? k = r.fdStaged := by
    rw [happlied]
    simp [State.returned, State.withEnv, State.fdStaged?, h.record]
  refine h.step_eq hc rfl ?_
  simp only [← State.returned_complete h.record, ← State.returned_call h.record]
  cases ph with
  | arb =>
    simp only [resumeAny, hi, resumeApply, hc, applyFd, hstaged]
    rw [happlied]
    cases r.fdStaged <;> rfl
  | fd =>
    simp only [resumeAny, hi, resumeApply, hc]
    rw [happlied]
    rfl

/-- R191: the answer to a SEND. -/
theorem InFlightOn.sendAnswered (h : InFlightOn k s r f rest) {sess : BitVec 8} (hi : f.instr = .send sess) {hd : Handle}
    {x : Frame} {t : Word32} (hc : f.call = some (.transmit hd x t)) (a : TxAnswer) :
    step (s.withEnv (.answer k (.transmitted a) :: rest)) =
      .next (s.endedBy k f.cmd.req rest (.transmitted a) a.result.1 a.result.2 {} r) := by
  refine h.step_eq hc rfl ?_
  rw [← State.returned_complete h.record]
  cases a <;> simp only [resumeAny, hi, resumeSend, hc] <;> rfl

/-- R193: the answer to a frame of a SENDN. -/
theorem InFlightOn.sendnAnswered (h : InFlightOn k s r f rest) {sess : BitVec 8} {count : BitVec 16}
    (hi : f.instr = .sendn sess count) {hd : Handle} {x : Frame} {t : Word32} (hc : f.call = some (.transmit hd x t))
    (a : TxAnswer) :
    step (s.withEnv (.answer k (.transmitted a) :: rest)) = .next
      (if a = .ok then
        (match if f.next + 1 < count.toNat then f.cmd.framesIn[f.next + 1]? else none with
          | some y => s.callsOn k rest r (.transmitted a) { f with next := f.next + 1 } (.transmit hd y t)
          | none => s.endedBy k f.cmd.req rest (.transmitted a) .ok 0#32 { r0 := BitVec.ofNat 64 (f.next + 1) } r)
      else s.endedBy k f.cmd.req rest (.transmitted a) a.result.1 a.result.2 { r0 := BitVec.ofNat 64 f.next } r) := by
  refine h.step_eq hc rfl ?_
  simp only [← State.returned_complete h.record, ← State.returned_call h.record]
  cases a with
  | ok =>
    simp only [resumeAny, hi, resumeSendn, hc, sendnFrom, batchFrame?, if_true]
    generalize (if f.next + 1 < count.toNat then f.cmd.framesIn[f.next + 1]? else none) = y
    cases y <;> rfl
  | timeout => simp only [resumeAny, hi, resumeSendn, hc]; rfl
  | ioFailure => simp only [resumeAny, hi, resumeSendn, hc]; rfl

/-- R194: the answer to a RECV. -/
theorem InFlightOn.recvAnswered (h : InFlightOn k s r f rest) {sess : BitVec 8} (hi : f.instr = .recv sess) {hd : Handle}
    {t : Word32} (hc : f.call = some (.receive hd t)) (a : RxAnswer) :
    step (s.withEnv (.answer k (.received a) :: rest)) =
      .next (s.endedBy k f.cmd.req rest (.received a) a.result.1 a.result.2.1 { framesOut := a.result.2.2 } r) := by
  refine h.step_eq hc rfl ?_
  rw [← State.returned_complete h.record]
  cases a <;> simp only [resumeAny, hi, resumeRecv, hc] <;> rfl

/-- R195: the answer to a frame of a RECVN. -/
theorem InFlightOn.recvnAnswered (h : InFlightOn k s r f rest) {sess : BitVec 8} {count : BitVec 16}
    (hi : f.instr = .recvn sess count) {hd : Handle} {t : Word32} (hc : f.call = some (.receive hd t)) (a : RxAnswer)
    {got : List Frame} (hgot : got = f.got ++ a.result.2.2) :
    step (s.withEnv (.answer k (.received a) :: rest)) = .next
      (if a.result.1 = .ok ∧ got.length < count.toNat then
        s.callsOn k rest r (.received a) { f with next := got.length, got := got } (.receive hd t)
      else s.endedBy k f.cmd.req rest (.received a) a.result.1 a.result.2.1
        { r0 := BitVec.ofNat 64 got.length, framesOut := got } r) := by
  refine h.step_eq hc rfl ?_
  simp only [← State.returned_complete h.record, ← State.returned_call h.record]
  cases a <;> simp [resumeAny, hi, resumeRecvn, hc, hgot, RxAnswer.result, recvnFrom, recvnResults]

/-- R210: the answer to a probe. -/
theorem InFlightOn.probeAnswered (h : InFlightOn k s r f rest) {sess : BitVec 8}
    (hi : f.instr ∈ [.probeTerm sess, .probeEcho sess, .probeBlink sess, .probeTxmode sess]) {hd : Handle} {id : Capability}
    (hc : f.call = some (.queryCapability hd id)) (b : Bool) :
    step (s.withEnv (.answer k (.capability b) :: rest)) = .next
      (if b then s.endedBy k f.cmd.req rest (.capability b) .ok 0#32 { r0 := 1#64 } r
      else s.endedBy k f.cmd.req rest (.capability b) .unsupportedFeature 0#32 {} r) := by
  refine h.step_eq hc rfl ?_
  have hany : ∀ a u, resumeAny k f a u = resumeProbe k f a u := by
    simp only [List.mem_cons, List.not_mem_nil, or_false] at hi
    intro a u
    rcases hi with hi | hi | hi | hi <;> simp only [resumeAny, hi]
  simp only [← State.returned_complete h.record, hany]
  cases b <;> simp only [resumeProbe, hc] <;> rfl

end

/-- Settles O26: the first two parts say that an answer may come later (`first_answer_later`, `any_answer_later`), the third
what each operation makes of it. -/
theorem answerSoonerOrLater : Obligations.AnswerSoonerOrLater := by
  refine ⟨fun i sess s t r a rest hs hv hr hb he h ha => first_answer_later hs hv hr hb he h ha,
    fun k s t taken new c a rest h he hh ha => any_answer_later h he hh ha, ?_⟩
  intro k s r f rest hv hr hf hlast after ends calls
  have h : InFlightOn k s r f rest := ⟨hv, hr, hf, hlast⟩
  refine ⟨fun sess names hi hc => h.enumerated hi hc names, fun sess n hi hc => h.bindAnswered hi hc,
    fun sess hd hi hc hwf => ⟨_, h.unbound hi hc, fun ph => ?_, fun a ha hfd => ?_⟩,
    fun sess temporary n hd ph v hi hc hn => h.written hi hc hn,
    fun sess hd x t a hi hc => h.sendAnswered hi hc a, fun sess count hd x t a hi hc => h.sendnAnswered hi hc a,
    fun sess hd t a hi hc => h.recvAnswered hi hc a, fun sess count hd t a hi hc => h.recvnAnswered hi hc a rfl,
    fun sess hd id b hi hc => h.probeAnswered hi hc b⟩
  · rw [read_forgetTiming hwf]
    cases ph <;> simp
  · rw [read_forgetTiming hwf]
    simp [ha, hfd]

end Sys2Proof.Machine
end

section
/-! Encoding: decoder and encoder (30_encoding.md R80, R87, R92 to R94, R99, R100). What the opcode map of R93 does with an
opcode is said once, by the shape its command word has (R94); the round trips and the reserved encodings follow from it. -/

namespace Sys2Proof

/-! ### The opcode map by the shape of the word (R93, R94) -/

/-- The opcodes of the operations without a session: session field and immediate must be zero. -/
def sessionlessOpcodes : List (BitVec 8) := [0x10#8, 0x11#8, 0x12#8, 0x13#8, 0x60#8]

/-- The opcodes of the session operations whose whole immediate must be zero. -/
def plainOpcodes : List (BitVec 8) :=
  [0x20#8, 0x22#8, 0x30#8, 0x31#8, 0x32#8, 0x33#8, 0x40#8, 0x42#8, 0x50#8, 0x51#8, 0x52#8, 0x53#8]

/-- Every opcode is reserved or has one of the shapes of R94; OPEN, APPLY, SENDN and RECVN have one each. -/
theorem opcode_cases (op : BitVec 8) :
    op ∉ Laws.Layout.opcodes ∨ op ∈ sessionlessOpcodes ∨ op ∈ plainOpcodes ∨ op = 0x21#8 ∨ op = 0x34#8 ∨ op = 0x41#8 ∨
      op = 0x43#8 := by
  revert op; decide

theorem decodeFields_sessionless {op : BitVec 8} (h : op ∈ sessionlessOpcodes) :
    ∃ i, encode i = .cmd32 (cmdWord op 0#8 0#16) ∧
      ∀ sess imm, decodeFields op sess imm = decodeSessionless i sess imm := by
  simp only [sessionlessOpcodes, List.mem_cons, List.not_mem_nil, or_false] at h
  rcases h with rfl | rfl | rfl | rfl | rfl <;> exact ⟨_, rfl, fun _ _ => rfl⟩

theorem decodeFields_plain {op : BitVec 8} (h : op ∈ plainOpcodes) (sess : BitVec 8) :
    ∃ i, encode i = .cmd32 (cmdWord op sess 0#16) ∧ ∀ imm, decodeFields op sess imm = decodeSession i imm := by
  simp only [plainOpcodes, List.mem_cons, List.not_mem_nil, or_false] at h
  rcases h with rfl | rfl | rfl | rfl | rfl | rfl | rfl | rfl | rfl | rfl | rfl | rfl <;> exact ⟨_, rfl, fun _ => rfl⟩

theorem decodeFields_reserved {op : BitVec 8} (h : op ∉ Laws.Layout.opcodes) (sess : BitVec 8) (imm : BitVec 16) :
    decodeFields op sess imm = .error .reservedOpcode := by
  simp only [Laws.Layout.opcodes, List.mem_cons, List.not_mem_nil, or_false, not_or] at h
  simp only [decodeFields, h, if_false]

/-! ### The round trips -/

theorem decode_cmdWord (op sess : BitVec 8) (imm : BitVec 16) :
    decode (.cmd32 (cmdWord op sess imm)) = decodeFields op sess imm := by
  simp only [decode, decodeCmd, opField_cmdWord, sessField_cmdWord, immField_cmdWord]

theorem decodeOpen_openImm (sess : BitVec 8) (t : OpenType) (m : OpenMode) :
    decodeOpen sess (openImm t m) = .ok (.openSess sess t m) := by
  obtain ⟨hzero, htype, hmode⟩ := openImm_fields t m
  simp [decodeOpen, hzero, htype, hmode, openTypeOf_number, openModeOf_number]

theorem decodeApply_applyImm (sess : BitVec 8) (temporary : Bool) :
    decodeApply sess (applyImm temporary) = .ok (.apply sess temporary) := by
  obtain ⟨hzero, hbit⟩ := applyImm_fields temporary
  rw [decodeApply, if_neg (not_not.mpr hzero), hbit]

theorem decodeReg_arbLayout (tq : BitVec 13) (sjw ts1m1 ts2m1 : BitVec 8) :
    decodeReg (arbLayout tq sjw ts1m1 ts2m1) = .ok (.arbWord tq sjw ts1m1 ts2m1) := by
  rw [decodeReg, if_pos (arbLayout_base ..), arbFields_layout]

theorem decodeReg_fdLayout (e : BitVec 1) (o : BitVec 15) (tq : BitVec 13) (a : BitVec 5) (b c : BitVec 4) :
    decodeReg (fdLayout e o tq a b c) = .ok (.fdWord e o tq a b c) := by
  rw [decodeReg, if_neg (fdLayout_not_arb _ _ _ _ _ _), if_pos (fdLayout_base ..), fdFields_layout]

/-- Settles O1: the decoder reads the three fields of a command word back, and the opcode map finds the constructor; OPEN,
APPLY and the two register words have a layout of their own. -/
theorem decodeOfEncode : Obligations.DecodeOfEncode := by
  intro i
  cases i with
  | openSess sess t m => exact (decode_cmdWord ..).trans (decodeOpen_openImm ..)
  | apply sess temporary => exact (decode_cmdWord ..).trans (decodeApply_applyImm ..)
  | arbWord tq sjw ts1m1 ts2m1 => exact decodeReg_arbLayout ..
  | fdWord tdce tdcom1 tq ts1m1 ts2m1 sjwm1 => exact decodeReg_fdLayout ..
  | _ => exact decode_cmdWord ..

/-- The opcode map drops no bit of the word. -/
theorem encode_of_decodeFields {op sess : BitVec 8} {imm : BitVec 16} {i : Instr} (h : decodeFields op sess imm = .ok i) :
    encode i = .cmd32 (cmdWord op sess imm) := by
  rcases opcode_cases op with hop | hop | hop | rfl | rfl | rfl | rfl
  · rw [decodeFields_reserved hop] at h
    cases h
  · obtain ⟨j, henc, hdec⟩ := decodeFields_sessionless hop
    obtain ⟨rfl, rfl, rfl⟩ := decodeSessionless_ok ((hdec sess imm).symm.trans h)
    exact henc
  · obtain ⟨j, henc, hdec⟩ := decodeFields_plain hop sess
    obtain ⟨rfl, rfl⟩ := decodeSession_ok ((hdec imm).symm.trans h)
    exact henc
  · exact decodeOpen_ok h
  · exact decodeApply_ok h
  · cases h
    rfl
  · cases h
    rfl

theorem encode_of_decodeReg {v : Word} {i : Instr} (h : decodeReg v = .ok i) : encode i = .reg64 v := by
  unfold decodeReg at h
  split at h
  case _ hbase =>
    cases h
    exact arbLayout_fields hbase
  case _ =>
    split at h <;> cases h
    case _ hbase => exact fdLayout_fields hbase

/-- Settles O2: a command word is its three fields, which the opcode map keeps; a register word is the layout of its fields. -/
theorem encodeOfDecode : Obligations.EncodeOfDecode := by
  intro p i h
  cases p with
  | cmd32 cw => rw [encode_of_decodeFields h, cmdWord_fields]
  | reg64 v => exact encode_of_decodeReg h

/-! ### Words written out in the spec -/

/-- Settles O3: each word is the encoding of the instruction the spec names, which decoding gives back. -/
theorem decodeWrittenWords : Obligations.DecodeWrittenWords :=
  ⟨decodeOfEncode .encArb, decodeOfEncode .decFd, decodeOfEncode (.discover 1#8), decodeOfEncode (.openSess 1#8 .fd .listen),
    decodeOfEncode (.openSess 0#8 .fdNoIso .loopback), decodeOfEncode (.closeSess 3#8), decodeOfEncode (.cfgFdPar 3#8),
    decodeOfEncode (.apply 2#8 true), decodeOfEncode (.sendn 1#8 65535#16), decodeOfEncode (.recvn 0#8 5#16),
    decodeOfEncode (.probeBlink 1#8), decodeOfEncode .errtext, decodeOfEncode (.arbWord 125#13 1#8 11#8 2#8),
    decodeOfEncode (.fdWord 1#1 15#15 25#13 14#5 3#4 3#4)⟩

/-! ### The reserved encodings (R100) -/

theorem immField_extractLsb' (cw : Word32) {a n : Nat} (h : a + n ≤ 16) :
    (immField cw).extractLsb' a n = cw.extractLsb' (16 + a) n := by
  apply BitVec.eq_of_getLsbD_eq
  intro j hj
  simp [immField, hj, show a + j < 16 by omega, Nat.add_assoc]

theorem decodeOpen_immediate {sess : BitVec 8} {imm : BitVec 16} (h : imm.extractLsb' 8 8 ≠ 0#8) :
    decodeOpen sess imm = .error .immediateNotZero := by
  rw [decodeOpen, if_pos h]

theorem decodeOpen_type {sess : BitVec 8} {imm : BitVec 16} (h : imm.extractLsb' 8 8 = 0#8)
    (ht : 4 ≤ (imm.extractLsb' 0 4).toNat) : decodeOpen sess imm = .error .reservedOpenType := by
  simp [decodeOpen, h, (openTypeOf_none _).mpr ht]

theorem decodeOpen_mode {sess : BitVec 8} {imm : BitVec 16} (h : imm.extractLsb' 8 8 = 0#8)
    (ht : (imm.extractLsb' 0 4).toNat < 4) (hm : 3 ≤ (imm.extractLsb' 4 4).toNat) :
    decodeOpen sess imm = .error .reservedOpenMode := by
  obtain ⟨t, ht'⟩ := Option.ne_none_iff_exists'.mp (mt (openTypeOf_none _).mp (Nat.not_le.mpr ht))
  simp [decodeOpen, h, ht', (openModeOf_none _).mpr hm]

/-- Settles O4: `decodeFields_reserved` and the checks of each shape, in the decoder's order. -/
theorem reservedEncodings : Obligations.ReservedEncodings := by
  intro cw
  refine ⟨fun h => decodeFields_reserved h _ _, fun h hs => ?_, fun h hs hi => ?_, fun h hi => ?_, fun h hi => ?_, ?_⟩
  · obtain ⟨i, -, hdec⟩ := decodeFields_sessionless h
    exact (hdec _ _).trans (if_pos hs)
  · obtain ⟨i, -, hdec⟩ := decodeFields_sessionless h
    exact (hdec _ _).trans ((if_neg (not_not.mpr hs)).trans (if_pos hi))
  · obtain ⟨i, -, hdec⟩ := decodeFields_plain h (sessField cw)
    exact (hdec _).trans (if_pos hi)
  · have happly : decodeCmd cw = decodeApply (sessField cw) (immField cw) := by rw [decodeCmd, opField, h]; rfl
    rw [happly, decodeApply, immField_extractLsb' cw (by decide)]
    exact if_pos hi
  · rw [← immField_extractLsb' cw (a := 8) (by decide), ← immField_extractLsb' cw (a := 0) (by decide),
      ← immField_extractLsb' cw (a := 4) (by decide)]
    have hopen (h : cw.extractLsb' 0 8 = 0x21#8) : decodeCmd cw = decodeOpen (sessField cw) (immField cw) := by
      rw [decodeCmd, opField, h]; rfl
    exact ⟨fun h hz => (hopen h).trans (decodeOpen_immediate hz), fun h hz ht => (hopen h).trans (decodeOpen_type hz ht),
      fun h hz ht hm => (hopen h).trans (decodeOpen_mode hz ht hm)⟩

end Sys2Proof
end

section
/-! Encoding: the fields of the words that the block makes (30_encoding.md R80 to R91, R95). A field of a packed word is read off
its bits (`packArb_bit`, `packFd_bit`): no other operand of legal width, and no base (R101 (f)), has a bit in it. -/

namespace Sys2Proof.Machine

/-! ### The status word (R95) -/

theorem statusWord_kind (kind : ResultKind) (code : Word32) : (statusWord kind code).extractLsb' 0 4 = kind.number :=
  BitVec.extractLsb'_append_eq_right

theorem statusWord_zeros (kind : ResultKind) (code : Word32) : (statusWord kind code).extractLsb' 4 28 = 0#28 :=
  (BitVec.extractLsb'_append_eq_of_le (by decide)).trans BitVec.extractLsb'_append_eq_right

theorem statusWord_code (kind : ResultKind) (code : Word32) : (statusWord kind code).extractLsb' 32 32 = code :=
  (BitVec.extractLsb'_append_eq_of_le (by decide)).trans BitVec.extractLsb'_append_eq_left

/-- Settles O20: the three fields are the three parts that `statusWord` puts together. -/
theorem statusWordFields : Obligations.StatusWordFields :=
  ⟨fun kind code => ⟨statusWord_kind kind code, statusWord_zeros kind code, statusWord_code kind code⟩, rfl⟩

/-! ### The packed words -/

/-- A field of `n` bits is the number below `2 ^ n` that has its bits. -/
theorem toNat_field_eq {v : Word} {a n x : Nat} (hx : x < 2 ^ n) (h : ∀ j < n, v.getLsbD (a + j) = x.testBit j) :
    (v.extractLsb' a n).toNat = x := by
  apply Nat.eq_of_testBit_eq
  intro j
  rw [testBit_extractLsb']
  by_cases hj : j < n
  · simp [hj, h j hj]
  · simp [hj, testBit_high hx (Nat.le_of_not_lt hj)]

/-- Settles O10: `packArb_bit` at each field; `packArb_sjw` and `packArb_fixed` say the rest. -/
theorem arbWordFields : Obligations.ArbWordFields := by
  intro p tq ts1 ts2 sjw hp htq h1 h1' h2 h2' hs hs'
  have hw1 : ts1 - 1 < 2 ^ 8 := by omega
  have hw2 : ts2 - 1 < 2 ^ 8 := by omega
  have hws : sjw < 2 ^ 8 := by omega
  refine ⟨toNat_field_eq htq fun j hj => ?_, packArb_sjw hp hw1 hw2 hws, toNat_field_eq hw1 fun j hj => ?_,
    toNat_field_eq hw2 fun j hj => ?_, packArb_fixed hp htq hw1 hw2 hws⟩
  · rw [packArb_bit _ _ _ _ _ _ (by omega), arbBase_clear hp (by omega) (by omega), testBit_high hws (by omega),
      testBit_high hw1 (by omega), testBit_high hw2 (by omega)]
    simp
  · rw [packArb_bit _ _ _ _ _ _ (by omega), arbBase_clear hp (by omega) (by omega), testBit_high hw2 (by omega)]
    simp [show ¬32 ≤ 8 + j by omega, show ¬16 ≤ 8 + j by omega]
  · rw [packArb_bit _ _ _ _ _ _ (by omega), arbBase_clear hp (by omega) (by omega)]
    simp [show ¬32 ≤ j by omega, show ¬16 ≤ j by omega, show ¬8 ≤ j by omega]

/-- The bits of a packed FD word in its segment fields: those of the operands alone (R87). -/
theorem packFd_bit_low {p : Params} (hp : paramsValid p = true) (tq ts1 ts2 sjw off : Nat) {i : Nat} (hi : i < 26) :
    (packFd p tq ts1 ts2 sjw off).getLsbD i =
      (decide (13 ≤ i) && tq.testBit (i - 13) || decide (8 ≤ i) && (ts1 - 1).testBit (i - 8) ||
        decide (4 ≤ i) && (ts2 - 1).testBit (i - 4) || (sjw - 1).testBit i) := by
  rw [packFd_bit _ _ _ _ _ _ _ (by omega), fdBase_clear hp (by omega) (by omega)]
  simp [show ¬55 ≤ i by omega, show ¬40 ≤ i by omega]

/-- R88: the enable bit of a packed FD word tells a positive offset. -/
theorem packFd_enable {p : Params} (hp : paramsValid p = true) {tq ts1 ts2 sjw off : Nat} (htq : tq < 2 ^ 13)
    (h1 : ts1 - 1 < 2 ^ 5) (h2 : ts2 - 1 < 2 ^ 4) (hs : sjw - 1 < 2 ^ 4) (ho : off - 1 < 2 ^ 15) :
    (packFd p tq ts1 ts2 sjw off).getLsbD 55 = decide (0 < off) := by
  rw [packFd_bit_high p off htq h1 h2 hs (by omega) (by omega), fdBase_clear hp (by omega) (by omega),
    testBit_high ho (by omega)]
  rcases Nat.eq_zero_or_pos off with rfl | hpos
  · simp [tdcEnable]
  · simp [tdcEnable, hpos, Nat.ne_of_gt hpos]

/-- Settles O11: `packFd_bit_low` at each segment field, `packFd_bit_high` at the offset; `packFd_enable` and `packFd_fixed` say
the rest. -/
theorem fdWordFields : Obligations.FdWordFields := by
  intro p tq ts1 ts2 sjw off hp htq h1 h1' h2 h2' hs hs' hoff
  have hw1 : ts1 - 1 < 2 ^ 5 := by omega
  have hw2 : ts2 - 1 < 2 ^ 4 := by omega
  have hws : sjw - 1 < 2 ^ 4 := by omega
  have hpow : 0 < 2 ^ p.tdcoBits := Nat.two_pow_pos _
  have hwo : off - 1 < 2 ^ p.tdcoBits := by omega
  obtain ⟨-, -, -, hbits, -⟩ := (paramsValid_iff p).mp hp
  have hwo15 : off - 1 < 2 ^ 15 := Nat.lt_of_lt_of_le hwo (Nat.pow_le_pow_right (by decide) hbits)
  refine ⟨toNat_field_eq htq fun j hj => ?_, toNat_field_eq hw1 fun j hj => ?_,
    toNat_field_eq hw2 fun j hj => ?_, toNat_field_eq hws fun j hj => ?_,
    toNat_field_eq hwo15 fun j hj => ?_, packFd_enable hp htq hw1 hw2 hws hwo15, packFd_fixed hp htq hw1 hw2 hws hwo⟩
  · rw [packFd_bit_low hp _ _ _ _ _ (by omega), testBit_high hw1 (by omega), testBit_high hw2 (by omega),
      testBit_high hws (by omega)]
    simp
  · rw [packFd_bit_low hp _ _ _ _ _ (by omega), testBit_high hw2 (by omega), testBit_high hws (by omega)]
    simp [show ¬13 ≤ 8 + j by omega]
  · rw [packFd_bit_low hp _ _ _ _ _ (by omega), testBit_high hws (by omega)]
    simp [show ¬13 ≤ 4 + j by omega, show ¬8 ≤ 4 + j by omega]
  · rw [packFd_bit_low hp _ _ _ _ _ (by omega)]
    simp [show ¬13 ≤ j by omega, show ¬8 ≤ j by omega, show ¬4 ≤ j by omega]
  · rw [packFd_bit_high p off htq hw1 hw2 hws (by omega) (by omega), fdBase_clear hp (by omega) (by omega)]
    simp [show ¬55 ≤ 40 + j by omega]

/-- Settles O12: `fdMask_bit`, with the bound that R6 puts on `TDCO_BITS`. -/
theorem fdFixedBits : Obligations.FdFixedBits := by
  intro p i hp hi
  obtain ⟨-, -, -, hbits, -⟩ := (paramsValid_iff p).mp hp
  exact fdMask_bit hbits hi

end Sys2Proof.Machine
end

section
/-! Encoding: the kinds an operation answers with (30_encoding.md R95, 60_exceptions.md R239). Every response that an operation
records is within its row of the matrix: a relation that every piece of a session operation has, that the operations without a
session have, and that chains (`Responds`). -/

namespace Sys2Proof.Machine

/-- The response is one the operation can end with: a kind of its row of R239, and a code only with Timeout and IoFailure. -/
def Response.allowedFor (i : Instr) (x : Response) : Prop :=
  ∃ kind code, kind ∈ allowedKinds i ∧ x.status = statusWord kind code ∧ (code ≠ 0#32 → kind = .timeout ∨ kind = .ioFailure)

/-- Every response recorded from `s` to `t` is one that `i` can end with. -/
def Responds (i : Instr) (s t : State) : Prop :=
  ∃ new, t.history = s.history ++ new ∧ ∀ x ∈ responsesIn new, x.allowedFor i

@[simp] theorem responsesIn_append (h h' : List HistEvent) : responsesIn (h ++ h') = responsesIn h ++ responsesIn h' := by
  simp [responsesIn]

/-- A step that records no response. -/
theorem Responds.silent (i : Instr) {s t : State} {new : List HistEvent} (h : t.history = s.history ++ new)
    (hr : responsesIn new = []) : Responds i s t :=
  ⟨new, h, by simp [hr]⟩

theorem Responds.refl (i : Instr) (s : State) : Responds i s s := .silent i (new := []) (by simp) rfl

theorem Responds.trans {i : Instr} {s t u : State} (h : Responds i s t) (h' : Responds i t u) : Responds i s u := by
  obtain ⟨new, hn, hx⟩ := h
  obtain ⟨new', hn', hx'⟩ := h'
  refine ⟨new ++ new', by simp [hn', hn], fun x hmem => ?_⟩
  rw [responsesIn_append, List.mem_append] at hmem
  exact hmem.elim (hx x) (hx' x)

/-- A response delivered is the one that its kind and code make. -/
theorem deliver_responds {i : Instr} {s : State} {kind : ResultKind} {code : Word32} (req : Nat) (res : Results)
    (hk : kind ∈ allowedKinds i) (hc : code ≠ 0#32 → kind = .timeout ∨ kind = .ioFailure) :
    Responds i s (s.deliver req (mkResponse kind code res)) := by
  refine ⟨[.complete req (mkResponse kind code res)], rfl, fun x hx => ?_⟩
  rw [show x = mkResponse kind code res from List.mem_singleton.mp hx]
  exact ⟨kind, code, hk, rfl, hc⟩

/-- The responses of any list of events by which the history has grown are allowed: there is only one such list. -/
theorem Responds.allowed {i : Instr} {s t : State} {new : List HistEvent} (h : Responds i s t)
    (hn : t.history = s.history ++ new) : ∀ x ∈ responsesIn new, x.allowedFor i := by
  obtain ⟨new', hn', hx⟩ := h
  rwa [← List.append_cancel_left (hn'.symm.trans hn)]

theorem Piece.responds {i : Instr} {k : Nat} {s t : State} (h : Piece i k s t) : Responds i s t := by
  cases h with
  | complete req kind code res hk hc => exact deliver_responds (s := s.updSession k _) req res hk hc
  | lock => exact .silent i rfl rfl
  | call => exact .silent i rfl rfl
  | ret => exact .silent i rfl rfl
  | _ => exact .silent i (new := []) (by simp) rfl

theorem Pieces.responds {i : Instr} {k : Nat} {s t : State} (h : Pieces i k s t) : Responds i s t :=
  h.gives (Responds.refl i) (fun _ _ _ => Responds.trans) fun _ _ => Piece.responds

theorem answerAtOnce_responds {i : Instr} {kind : ResultKind} (hk : kind ∈ allowedKinds i) (s : State) (res : Results) :
    Responds i s (s.answerAtOnce i kind res) :=
  Responds.trans (t := s.record (.issue s.port i)) (.silent i rfl rfl) (deliver_responds _ _ hk (by simp))

/-- R215: the text of a lookup ends it with `Ok`. -/
theorem answerText_responds (j : Nat) (text : List Byte) (s : State) : Responds .errtext s (answerText j text s) := by
  unfold answerText
  split
  case _ c _ =>
    exact Responds.trans (t := State.record { s with lookups := s.lookups.eraseIdx j } (.ctlRet (.lookup c.req) (.text text)))
      (.silent _ rfl rfl) (deliver_responds _ _ (by simp [allowedKinds]) (by simp))
  case _ => exact .refl _ s

theorem execErrtext_responds {s t : State} (h : execErrtext s = .next t) : Responds .errtext s t := by
  cases h
  have hstart : Responds .errtext s (lookupStart s) :=
    .silent _ (new := [.issue s.port .errtext, .ctlCall (.lookup s.port.req) (.errorText s.port.low32)])
      (by simp [lookupStart]) rfl
  refine hstart.trans ?_
  unfold settleText
  split
  case _ j' text rest he =>
    split
    · exact answerText_responds _ _ { lookupStart s with env := rest }
    · exact .refl ..
  case _ => exact .refl ..

/-- R131, R239: the operations without a session. -/
theorem exec_sessionless_responds {i : Instr} {s t : State} (hs : i.session? = none) (h : exec i s = .next t) :
    Responds i s t := by
  cases i <;> simp only [Instr.session?, reduceCtorEq] at hs <;>
    simp only [exec, execEncArb, execEncFd, execDecArb, execDecFd, execArbWord, execFdWord, answerEncode] at h
  case errtext => exact execErrtext_responds h
  case arbWord => cases h
  case fdWord => cases h
  all_goals
    split at h <;> cases h
    · exact answerAtOnce_responds (by simp [allowedKinds]) ..
    · exact answerAtOnce_responds (by simp [allowedKinds]) ..

theorem exec_responds {i : Instr} {s t : State} (h : exec i s = .next t) : Responds i s t := by
  cases hs : i.session? with
  | none => exact exec_sessionless_responds hs h
  | some sess => exact (exec_pieces hs h).responds

/-- ERRTEXT's row has one kind. -/
theorem Response.status_of_errtext {x : Response} (h : x.allowedFor .errtext) : x.status = statusWord .ok 0#32 := by
  obtain ⟨kind, code, hk, hst, hc⟩ := h
  obtain rfl : kind = .ok := List.mem_singleton.mp hk
  rw [hst, not_not.mp (mt hc (by simp))]

/-- Settles O58: an operation, and an operation that goes on with an answer, are chains of pieces; a lookup has its own row. -/
theorem kindsOfOperation : Obligations.KindsOfOperation :=
  ⟨fun _ _ _ _ h hn => (exec_responds h).allowed hn,
    fun _ _ _ _ _ _ hf ha hn => (answered_pieces hf ha).responds.allowed hn,
    fun j text s _ hn x hx => Response.status_of_errtext ((answerText_responds j text s).allowed hn x hx)⟩

/-! ### The register words -/

/-- Settles O8: the two rows of format REG64 are refused whatever their fields and the state. -/
theorem timingWordsAreNoCommands : Obligations.TimingWordsAreNoCommands :=
  ⟨fun _ _ _ _ _ => rfl, fun _ _ _ _ _ _ _ => rfl⟩

end Sys2Proof.Machine
end

section
/-! The codec operations (40_codec.md R120 to R131). What each of the four answers is said once, as the response made from what
its encoder or decoder computes (`exec_encArb`, `exec_encFd`, `exec_decArb`, `exec_decFd`). The round trips are facts about the
words: a packed word is canonical and its fields are the operands, and a canonical word is the packing of its fields. -/

namespace Sys2Proof.Machine

/-! ### The time quantum (R120) -/

theorem timeQuantum_mono (p : Params) {j k : Nat} (h : j ≤ k) : timeQuantum p j ≤ timeQuantum p k :=
  Nat.div_le_div_right (Nat.mul_le_mul_right 1000 h)

theorem timeQuantum_eq_zero_iff {p : Params} (hp : 1 ≤ p.clockMHz) (k : Nat) :
    timeQuantum p k = 0 ↔ k * 1000 < p.clockMHz := by
  rw [timeQuantum, Nat.div_eq_zero_iff_lt hp]

/-! ### What the encoders compute -/

/-- R122: both checks of ENC_ARB in one condition. -/
theorem encodeArb_eq_ite (p : Params) (pr ts1 ts2 sjw : Nat) :
    encodeArb p pr ts1 ts2 sjw =
      if pr = 0 ∨ ts1 = 0 ∨ ts2 = 0 ∨ sjw = 0 ∨ 2 ^ 13 ≤ timeQuantum p pr ∨ 2 ^ 8 ≤ ts1 - 1 ∨ 2 ^ 8 ≤ ts2 - 1 ∨ 2 ^ 8 ≤ sjw
      then none else some (packArb p (timeQuantum p pr) ts1 ts2 sjw) := by
  simp only [encodeArb, anyZero_iff, arbOverflow_iff, ← ite_or, or_assoc]

/-- R124: the checks of ENC_FD in one condition. -/
theorem encodeFd_eq_ite (p : Params) (pr ts1 ts2 sjw off : Nat) :
    encodeFd p pr ts1 ts2 sjw off =
      if pr = 0 ∨ ts1 = 0 ∨ ts2 = 0 ∨ sjw = 0 ∨ 2 ^ 13 ≤ timeQuantum p pr ∨ 2 ^ 5 ≤ ts1 - 1 ∨ 2 ^ 4 ≤ ts2 - 1 ∨
        2 ^ 4 ≤ sjw - 1 ∨ (0 < off ∧ 2 ^ p.tdcoBits ≤ off - 1)
      then none else some (packFd p (timeQuantum p pr) ts1 ts2 sjw off) := by
  simp only [encodeFd, anyZero_iff, fdOverflow_iff, ← ite_or, or_assoc]

/-- Settles O9: division by a fixed number is monotone, and 0 below that number; the encoders' checks bound the quantum from
above only, so that a zero quantum passes them. -/
theorem timeQuantumRule : Obligations.TimeQuantum := by
  refine ⟨fun _ _ => rfl, fun p _ _ h => timeQuantum_mono p h,
    fun p k hp => ⟨timeQuantum_eq_zero_iff hp k, fun h0 => ?_⟩, fun p k ts1 ts2 sjw off h0 hk h1 h2 hs h2' hs' h1' ho => ?_, rfl⟩
  · have hlt := (timeQuantum_eq_zero_iff hp k).mp h0
    omega
  · rw [encodeArb_eq_ite, encodeFd_eq_ite, h0, if_neg (by omega), if_neg (by omega)]
    exact ⟨rfl, rfl⟩

/-! ### What the four operations answer -/

/-- The response of a codec operation: Ok with the results its encoder or decoder gives, else InvalidTimingParameter. -/
def codecResponse : Option Results → Response
  | some res => ⟨statusWord .ok 0#32, res⟩
  | none => ⟨statusWord .invalidTimingParameter 0#32, {}⟩

theorem codecResponse_status_ok {w : Option Results} (h : (codecResponse w).status = statusWord .ok 0#32) :
    ∃ res, w = some res := by
  cases w with
  | some res => exact ⟨res, rfl⟩
  | none => exact absurd h (by decide : statusWord .invalidTimingParameter 0#32 ≠ statusWord .ok 0#32)

/-- The state in which an operation without a session has been issued and has answered `x`, and nothing else has changed. -/
def State.answeredWith (s : State) (i : Instr) (x : Response) : State :=
  { s with resp := x, respTo := s.port.req, history := s.history ++ [.issue s.port i, .complete s.port.req x] }

theorem answerAtOnce_eq_answeredWith (s : State) (i : Instr) (kind : ResultKind) (res : Results) :
    s.answerAtOnce i kind res = s.answeredWith i ⟨statusWord kind 0#32, res⟩ := by
  simp [State.deliver, State.record, State.answeredWith, mkResponse]

theorem answerEncode_eq_answeredWith (i : Instr) (w : Option Word) (s : State) :
    answerEncode i w s = s.answeredWith i (codecResponse (w.map fun v => { r0 := v })) := by
  cases w <;> exact answerAtOnce_eq_answeredWith ..

theorem exec_encArb (s : State) : exec .encArb s =
    .next (s.answeredWith .encArb (codecResponse ((s.port.arbWord? s.params).map fun v => { r0 := v }))) :=
  congrArg Host.Outcome.next (answerEncode_eq_answeredWith ..)

theorem exec_encFd (s : State) : exec .encFd s =
    .next (s.answeredWith .encFd (codecResponse ((s.port.fdWord? s.params).map fun v => { r0 := v }))) :=
  congrArg Host.Outcome.next (answerEncode_eq_answeredWith ..)

theorem exec_decArb (s : State) : exec .decArb s =
    .next (s.answeredWith .decArb (codecResponse ((decodeArb s.params s.port.a0).map arbResults))) := by
  rw [exec, execDecArb]
  cases decodeArb s.params s.port.a0 <;> exact congrArg Host.Outcome.next (answerAtOnce_eq_answeredWith ..)

theorem exec_decFd (s : State) : exec .decFd s =
    .next (s.answeredWith .decFd (codecResponse ((decodeFd s.params s.port.a0).map fdResults))) := by
  rw [exec, execDecFd]
  cases decodeFd s.params s.port.a0 <;> exact congrArg Host.Outcome.next (answerAtOnce_eq_answeredWith ..)

/-- An operation that has answered Ok was given something by its encoder or decoder, and answers that. -/
theorem resp_of_answered_ok {α : Type} {i : Instr} {s t : State} {w : Option α} {f : α → Results}
    (h : exec i s = .next t) (he : exec i s = .next (s.answeredWith i (codecResponse (w.map f))))
    (hok : t.resp.status = statusWord .ok 0#32) : ∃ x, w = some x ∧ t.resp = ⟨statusWord .ok 0#32, f x⟩ := by
  obtain rfl : s.answeredWith i (codecResponse (w.map f)) = t := Host.Outcome.next.inj (he.symm.trans h)
  obtain ⟨res, hres⟩ := codecResponse_status_ok hok
  obtain ⟨x, rfl, rfl⟩ := Option.map_eq_some_iff.mp hres
  exact ⟨x, rfl, rfl⟩

/-- Settles O13: `exec_encArb`, with the encoder's checks in one condition. -/
theorem encArbPacksOrRejects : Obligations.EncArbPacksOrRejects := by
  refine fun s => ⟨rfl, ?_⟩
  rw [exec_encArb, Cmd.arbWord?, encodeArb_eq_ite, apply_ite (Option.map _), apply_ite codecResponse]
  rfl

/-- Settles O14: `exec_encFd`, with the encoder's checks in one condition. -/
theorem encFdPacksOrRejects : Obligations.EncFdPacksOrRejects := by
  refine fun s => ⟨rfl, ?_⟩
  rw [exec_encFd, Cmd.fdWord?, encodeFd_eq_ite, apply_ite (Option.map _), apply_ite codecResponse]
  rfl

/-! ### The result words of the decoders -/

/-- A field that holds a value less one is read back with 1 added. -/
theorem ofNat_toNat_succ {n : Nat} (x : BitVec n) : BitVec.ofNat 64 (x.toNat + 1) = x.setWidth 64 + 1#64 := by
  rw [BitVec.ofNat_add, BitVec.ofNat_toNat]

theorem arbResults_unpackArb (v : Word) :
    arbResults (unpackArb v) =
      { r0 := (v.extractLsb' 32 13).setWidth 64
        r1 := (v.extractLsb' 8 8).setWidth 64 + 1#64
        r2 := (v.extractLsb' 0 8).setWidth 64 + 1#64
        r3 := (v.extractLsb' 16 8).setWidth 64 } := by
  simp only [arbResults, unpackArb, ofNat_toNat_succ, BitVec.ofNat_toNat]

/-- The enable bit of an FD word as a number. -/
theorem enable_toNat (v : Word) : (v.extractLsb' 55 1).toNat = if v.getLsbD 55 = true then 1 else 0 := by
  apply toNat_field_eq
  · split <;> decide
  · intro j hj
    obtain rfl : j = 0 := by omega
    cases v.getLsbD 55 <;> decide

theorem fdResults_unpackFd (v : Word) :
    fdResults (unpackFd v) =
      { r0 := (v.extractLsb' 13 13).setWidth 64
        r1 := (v.extractLsb' 8 5).setWidth 64 + 1#64
        r2 := (v.extractLsb' 4 4).setWidth 64 + 1#64
        r3 := (v.extractLsb' 0 4).setWidth 64 + 1#64
        r4 := if v.getLsbD 55 = true then (v.extractLsb' 40 15).setWidth 64 + 1#64 else 0#64
        r5 := if v.getLsbD 55 = true then 1#64 else 0#64 } := by
  simp only [fdResults, unpackFd, enable_toNat, apply_ite (BitVec.ofNat 64), ofNat_toNat_succ, BitVec.ofNat_toNat]

/-- Settles O15: `exec_decArb`, with the canonical check of R86 and the result words written out. -/
theorem decArbUnpacksOrRejects : Obligations.DecArbUnpacksOrRejects := by
  refine fun s => ⟨rfl, ?_⟩
  simp only [exec_decArb, decodeArb, canonicalArb_iff, apply_ite (Option.map _), Option.map_some, Option.map_none,
    arbResults_unpackArb, apply_ite codecResponse]
  rfl

/-- Settles O16: `exec_decFd`, with the canonical check of R91 and the result words written out. -/
theorem decFdUnpacksOrRejects : Obligations.DecFdUnpacksOrRejects := by
  refine fun s => ⟨rfl, ?_⟩
  simp only [exec_decFd, decodeFd, canonicalFd_iff, apply_ite (Option.map _), Option.map_some, Option.map_none,
    fdResults_unpackFd, apply_ite codecResponse]
  rfl

/-! ### Decode after encode (R129 (a), (b), (e)) -/

/-- R129 (a). -/
theorem decodeArb_of_encodeArb {p : Params} (hp : paramsValid p = true) {pr ts1 ts2 sjw : Nat} {v : Word}
    (h : encodeArb p pr ts1 ts2 sjw = some v) : decodeArb p v = some ⟨timeQuantum p pr, ts1, ts2, sjw⟩ := by
  have hcanon := encodeArb_canonical hp h
  obtain ⟨htq, h1, h1', h2, h2', hs, hs', rfl⟩ := encodeArb_some h
  obtain ⟨ftq, fsjw, fts1, fts2, -⟩ := arbWordFields p _ ts1 ts2 sjw hp htq h1 h1' h2 h2' hs hs'
  rw [decodeArb, if_pos hcanon, unpackArb, ftq, fsjw, fts1, fts2, Nat.sub_add_cancel h1, Nat.sub_add_cancel h2]

/-- R129 (b), (e): the enable reads 1 exactly with a positive offset. -/
theorem decodeFd_of_encodeFd {p : Params} (hp : paramsValid p = true) {pr ts1 ts2 sjw off : Nat} {v : Word}
    (h : encodeFd p pr ts1 ts2 sjw off = some v) :
    v.getLsbD 55 = decide (0 < off) ∧ decodeFd p v = some ⟨timeQuantum p pr, ts1, ts2, sjw, off, tdcEnable off⟩ := by
  have hcanon := encodeFd_canonical hp h
  obtain ⟨htq, h1, h1', h2, h2', hs, hs', ho, rfl⟩ := encodeFd_some h
  obtain ⟨ftq, fts1, fts2, fsjw, foff, fen, -⟩ := fdWordFields p _ ts1 ts2 sjw off hp htq h1 h1' h2 h2' hs hs' ho
  refine ⟨fen, ?_⟩
  rw [decodeFd, if_pos hcanon, unpackFd, enable_toNat, ftq, fts1, fts2, fsjw, foff, fen, Nat.sub_add_cancel h1,
    Nat.sub_add_cancel h2, Nat.sub_add_cancel hs]
  cases off <;> rfl

theorem toNat_eq_zero_iff (x : Word) : x.toNat = 0 ↔ x = 0#64 :=
  BitVec.toNat_inj (y := 0#64)

theorem arbResults_of_operands (tq : Nat) (ts1 ts2 sjw : Word) :
    arbResults ⟨tq, ts1.toNat, ts2.toNat, sjw.toNat⟩ = { r0 := BitVec.ofNat 64 tq, r1 := ts1, r2 := ts2, r3 := sjw } := by
  simp only [arbResults, BitVec.ofNat_toNat, BitVec.setWidth_eq]

theorem fdResults_of_operands (tq : Nat) (ts1 ts2 sjw off : Word) :
    fdResults ⟨tq, ts1.toNat, ts2.toNat, sjw.toNat, off.toNat, tdcEnable off.toNat⟩ =
      { r0 := BitVec.ofNat 64 tq, r1 := ts1, r2 := ts2, r3 := sjw, r4 := off, r5 := if off = 0#64 then 0#64 else 1#64 } := by
  simp only [fdResults, tdcEnable, toNat_eq_zero_iff, apply_ite (BitVec.ofNat 64), BitVec.ofNat_toNat,
    BitVec.setWidth_eq]

/-- Settles O17: an encode that answers Ok answers the encoder's word, which decodes to the operands. -/
theorem encodeThenDecode : Obligations.EncodeThenDecode := by
  intro s e u hp hparams hport hok
  refine ⟨fun h => ?_, fun h => ?_⟩
  · obtain ⟨v, hv, hresp⟩ := resp_of_answered_ok h (exec_encArb s) hok
    refine ⟨_, exec_decArb u, ?_⟩
    rw [hparams, hport, hresp, decodeArb_of_encodeArb hp hv, Option.map_some, arbResults_of_operands]
    rfl
  · obtain ⟨v, hv, hresp⟩ := resp_of_answered_ok h (exec_encFd s) hok
    obtain ⟨hen, hdec⟩ := decodeFd_of_encodeFd hp hv
    refine ⟨?_, _, exec_decFd u, ?_⟩
    · rw [hresp, hen, decide_eq_decide, Nat.pos_iff_ne_zero, ne_eq, toNat_eq_zero_iff]
    · rw [hparams, hport, hresp, hdec, Option.map_some, fdResults_of_operands]
      rfl

/-! ### Pack after decode (R129 (c), (d)) -/

/-- A field of a word, put back where it was read, has the word's bits there and no other. -/
theorem field_bit (v : Word) (a n i : Nat) :
    (decide (a ≤ i) && (v.extractLsb' a n).toNat.testBit (i - a)) = (decide (a ≤ i ∧ i < a + n) && v.getLsbD i) := by
  by_cases h : a ≤ i
  · rw [testBit_extractLsb', Nat.add_sub_cancel' h]
    simp [h, Nat.sub_lt_iff_lt_add' h]
  · simp [h]

theorem field_bit_zero (v : Word) (n i : Nat) :
    (v.extractLsb' 0 n).toNat.testBit i = (decide (i < n) && v.getLsbD i) := by
  rw [testBit_extractLsb', Nat.zero_add]

/-- R129 (c): the fixed bits of R80 and the four fields make up the word. -/
theorem packArb_unpackArb {p : Params} {v : Word} (h : canonicalArb p v = true) :
    packArb p (unpackArb v).tq (unpackArb v).ts1 (unpackArb v).ts2 (unpackArb v).sjw = v := by
  obtain ⟨hbase, -⟩ := (canonicalArb_iff p v).mp h
  apply BitVec.eq_of_getLsbD_eq
  intro i hi
  simp only [packArb_bit _ _ _ _ _ _ hi, unpackArb, Nat.add_sub_cancel, field_bit, field_bit_zero, ← hbase, BitVec.getLsbD_and,
    arbFixedMask_bit i hi]
  cases v.getLsbD i
  · simp
  · simp only [Bool.true_and, Bool.and_true, Bool.or_eq_true, Bool.and_eq_true, decide_eq_true_eq]
    omega

/-- R88: the offset read from a canonical word is packed as the word's enable bit and offset field. -/
theorem unpackFd_offset {p : Params} {v : Word} (h : canonicalFd p v = true) :
    tdcEnable (unpackFd v).off = (v.extractLsb' 55 1).toNat ∧ (unpackFd v).off - 1 = (v.extractLsb' 40 15).toNat := by
  obtain ⟨-, hoff⟩ := (canonicalFd_iff p v).mp h
  rw [enable_toNat, unpackFd]
  cases hen : v.getLsbD 55 with
  | true => simp [tdcEnable]
  | false =>
    have hzero := hoff.resolve_left (Bool.eq_false_iff.mp hen)
    simp only [hzero, Bool.false_eq_true, if_false, tdcEnable, if_true, BitVec.toNat_zero, Nat.zero_sub, and_self]

/-- R129 (d): the fixed bits of R87, the enable bit and the five fields make up the word. -/
theorem packFd_unpackFd {p : Params} (hp : paramsValid p = true) {v : Word} (h : canonicalFd p v = true) :
    packFd p (unpackFd v).tq (unpackFd v).ts1 (unpackFd v).ts2 (unpackFd v).sjw (unpackFd v).off = v := by
  obtain ⟨hbase, -⟩ := (canonicalFd_iff p v).mp h
  obtain ⟨hen, hoff⟩ := unpackFd_offset h
  obtain ⟨-, -, -, hbits, -⟩ := (paramsValid_iff p).mp hp
  apply BitVec.eq_of_getLsbD_eq
  intro i hi
  rw [packFd_bit _ _ _ _ _ _ _ hi, hen, hoff]
  simp only [unpackFd, Nat.add_sub_cancel, field_bit, field_bit_zero, ← hbase, BitVec.getLsbD_and, fdMask_bit hbits hi]
  cases v.getLsbD i
  · simp
  · simp only [Bool.true_and, Bool.and_true, Bool.or_eq_true, Bool.and_eq_true, decide_eq_true_eq]
    omega

theorem decodeArb_eq_some {p : Params} {v : Word} {q : ArbParams} :
    decodeArb p v = some q ↔ canonicalArb p v = true ∧ unpackArb v = q := by
  rw [decodeArb, Option.ite_none_right_eq_some, Option.some_inj]

theorem decodeFd_eq_some {p : Params} {v : Word} {q : FdParams} :
    decodeFd p v = some q ↔ canonicalFd p v = true ∧ unpackFd v = q := by
  rw [decodeFd, Option.ite_none_right_eq_some, Option.some_inj]

/-- A field of at most 32 bits, with 1 added or not, is held by a result word. -/
theorem toNat_ofNat_of_le {n : Nat} (h : n ≤ 2 ^ 32) : (BitVec.ofNat 64 n).toNat = n :=
  Nat.mod_eq_of_lt (Nat.lt_of_le_of_lt h (by decide))

theorem arbResults_unpackArb_toNat (v : Word) :
    (arbResults (unpackArb v)).r0.toNat = (unpackArb v).tq ∧ (arbResults (unpackArb v)).r1.toNat = (unpackArb v).ts1 ∧
      (arbResults (unpackArb v)).r2.toNat = (unpackArb v).ts2 ∧ (arbResults (unpackArb v)).r3.toNat = (unpackArb v).sjw := by
  refine ⟨toNat_ofNat_of_le ?_, toNat_ofNat_of_le ?_, toNat_ofNat_of_le ?_, toNat_ofNat_of_le ?_⟩ <;>
    simp only [unpackArb] <;> omega

theorem fdResults_unpackFd_toNat (v : Word) :
    (fdResults (unpackFd v)).r0.toNat = (unpackFd v).tq ∧ (fdResults (unpackFd v)).r1.toNat = (unpackFd v).ts1 ∧
      (fdResults (unpackFd v)).r2.toNat = (unpackFd v).ts2 ∧ (fdResults (unpackFd v)).r3.toNat = (unpackFd v).sjw ∧
      (fdResults (unpackFd v)).r4.toNat = (unpackFd v).off := by
  refine ⟨toNat_ofNat_of_le ?_, toNat_ofNat_of_le ?_, toNat_ofNat_of_le ?_, toNat_ofNat_of_le ?_, toNat_ofNat_of_le ?_⟩ <;>
    simp only [unpackFd]
  case refine_5 => split <;> omega
  all_goals omega

/-- Settles O18: a decode that answers Ok has a canonical word and answers its fields, which pack to it. -/
theorem decodeThenPack : Obligations.DecodeThenPack := by
  intro s d hp hok
  refine ⟨fun h => ?_, fun h => ?_⟩
  · obtain ⟨q, hq, hresp⟩ := resp_of_answered_ok h (exec_decArb s) hok
    obtain ⟨hcanon, rfl⟩ := decodeArb_eq_some.mp hq
    obtain ⟨htq, hts1, hts2, hsjw⟩ := arbResults_unpackArb_toNat s.port.a0
    rw [hresp, htq, hts1, hts2, hsjw, packArb_unpackArb hcanon]
  · obtain ⟨q, hq, hresp⟩ := resp_of_answered_ok h (exec_decFd s) hok
    obtain ⟨hcanon, rfl⟩ := decodeFd_eq_some.mp hq
    obtain ⟨htq, hts1, hts2, hsjw, hoff⟩ := fdResults_unpackFd_toNat s.port.a0
    rw [hresp, htq, hts1, hts2, hsjw, hoff, packFd_unpackFd hp hcanon]

/-! ### The two layouts exclude each other (R129 (f)) -/

/-- Bit 63 is fixed in both layouts, set in the arbitration base of R6 and clear in its FD base. -/
theorem canonicalFd_eq_false_of_canonicalArb {p : Params} (ha : p.arbBase = 0xA000000000000000#64)
    (hf : p.fdBase = 0x00000000A0000000#64) {v : Word} (h : canonicalArb p v = true) : canonicalFd p v = false := by
  obtain ⟨harb, -⟩ := (canonicalArb_iff p v).mp h
  have hset : v.getLsbD 63 = true := by
    have hbit := congrArg (fun w => w.getLsbD 63) (harb.trans ha)
    rw [BitVec.getLsbD_and, arbFixedMask_bit 63 (by decide)] at hbit
    simpa using hbit
  refine Bool.eq_false_iff.mpr fun hfd => ?_
  obtain ⟨hbase, -⟩ := (canonicalFd_iff p v).mp hfd
  have hbit := congrArg (fun w => w.getLsbD 63) (hbase.trans hf)
  simp only [BitVec.getLsbD_and, fdMask, BitVec.getLsbD_or, fdFixedMask_bit 63 (by decide), hset] at hbit
  exact absurd hbit (by simp)

/-- Settles O19: a word that DEC_ARB takes is not canonical for DEC_FD. -/
theorem noWordIsBoth : Obligations.NoWordIsBoth := by
  intro s d e ha hf hd he
  rw [exec_decArb] at hd
  rw [exec_decFd] at he
  cases hd
  cases he
  cases h : canonicalArb s.params s.port.a0 with
  | false =>
    left
    rw [decodeArb, h]
    rfl
  | true =>
    right
    rw [decodeFd, canonicalFd_eq_false_of_canonicalArb ha hf h]
    rfl

end Sys2Proof.Machine
end

section
/-! Lifecycle: DISCOVER, OPEN, CLOSE and the acceptance of every session operation (41_lifecycle.md R150 to R153). A run of an
operation is written as one state all along (`State.amid`): one rule per shared operation, one for an answer that comes next. -/

namespace Sys2Proof.Machine

/-! ### The state in the middle of an operation -/

/-- The state `s` with the record of session `k` changed by `w`, the events `ev` recorded and the events `rest` to come. -/
def State.amid (s : State) (k : Nat) (w : Session → Session) (ev : List HistEvent) (rest : List EnvEvent) : State :=
  { s with sessions := s.sessions.modify k w, history := s.history ++ ev, env := rest }

theorem lock_eq_amid (s : State) (k : Nat) (i : Instr) :
    s.lock k i = s.amid k (Session.locked (startFlight i s.port)) [.issue s.port i] s.env := rfl

section
variable (s : State) (k : Nat) (w : Session → Session) (ev : List HistEvent) (rest : List EnvEvent)

theorem amid_updSession (g : Session → Session) : (s.amid k w ev rest).updSession k g = s.amid k (g ∘ w) ev rest := by
  simp only [State.updSession, State.amid, modify_modify]

theorem amid_call (f : InFlight) (c : CtlCall) :
    (s.amid k w ev rest).call k f c = s.amid k (Session.calling f c ∘ w) (ev ++ [.ctlCall (.session k) c]) rest := by
  simp only [State.call, State.record, amid_updSession]
  simp only [State.amid, List.append_assoc]

theorem amid_forgetTiming (h : Handle) :
    (s.amid k w ev rest).forgetTiming h = (s.forgetTiming h).amid k w ev rest := rfl

/-- The end of an operation, with the whole state written out (R63, R236). -/
theorem amid_complete {r : Session} (hr : s.sessions[k]? = some r) (req : Nat) (kind : ResultKind) (code : Word32)
    (res : Results) :
    (s.amid k w ev rest).complete k req kind code res =
      { s with
        sessions := s.sessions.set k ((w r).completed kind code)
        resp := ⟨statusWord kind code, res⟩
        respTo := req
        history := s.history ++ (ev ++ [.complete req ⟨statusWord kind code, res⟩])
        env := rest } := by
  rw [State.complete, amid_updSession]
  simp only [State.amid, State.deliver, State.record, mkResponse, modify_eq_set hr, Function.comp_apply, List.append_assoc]

end

/-- The answer to the outstanding call comes next: the operation goes on as its own rule says (R52). -/
theorem settle_amid {s u : State} {k : Nat} {r : Session} {w : Session → Session} {f : InFlight} {c : CtlCall}
    {a : CtlAnswer} {ev : List HistEvent} {rest : List EnvEvent} (hr : s.sessions[k]? = some r)
    (hf : (w r).inflight = some f) (hc : f.call = some c) (ha : c.admits a = true)
    (h : resumeAny k f a (s.amid k w (ev ++ [.ctlRet (.session k) a]) rest) = some u) :
    settle k (s.amid k w ev (.answer k a :: rest)) = settle k u := by
  have hfl : (s.amid k w ev rest).inflight? k = some f := by simp [State.inflight?, State.amid, hr, hf]
  have hans : answered k a (s.amid k w ev rest) = some u := by
    rw [answered_eq hfl hc ha, ← h]
    simp only [State.amid, State.record, List.append_assoc]
  have hd : settle k (s.amid k w ev (.answer k a :: rest)) = drain k rest u := drain_answer hans
  rw [hd, settle, answered_env hans]
  rfl

theorem withHandle_of_some {r : Session} {h : Handle} (hh : r.handle = some h) (body : Handle → Result) :
    withHandle r body = body h := by
  simp only [withHandle, hh]

/-! ### Acceptance -/

/-- Settles O21: each row is one of the columns `acceptsUnbound`, `acceptsDiscovered`, `acceptsOpen`, `acceptsBound`, or all. -/
theorem acceptanceTable : Obligations.AcceptanceTable := by
  refine fun sess t m b c =>
    ⟨rfl, rfl, rfl, rfl, rfl, rfl, rfl, rfl, rfl, rfl, rfl, rfl, rfl, rfl, rfl, rfl, fun i hi => ?_⟩
  simp only [List.mem_cons, List.not_mem_nil, or_false] at hi
  rcases hi with rfl | rfl | rfl | rfl | rfl <;> rfl

/-- R150, R233: a session operation in a state that does not accept it takes the lock and ends. -/
theorem exec_of_rejected {i : Instr} {sess : BitVec 8} {s : State} {r : Session} (hs : i.session? = some sess)
    (hf : framesRefused (framesNeeded i) s.port.framesIn = none) (hr : s.sessions[sess.toNat]? = some r)
    (hb : r.busy = false) (ha : acceptedIn i r.state = false) :
    exec i s = .next ((s.lock sess.toNat i).complete sess.toNat s.port.req .invalidChannelState 0#32 {}) := by
  obtain ⟨body, he⟩ := exec_eq_sessionOp hs hf
  rw [he, sessionOp_rejects hr hb ha]

/-- Settles O22: `exec_of_rejected`, with the state written out. -/
theorem rejectedByState : Obligations.RejectedByState := by
  intro i sess s r hs hf hr hb ha
  rw [exec_of_rejected hs hf hr hb ha, lock_eq_amid, amid_complete _ _ _ _ _ hr, hb]
  rfl

/-! ### OPEN -/

/-- Settles O30: the three ways through OPEN's body, by the mode and then by the type. -/
theorem openChecksModeThenType : Obligations.OpenChecksModeThenType := by
  intro sess type mode s r hr hb hst
  have hacc : acceptedIn (.openSess sess type mode) r.state = true := by rw [hst]; rfl
  rw [exec, execOpen, sessionOp_runs hr hb hacc, lock_eq_amid]
  simp only [State.raise_eq, State.finishOk_eq, amid_updSession, amid_complete _ _ _ _ _ hr, hb]
  by_cases hm : mode ≠ .normal
  · rw [if_pos hm, if_pos hm]
    rfl
  · rw [if_neg hm, if_neg hm]
    by_cases ht : type = .fdNoIso
    · rw [if_pos ht, if_pos ht]
      rfl
    · rw [if_neg ht, if_neg ht]
      rfl

/-! ### CLOSE -/

/-- Settles O31: CLOSE issues its call, the next event answers it, and `closeUnbound` ends the operation. -/
theorem closeUnbindsOnce : Obligations.CloseUnbindsOnce := by
  intro sess s r h rest hr hb hst hh henv hwf
  have hacc : acceptedIn (.closeSess sess) r.state = true := by rw [hst]; rfl
  refine ⟨(s.forgetTiming h).ctlTiming, ?_, fun ph => ?_, fun a ha hfd => ?_⟩
  · rw [exec, execClose, sessionOp_runs hr hb hacc]
    rw [withHandle_of_some hh, lock_eq_amid, amid_call, henv, settle_amid hr rfl rfl rfl rfl, closeUnbound,
      amid_forgetTiming, amid_updSession, State.finishOk_eq, settle_complete, amid_complete (s.forgetTiming h) _ _ _ _ hr, hb]
    rfl
  · rw [read_forgetTiming hwf]
    cases ph <;> simp
  · rw [read_forgetTiming hwf]
    simp [ha, hfd]

/-! ### DISCOVER -/

/-- The state with the discover lock taken (R29, R151). -/
def State.dlocked (s : State) : State := { s with dlock := true }

/-- The record `r` of a session whose DISCOVER, presented as `c`, has the call `call` outstanding. -/
def Session.discovering (sess : BitVec 8) (c : Cmd) (call : CtlCall) (r : Session) : Session :=
  { r with busy := true, inflight := some ⟨.discover sess, c, 0, [], some call⟩ }

section
variable {s : State} {r : Session} {sess : BitVec 8} {names : List Name} {rest : List EnvEvent}

/-- A DISCOVER in flight holds no name yet (R29). -/
theorem discovering_bound (s : State) (k : Nat) (sess : BitVec 8) (c : Cmd) (call : CtlCall) (ev : List HistEvent)
    (rest : List EnvEvent) (n : Name) :
    (s.dlocked.amid k (Session.discovering sess c call) ev rest).bound n = s.bound n :=
  bound_modify (s := s) (f := Session.discovering sess c call) rfl (fun _ => ⟨rfl, rfl⟩) n

/-- The end of a DISCOVER releases `dlock`, which was free before it (R151). -/
theorem amid_unlocked (hd : s.dlock = false) (k : Nat) (w : Session → Session) (ev : List HistEvent)
    (rest : List EnvEvent) : { s.dlocked.amid k w ev rest with dlock := false } = s.amid k w ev rest := by
  rw [← hd]
  rfl

/-- R151: on a free session, with `dlock` free, DISCOVER takes both locks and enumerates. -/
theorem exec_discover (hr : s.sessions[sess.toNat]? = some r) (hb : r.busy = false) (hst : r.state = .unbound)
    (hd : s.dlock = false) :
    exec (.discover sess) s = .next (settle sess.toNat
      (s.dlocked.amid sess.toNat (Session.discovering sess s.port .enumerate)
        [.issue s.port (.discover sess), .ctlCall (.session sess.toNat) .enumerate] s.env)) := by
  have hacc : acceptedIn (.discover sess) r.state = true := by rw [hst]; rfl
  rw [exec, execDiscover, sessionOp_runs hr hb hacc, State.lock_dlock, if_neg (by simp [hd]), discoverEnumerate]
  exact congrArg (fun u => Host.Outcome.next (settle sess.toNat u)) (amid_call s.dlocked ..)

/-- R151, R240 (5): the enumeration's return, when it comes next. -/
theorem exec_discover_enumerated (hr : s.sessions[sess.toNat]? = some r) (hb : r.busy = false) (hst : r.state = .unbound)
    (hd : s.dlock = false) (henv : s.env = .answer sess.toNat (.names names) :: rest) :
    exec (.discover sess) s = .next (settle sess.toNat
      (discoverNamed sess.toNat ⟨.discover sess, s.port, 0, [], some .enumerate⟩ names
        (s.dlocked.amid sess.toNat (Session.discovering sess s.port .enumerate)
          [.issue s.port (.discover sess), .ctlCall (.session sess.toNat) .enumerate,
            .ctlRet (.session sess.toNat) (.names names)] rest))) := by
  rw [exec_discover hr hb hst hd, henv]
  exact congrArg Host.Outcome.next (settle_amid (s := s.dlocked) hr rfl rfl rfl rfl)

/-- R151: an enumerated name that no session has bound is bound; the answer to that comes next. -/
theorem exec_discover_bindAnswered {u : State} {h : Option Handle} (hr : s.sessions[sess.toNat]? = some r)
    (hb : r.busy = false) (hst : r.state = .unbound) (hd : s.dlock = false)
    (henv : s.env = .answer sess.toNat (.names names) :: .answer sess.toNat (.bound h) :: rest)
    (hn : s.port.nameIn ∈ names) (hfree : s.bound s.port.nameIn = false)
    (hu : resumeDiscover sess.toNat ⟨.discover sess, s.port, 0, [], some (.bind s.port.nameIn)⟩ (.bound h)
      (s.dlocked.amid sess.toNat (Session.discovering sess s.port (.bind s.port.nameIn))
        [.issue s.port (.discover sess), .ctlCall (.session sess.toNat) .enumerate,
          .ctlRet (.session sess.toNat) (.names names), .ctlCall (.session sess.toNat) (.bind s.port.nameIn),
          .ctlRet (.session sess.toNat) (.bound h)] rest) = some u) :
    exec (.discover sess) s = .next (settle sess.toNat u) := by
  rw [exec_discover_enumerated hr hb hst hd henv, discoverNamed, if_neg (not_not.mpr hn), discovering_bound,
    if_neg (by simp [hfree]), amid_call]
  exact congrArg Host.Outcome.next (settle_amid (s := s.dlocked) hr rfl rfl rfl hu)

/-- The end of a DISCOVER that fails after its state check (R151, R236 (d)). -/
theorem discover_raise_eq {k : Nat} (hr : s.sessions[k]? = some r) (hb : r.busy = false) (hd : s.dlock = false)
    (sess : BitVec 8) (call : CtlCall) (ev : List HistEvent) (rest : List EnvEvent) {kind : ResultKind} (hk : kind ≠ .ok) :
    settle k ((s.dlocked.amid k (Session.discovering sess s.port call) ev rest).raiseDiscover k s.port.req kind) =
      { s with
        sessions := s.sessions.set k { r with lastError := ⟨kind, 0#32⟩, inflight := none }
        resp := ⟨statusWord kind 0#32, {}⟩
        respTo := s.port.req
        history := s.history ++ (ev ++ [.complete s.port.req ⟨statusWord kind 0#32, {}⟩])
        env := rest } := by
  rw [State.raiseDiscover_eq, settle_complete, amid_unlocked hd, amid_complete _ _ _ _ _ hr, hb]
  simp only [Session.completed, Session.discovering, lastErrorAfter, if_neg hk]

end

/-- Settles O27: the name passes both checks, and the handle that answers its bind is written. -/
theorem discoverBinds : Obligations.DiscoverBinds := by
  intro sess s r names h rest hr hb hst hd henv hn hfree
  rw [exec_discover_bindAnswered hr hb hst hd henv hn hfree rfl, discoverBound, amid_updSession, amid_unlocked hd,
    State.finishOk_eq, settle_complete, amid_complete _ _ _ _ _ hr, hb]
  rfl

/-- Settles O28: each failure is a `raiseDiscover`, at a check of its own. -/
theorem discoverFails : Obligations.DiscoverFails := by
  intro sess s r names rest hr hb hst hd
  refine ⟨fun henv hn => ?_, fun henv hn hbound => ?_, fun henv hn hfree => ?_⟩
  · rw [exec_discover_enumerated hr hb hst hd henv, discoverNamed, if_pos hn, discover_raise_eq hr hb hd _ _ _ _ (by simp)]
    simp
  · rw [exec_discover_enumerated hr hb hst hd henv, discoverNamed, if_neg (not_not.mpr hn), discovering_bound, if_pos hbound,
      discover_raise_eq hr hb hd _ _ _ _ (by simp)]
    simp
  · rw [exec_discover_bindAnswered hr hb hst hd henv hn hfree rfl, discover_raise_eq hr hb hd _ _ _ _ (by simp)]
    simp

end Sys2Proof.Machine
end

section
/-! Lifecycle: the edges of the state diagram (41_lifecycle.md R154). A step acts through one operation (`Acts`), an operation
writes one state at most (`writtenState?`), and R150 says from which. -/

namespace Sys2Proof.Machine

/-! ### What an operation writes into `state` -/

/-- The state that an operation writes when it succeeds (R151 to R153); the others write none. -/
def writtenState? : Instr → Option LifeState
  | .discover _ => some .discovered
  | .openSess _ _ _ => some .opened
  | .closeSess _ => some .closed
  | _ => none

/-- The states that the operation `i` may leave of the state `a`: `a`, or the one it writes. -/
def KeepsOrWrites (i : Instr) (a b : LifeState) : Prop := b = a ∨ writtenState? i = some b

/-- The record `j` has a state that the operation `i` may leave of the state `a`. -/
def StateFrom (i : Instr) (a : LifeState) (j : Nat) (t : State) : Prop :=
  ∃ q : Session, t.sessions[j]? = some q ∧ KeepsOrWrites i a q.state

theorem StateFrom.of_modify {i : Instr} {a : LifeState} {j k : Nat} {s t : State} {g : Session → Session}
    (hs : StateFrom i a j s) (ht : t.sessions = s.sessions.modify k g) (hg : ∀ q, KeepsOrWrites i q.state (g q).state) :
    StateFrom i a j t := by
  obtain ⟨q, hq, hw⟩ := hs
  by_cases hj : k = j
  · refine ⟨g q, by simp [ht, hj, hq], ?_⟩
    rcases hg q with h | h
    · exact h ▸ hw
    · exact .inr h
  · exact ⟨q, by simp [ht, hj, hq], hw⟩

theorem Piece.stateFrom {i : Instr} {a : LifeState} {j k : Nat} {s t : State} (h : Piece i k s t) (hs : StateFrom i a j s) :
    StateFrom i a j t := by
  cases h with
  | lock => exact hs.of_modify rfl fun _ => .inl rfl
  | call => exact hs.of_modify rfl fun _ => .inl rfl
  | complete => exact hs.of_modify rfl fun _ => .inl rfl
  | stage => exact hs.of_modify rfl fun _ => .inl (Session.staged_state ..)
  | discovered sess _ _ hi => exact hs.of_modify rfl fun _ => .inr (by rw [hi]; rfl)
  | opened sess _ _ hi => exact hs.of_modify rfl fun _ => .inr (by rw [hi]; rfl)
  | closed sess hi => exact hs.of_modify rfl fun _ => .inr (by rw [hi]; rfl)
  | _ => exact hs

theorem Pieces.keepsOrWrites {i : Instr} {j k : Nat} {s t : State} {r q : Session} (h : Pieces i k s t)
    (hr : s.sessions[j]? = some r) (hq : t.sessions[j]? = some q) : KeepsOrWrites i r.state q.state := by
  obtain ⟨q', hq', hw⟩ := h.keeps (P := StateFrom i r.state j) (fun _ _ => Piece.stateFrom) ⟨r, hr, .inl rfl⟩
  cases hq.symm.trans hq'
  exact hw

/-! ### The edges (R154) -/

/-- The state is kept, or changes along an edge of R154 other than reset. -/
def StateEdge (a b : LifeState) : Prop :=
  b = a ∨ (a = .unbound ∧ b = .discovered) ∨ (a = .discovered ∧ b = .opened) ∨ (a = .opened ∧ b = .closed)

/-- R150: an operation that is accepted writes the state at the end of an edge. -/
theorem stateEdge_of_accepted {i : Instr} {a b : LifeState} (ha : acceptedIn i a = true) (h : KeepsOrWrites i a b) :
    StateEdge a b := by
  rcases h with rfl | hw
  · exact .inl rfl
  · cases i with
    | discover =>
      cases hw
      exact .inr (.inl ⟨by simpa [acceptedIn, acceptsUnbound] using ha, rfl⟩)
    | openSess =>
      cases hw
      exact .inr (.inr (.inl ⟨by simpa [acceptedIn, acceptsDiscovered] using ha, rfl⟩))
    | closeSess =>
      cases hw
      exact .inr (.inr (.inr ⟨by simpa [acceptedIn, acceptsOpen] using ha, rfl⟩))
    | _ => cases hw

theorem framesOk_of_exec_next {i : Instr} {s t : State} (h : exec i s = .next t) :
    framesRefused (framesNeeded i) s.port.framesIn = none := by
  by_contra hne
  obtain ⟨why, hw⟩ := Option.ne_none_iff_exists'.mp hne
  rw [exec_of_framesRefused hw] at h
  cases h

/-- An operation in a state that does not accept it leaves that state, whether it is held or ends. -/
theorem state_of_not_accepted {i : Instr} {sess : BitVec 8} {s t : State} {r q : Session} (hs : i.session? = some sess)
    (ha : acceptedIn i r.state = false) (h : exec i s = .next t) (hr : s.sessions[sess.toNat]? = some r)
    (hq : t.sessions[sess.toNat]? = some q) : q.state = r.state := by
  cases hb : r.busy with
  | true =>
    obtain rfl := eq_hold_of_busy hs hr hb h
    cases hr.symm.trans hq
    rfl
  | false =>
    rw [exec_of_rejected hs (framesOk_of_exec_next h) hr hb ha] at h
    cases h
    obtain rfl : (Session.locked (startFlight i s.port) r).completed .invalidChannelState 0#32 = q := by simpa [hr] using hq
    rfl

theorem exec_stateEdge {i : Instr} {s t : State} {j : Nat} {r q : Session} (h : exec i s = .next t)
    (hr : s.sessions[j]? = some r) (hq : t.sessions[j]? = some q) : StateEdge r.state q.state := by
  cases hs : i.session? with
  | none =>
    rw [(exec_sessionless hs h).1.sessions] at hq
    cases hr.symm.trans hq
    exact .inl rfl
  | some sess =>
    by_cases hj : sess.toNat = j
    · subst hj
      cases ha : acceptedIn i r.state with
      | true => exact stateEdge_of_accepted ha ((exec_pieces hs h).keepsOrWrites hr hq)
      | false => exact .inl (state_of_not_accepted hs ha h hr hq)
    · rw [(exec_framed hs h).others j hj] at hq
      cases hr.symm.trans hq
      exact .inl rfl

/-- An operation that was in flight on session `k` was accepted there, and writes no other record. -/
theorem inFlight_stateEdge {s u t : State} {j k : Nat} {f : InFlight} {r q : Session}
    (hs : ∀ (k : Nat) (r : Session), s.sessions[k]? = some r → SessionInv r) (hu : u.sessions = s.sessions)
    (hf : s.inflight? k = some f) (h : Pieces f.instr k u t) (hr : s.sessions[j]? = some r) (hq : t.sessions[j]? = some q) :
    StateEdge r.state q.state := by
  by_cases hj : k = j
  · subst hj
    have ha := (hs k r hr).flight_accepted f ((inflight?_eq hr).symm.trans hf)
    exact stateEdge_of_accepted ha (h.keepsOrWrites (hu ▸ hr) hq)
  · have ho := (h.gives (Framed.refl _ _) (fun _ _ _ => Framed.trans) fun _ _ => Piece.framed).others j hj
    rw [ho, hu] at hq
    cases hr.symm.trans hq
    exact .inl rfl

/-! ### Which operation a step acts through -/

/-- What one step from `s` can be: no record changes, an operation is taken from the port or admitted, one in flight goes on,
or the block is reset (R21, R52, R64, R151, R270). -/
inductive Acts (s : State) : State → Prop where
  | still (t : State) : t.sessions = s.sessions → Acts s t
  | runs (u t : State) (i : Instr) : u.sessions = s.sessions → exec i u = .next t → Acts s t
  | goesOn (u t : State) (k : Nat) (f : InFlight) : u.sessions = s.sessions → s.inflight? k = some f →
      Pieces f.instr k u t → Acts s t
  | reset (rest : List EnvEvent) : s.portValid = false → s.env = .reset :: rest →
      Acts s (State.assertReset { s with env := rest })

theorem takeCommand_acts {s t : State} (h : takeCommand s = .next t) : Acts s t := by
  unfold takeCommand at h
  split at h
  · cases h
  · split at h
    · exact .runs s.taken t _ rfl h
    · cases h

theorem onAnswer_acts {s : State} (k : Nat) (a : CtlAnswer) (rest : List EnvEvent) :
    Acts s (onAnswer k a { s with env := rest }) := by
  unfold onAnswer
  split
  case _ v ha =>
    obtain ⟨f, c, hf, -⟩ := answered_some ha
    exact .goesOn { s with env := rest } _ k f rfl hf
      ((answered_pieces hf ha).trans (settle_pieces fun g hg => answered_instr hf ha hg))
  case _ => exact .still _ rfl

theorem onGrant_acts {s : State} (k : Nat) (rest : List EnvEvent) : Acts s (onGrant k { s with env := rest }) := by
  unfold onGrant
  split
  case _ f hw =>
    obtain ⟨hf, ⟨sess, hi⟩, -⟩ := waitsForDlock_some hw
    split
    · exact .still _ rfl
    · exact .goesOn { s with env := rest } _ k f rfl hf
        ((Pieces.one (.dlock _ sess true hi)).trans (call_pieces rfl (by rw [hi]; rfl)))
  case _ => exact .still _ rfl

theorem onAdmit_acts {s t : State} {j : Nat} {rest : List EnvEvent} (h : onAdmit j { s with env := rest } = .next t) :
    Acts s t := by
  unfold onAdmit at h
  split at h
  · cases h
    exact .still _ rfl
  case _ c _ =>
    split at h
    · exact .runs { s with env := rest, held := s.held.eraseIdx j, port := c.cmd } t _ rfl h
    · cases h
      exact .still _ rfl

theorem step_acts {s t : State} (h : step s = .next t) : Acts s t := by
  unfold step at h
  split at h
  · exact takeCommand_acts h
  case _ hv =>
    unfold nextEvent at h
    split at h
    · cases h
      exact .still _ rfl
    case _ e rest he =>
      cases e with
      | admission j => exact onAdmit_acts h
      | present c => cases h; exact .still _ rfl
      | answer k a => cases h; exact onAnswer_acts k a rest
      | text j text => cases h; exact .still _ (answerText_sessionless j text { s with env := rest }).sessions
      | grant k => cases h; exact onGrant_acts k rest
      | reset => cases h; exact .reset rest (by simpa using hv) he

/-- R154: without a reset every step takes each session along an edge, or leaves its state. -/
theorem step_stateEdge {s t : State} {k : Nat} {r q : Session} (hi : Inv s) (h : step s = .next t)
    (hr : s.sessions[k]? = some r) (hq : t.sessions[k]? = some q) :
    StateEdge r.state q.state ∨ (s.portValid = false ∧ (∃ rest, s.env = .reset :: rest) ∧ q.state = .unbound) := by
  cases step_acts h with
  | still _ ht =>
    rw [ht] at hq
    cases hr.symm.trans hq
    exact .inl (.inl rfl)
  | runs u _ i hu he => exact .inl (exec_stateEdge he (hu ▸ hr) hq)
  | goesOn u _ j f hu hf hp => exact .inl (inFlight_stateEdge hi.session hu hf hp hr hq)
  | reset rest hv he =>
    obtain rfl : q = Session.reset := List.eq_of_mem_replicate (List.mem_of_getElem? hq)
    exact .inr ⟨hv, ⟨rest, he⟩, rfl⟩

/-- Settles O32: `step_stateEdge`, with the edges written out. -/
theorem stateTransitions : Obligations.StateTransitions := by
  intro s t k r q hi h hr hq
  simpa only [StateEdge, or_assoc] using step_stateEdge hi h hr hq

end Sys2Proof.Machine
end

section
/-! The configuration operations (42_config.md R170 to R177). The RAW and PAR forms end as `stageEncoded` does, a RAW form on a
word that is always there. APPLY is a run of writes: one lemma for a returned write, one for each half of the operation. -/

namespace Sys2Proof.Machine

theorem acceptsBound_iff (st : LifeState) : acceptsBound st = true ↔ st = .discovered ∨ st = .opened := by
  cases st <;> decide

/-! ### The configure forms -/

/-- The state `s` after an operation of session `k` that makes no call has run and ended with `kind` and no results: `q` is
the session's record, with the lock free, and nothing else but the ports and the history has changed. -/
def State.endedAtOnce (s : State) (k : Nat) (i : Instr) (kind : ResultKind) (q : Session) : State :=
  { s with
    sessions := s.sessions.set k { q with inflight := none }
    resp := ⟨statusWord kind 0#32, {}⟩
    respTo := s.port.req
    history := s.history ++ [.issue s.port i, .complete s.port.req ⟨statusWord kind 0#32, {}⟩] }

/-- The state `s` after a configure operation of session `k`, whose record is `r`: the word given to it is staged for the
phase `ph`, or it ends InvalidTimingParameter with none given (R171 to R174). -/
def State.configured (s : State) (k : Nat) (i : Instr) (r : Session) (ph : Phase) : Option Word → State
  | some v => s.endedAtOnce k i .ok (r.staged ph v)
  | none => s.endedAtOnce k i .invalidTimingParameter { r with lastError := ⟨.invalidTimingParameter, 0#32⟩ }

section
variable {s : State} {r : Session} {sess : BitVec 8} {i : Instr}

theorem lock_complete_eq_endedAtOnce {k : Nat} (hr : s.sessions[k]? = some r) (hb : r.busy = false) {kind : ResultKind}
    (hk : kind ≠ .ok) :
    (s.lock k i).complete k s.port.req kind 0#32 {} = s.endedAtOnce k i kind { r with lastError := ⟨kind, 0#32⟩ } := by
  rw [lock_eq_amid, amid_complete _ _ _ _ _ hr, State.endedAtOnce, hb]
  simp only [Session.completed, Session.locked, lastErrorAfter, if_neg hk, List.singleton_append]

theorem lock_staged_complete_eq_endedAtOnce {k : Nat} (hr : s.sessions[k]? = some r) (hb : r.busy = false) (ph : Phase)
    (v : Word) :
    ((s.lock k i).updSession k (Session.staged ph v)).complete k s.port.req .ok 0#32 {} =
      s.endedAtOnce k i .ok (r.staged ph v) := by
  rw [lock_eq_amid, amid_updSession, amid_complete _ _ _ _ _ hr, State.endedAtOnce]
  cases ph <;> rw [Session.staged, hb] <;> rfl

/-- R171 to R174: a configure operation on a free session in a state that accepts it. -/
theorem sessionOp_stageEncoded (hr : s.sessions[sess.toNat]? = some r) (hb : r.busy = false)
    (ha : acceptedIn i r.state = true) (ph : Phase) (w : InFlight → State → Option Word) :
    sessionOp sess i s (fun k f _ u => .next (stageEncoded k f ph (w f u) u)) =
      .next (s.configured sess.toNat i r ph (w (startFlight i s.port) (s.lock sess.toNat i))) := by
  rw [sessionOp_runs hr hb ha]
  cases w (startFlight i s.port) (s.lock sess.toNat i) with
  | some v => exact congrArg Host.Outcome.next (lock_staged_complete_eq_endedAtOnce hr hb ph v)
  | none => exact congrArg Host.Outcome.next (lock_complete_eq_endedAtOnce hr hb (by decide))

/-- R171, R173: a RAW form in any state. -/
theorem sessionOp_stageRaw (hr : s.sessions[sess.toNat]? = some r) (hb : r.busy = false)
    (hi : ∀ st, acceptedIn i st = acceptsBound st) (ph : Phase) :
    sessionOp sess i s (fun k f _ u => .next (stageEncoded k f ph (some f.cmd.a0) u)) = .next
      (if r.state = .discovered ∨ r.state = .opened then s.endedAtOnce sess.toNat i .ok (r.staged ph s.port.a0)
      else s.endedAtOnce sess.toNat i .invalidChannelState { r with lastError := ⟨.invalidChannelState, 0#32⟩ }) := by
  by_cases hst : r.state = .discovered ∨ r.state = .opened
  · have ha : acceptedIn i r.state = true := (hi _).trans ((acceptsBound_iff _).mpr hst)
    rw [if_pos hst, sessionOp_stageEncoded hr hb ha ph fun f _ => some f.cmd.a0]
    rfl
  · have ha : acceptedIn i r.state = false :=
      (hi _).trans (Bool.eq_false_iff.mpr fun h => hst ((acceptsBound_iff _).mp h))
    rw [if_neg hst, sessionOp_rejects hr hb ha, lock_complete_eq_endedAtOnce hr hb (by decide)]

end

/-- Settles O33: both forms are `sessionOp_stageRaw`, each for its own phase. -/
theorem configureRawStagesUnchecked : Obligations.ConfigureRawStagesUnchecked := fun _ _ _ hr hb =>
  ⟨rfl, rfl, sessionOp_stageRaw hr hb (fun _ => rfl) .arb, sessionOp_stageRaw hr hb (fun _ => rfl) .fd⟩

/-- R172, R174: an encode operation and a configure operation that were given the same word, or both none, end alike. -/
theorem configured_as_answered {s : State} {r : Session} {k : Nat} {enc par : Instr} {ph : Phase} {w : Option Word}
    (henc : exec enc s = .next (s.answeredWith enc (codecResponse (w.map fun v => { r0 := v }))))
    (hpar : exec par s = .next (s.configured k par r ph w)) :
    ∃ e, exec enc s = .next e ∧
      ((e.resp.status = statusWord .ok 0#32 ∧
          exec par s = .next (s.endedAtOnce k par .ok (r.staged ph e.resp.res.r0))) ∨
        (e.resp.status = statusWord .invalidTimingParameter 0#32 ∧
          exec par s = .next (s.endedAtOnce k par .invalidTimingParameter
            { r with lastError := ⟨.invalidTimingParameter, 0#32⟩ }))) := by
  refine ⟨_, henc, ?_⟩
  cases w with
  | some v => exact .inl ⟨rfl, hpar⟩
  | none => exact .inr ⟨rfl, hpar⟩

/-- Settles O34: for each phase, `configured_as_answered` of the encoder's answer and the PAR form's end. -/
theorem configureParStagesEncoded : Obligations.ConfigureParStagesEncoded := by
  intro sess s r hr hb hst
  have ha : acceptsBound r.state = true := (acceptsBound_iff _).mpr hst
  exact
    ⟨configured_as_answered (par := .cfgArbPar sess) (exec_encArb s)
        (sessionOp_stageEncoded (i := .cfgArbPar sess) hr hb ha .arb fun f u => f.cmd.arbWord? u.params),
      configured_as_answered (par := .cfgFdPar sess) (exec_encFd s)
        (sessionOp_stageEncoded (i := .cfgFdPar sess) hr hb ha .fd fun f u => f.cmd.fdWord? u.params)⟩

/-! ### APPLY -/

/-- The state `s` with the words `ws` in the timing registers of `h`, and with `temporary` = 0 in the non-volatile store
under `n` as well (R32, R33, R57, R176). -/
def State.wrote (s : State) (temporary : Bool) (h : Handle) (n : Name) (ws : List (Phase × Word)) : State :=
  { s with
    ctlTiming := ws.foldl (fun m w => m.write (timingKey h w.1) w.2) s.ctlTiming
    ctlWritten := ws.foldl (fun m w => m.write (timingKey h w.1) w.2) s.ctlWritten
    nv := if temporary then s.nv else ws.foldl (fun m w => m.write (nvKey n w.1) w.2) s.nv }

theorem wrote_nil (s : State) (temporary : Bool) (h : Handle) (n : Name) : s.wrote temporary h n [] = s := by
  cases temporary <;> rfl

theorem wrote_cons (s : State) (temporary : Bool) (h : Handle) (n : Name) (w : Phase × Word) (ws : List (Phase × Word)) :
    s.wrote temporary h n (w :: ws) = (s.wrote temporary h n [w]).wrote temporary h n ws := by
  cases temporary <;> rfl

/-- The calls that write the words `ws` to the timing registers of `h`, each with its return (R35, R57). -/
def writeEvents (k : Nat) (h : Handle) (ws : List (Phase × Word)) : List HistEvent :=
  ws.flatMap fun w => [.ctlCall (.session k) (.writeTiming h w.1 w.2), .ctlRet (.session k) .written]

/-- The words staged for a phase: one or none (R26). -/
def stagedWrites (ph : Phase) (w : Option Word) : List (Phase × Word) := (w.map fun v => (ph, v)).toList

/-- The answers to the calls that write `ws`, and then `rest` (R57). -/
def writtenAnswers (k : Nat) (ws : List (Phase × Word)) (rest : List EnvEvent) : List EnvEvent :=
  ws.map (fun _ => .answer k .written) ++ rest

/-- The state `s` after an APPLY of session `k` for `req`, begun with the events `ev`, has written the words `ws` and ended:
the record is `r` with the lock free, and the events `rest` are still to come (R176). -/
def State.applyEnded (s : State) (k : Nat) (r : Session) (req : Nat) (temporary : Bool) (h : Handle) (n : Name)
    (ev : List HistEvent) (ws : List (Phase × Word)) (rest : List EnvEvent) : State :=
  { s.wrote temporary h n ws with
    sessions := s.sessions.set k { r with inflight := none }
    resp := ⟨statusWord .ok 0#32, {}⟩
    respTo := req
    history := s.history ++ ev ++ writeEvents k h ws ++ [.complete req ⟨statusWord .ok 0#32, {}⟩]
    env := rest }

theorem applyEnded_cons (s : State) (k : Nat) (r : Session) (req : Nat) (temporary : Bool) (h : Handle) (n : Name)
    (ev : List HistEvent) (x : Phase × Word) (ws : List (Phase × Word)) (rest : List EnvEvent) :
    s.applyEnded k r req temporary h n ev (x :: ws) rest =
      (s.wrote temporary h n [x]).applyEnded k r req temporary h n (ev ++ writeEvents k h [x]) ws rest := by
  have hev : s.history ++ ev ++ writeEvents k h (x :: ws) = s.history ++ (ev ++ writeEvents k h [x]) ++ writeEvents k h ws := by
    simp [writeEvents]
  rw [State.applyEnded, wrote_cons, hev]
  rfl

/-- The change `w` of the record `r` is one of its lock and in-flight record only (R28, R63). -/
def OnlyFlight (r : Session) (w : Session → Session) : Prop :=
  { w r with busy := r.busy, inflight := r.inflight } = r

section
variable {r : Session} {w : Session → Session}

theorem OnlyFlight.locked (r : Session) (f : InFlight) : OnlyFlight r (Session.locked f) := rfl

theorem OnlyFlight.calling (hw : OnlyFlight r w) (f : InFlight) (c : CtlCall) : OnlyFlight r (Session.calling f c ∘ w) := hw

theorem OnlyFlight.name_eq (hw : OnlyFlight r w) : (w r).name = r.name := (congrArg Session.name hw :)

theorem OnlyFlight.fdStaged_eq (hw : OnlyFlight r w) : (w r).fdStaged = r.fdStaged := (congrArg Session.fdStaged hw :)

/-- The record after an operation that ends Ok and has changed nothing of it. -/
theorem OnlyFlight.completed_ok (hw : OnlyFlight r w) (hb : r.busy = false) :
    (w r).completed .ok 0#32 = { r with inflight := none } :=
  calc (w r).completed .ok 0#32
    _ = { w r with busy := r.busy, inflight := none } := by rw [hb]; rfl
    _ = { r with inflight := none } := congrArg (fun q : Session => { q with inflight := none }) hw

end

section
variable {s : State} {k : Nat} {r : Session} {n : Name} {w : Session → Session} {f : InFlight} {sess : BitVec 8}
  {temporary : Bool}

theorem resumeAny_of_apply (hi : f.instr = .apply sess temporary) (c : CtlCall) (a : CtlAnswer) (u : State) :
    resumeAny k { f with call := some c } a u = resumeApply temporary k { f with call := some c } a u := by
  simp only [resumeAny, hi]

theorem amid_applied (hr : s.sessions[k]? = some r) (hw : OnlyFlight r w) (hn : r.name = some n) (ev : List HistEvent)
    (rest : List EnvEvent) (h : Handle) (ph : Phase) (v : Word) :
    (s.amid k w ev rest).applied temporary k h ph v = (s.wrote temporary h n [(ph, v)]).amid k w ev rest := by
  have hname : (s.amid k w ev rest).name? k = some n := by simp [State.name?, State.amid, hr, hw.name_eq, hn]
  cases temporary <;> simp only [State.applied, hname] <;> rfl

/-- R57, R176: a `CtlWriteTiming` just issued, when the next event is its return: APPLY goes on, with the call recorded. -/
theorem settle_writeTiming {h : Handle} {ph : Phase} {v : Word} {u : State} {ev : List HistEvent} {rest : List EnvEvent}
    (hr : s.sessions[k]? = some r) (hi : f.instr = .apply sess temporary)
    (hu : resumeApply temporary k { f with call := some (.writeTiming h ph v) } .written
      (s.amid k (Session.calling f (.writeTiming h ph v) ∘ w) (ev ++ writeEvents k h [(ph, v)]) rest) = some u) :
    settle k ((s.amid k w ev (.answer k .written :: rest)).call k f (.writeTiming h ph v)) = settle k u := by
  rw [amid_call]
  refine settle_amid hr rfl rfl rfl ((resumeAny_of_apply hi ..).trans ?_)
  rw [List.append_assoc]
  exact hu

/-- R176: the end of an APPLY that has written the words `ws`. -/
theorem settle_amid_finishOk (hr : s.sessions[k]? = some r) (hw : OnlyFlight r w) (hb : r.busy = false) (req : Nat)
    (h : Handle) (ws : List (Phase × Word)) (ev : List HistEvent) (rest : List EnvEvent) :
    settle k (((s.wrote temporary h n ws).amid k w (ev ++ writeEvents k h ws) rest).finishOk k req {}) =
      s.applyEnded k r req temporary h n ev ws rest := by
  have hr' : (s.wrote temporary h n ws).sessions[k]? = some r := hr
  rw [State.finishOk_eq, settle_complete, amid_complete _ _ _ _ _ hr', hw.completed_ok hb, ← List.append_assoc,
    ← List.append_assoc]
  rfl

/-- R176: APPLY's second half writes the FD word if one is staged, and ends. -/
theorem settle_applyFd (hr : s.sessions[k]? = some r) (hw : OnlyFlight r w) (hb : r.busy = false)
    (hn : r.name = some n) (hi : f.instr = .apply sess temporary) (h : Handle) (ev : List HistEvent) (rest : List EnvEvent) :
    settle k (applyFd k f h (s.amid k w ev (writtenAnswers k (stagedWrites .fd r.fdStaged) rest))) =
      s.applyEnded k r f.cmd.req temporary h n ev (stagedWrites .fd r.fdStaged) rest := by
  have hstaged : ∀ l, (s.amid k w ev l).fdStaged? k = r.fdStaged := fun l => by
    simpa [State.fdStaged?, State.amid, hr] using hw.fdStaged_eq
  rw [applyFd, hstaged]
  cases r.fdStaged with
  | none =>
    have hend := settle_amid_finishOk (temporary := temporary) (n := n) hr hw hb f.cmd.req h [] ev rest
    rwa [wrote_nil, writeEvents, List.flatMap_nil, List.append_nil] at hend
  | some v =>
    refine (settle_writeTiming hr hi rfl).trans ?_
    rw [amid_applied hr (hw.calling ..) hn]
    exact settle_amid_finishOk hr (hw.calling ..) hb ..

/-- R176: APPLY from its start, arbitration first. -/
theorem settle_applyArb (hr : s.sessions[k]? = some r) (hw : OnlyFlight r w) (hb : r.busy = false)
    (hn : r.name = some n) (hi : f.instr = .apply sess temporary) (h : Handle) (ev : List HistEvent) (rest : List EnvEvent) :
    settle k (applyArb k f r h (s.amid k w ev
        (writtenAnswers k (stagedWrites .arb r.arbStaged ++ stagedWrites .fd r.fdStaged) rest))) =
      s.applyEnded k r f.cmd.req temporary h n ev (stagedWrites .arb r.arbStaged ++ stagedWrites .fd r.fdStaged) rest := by
  rw [applyArb]
  cases r.arbStaged with
  | none => exact settle_applyFd hr hw hb hn hi h ev rest
  | some v =>
    refine (settle_writeTiming hr hi rfl).trans ?_
    rw [amid_applied hr (hw.calling ..) hn]
    have hfd := settle_applyFd (s := s.wrote temporary h n [(.arb, v)]) (f := { f with call := some (.writeTiming h .arb v) })
      hr (hw.calling f (.writeTiming h .arb v)) hb hn hi h (ev ++ writeEvents k h [(.arb, v)]) rest
    exact hfd.trans (applyEnded_cons ..).symm

/-- R176: on a free session APPLY takes the lock and starts with the arbitration word. -/
theorem exec_apply {h : Handle} (hr : s.sessions[sess.toNat]? = some r) (hb : r.busy = false)
    (ha : acceptedIn (.apply sess temporary) r.state = true) (hh : r.handle = some h) (hn : r.name = some n) :
    exec (.apply sess temporary) s = .next (settle sess.toNat
      (applyArb sess.toNat (startFlight (.apply sess temporary) s.port) r h (s.lock sess.toNat (.apply sess temporary)))) := by
  rw [exec, execApply, sessionOp_runs hr hb ha, withHandle_of_some hh, hn]

end

/-- Settles O36: on a free session APPLY takes the lock and runs its two halves (`settle_applyArb`). -/
theorem applyWritesStagedWords : Obligations.ApplyWritesStagedWords := by
  intro sess temporary s r h n rest hr hb hst hh hn writes henv
  have ha : acceptedIn (.apply sess temporary) r.state = true := (acceptsBound_iff _).mpr hst
  rw [exec_apply hr hb ha hh hn, lock_eq_amid, henv]
  exact congrArg Host.Outcome.next (settle_applyArb hr (.locked ..) hb hn rfl h _ rest)

end Sys2Proof.Machine
end

section
/-! The frame operations (43_frame_io.md R190 to R196). SEND and RECV are one call each, whose answer ends them. SENDN and
RECVN are runs of such calls: one lemma for an answer that lets the batch go on, one induction for the run, one lemma for the
answer that ends it. A batch of one and the single operation issue the same call, and every answer ends both alike. -/

namespace Sys2Proof.Machine

/-! ### A call and its answer -/

section
variable {s : State} {k : Nat} {r : Session} {f : InFlight} {c : CtlCall} {a : CtlAnswer} {ev : List HistEvent}
  {rest : List EnvEvent} {kind : ResultKind} {code : Word32} {res : Results}

/-- R52: a call just issued, when the next event is its answer: the operation goes on, with both recorded. -/
theorem settle_amid_call {u : State} {w : Session → Session} (hr : s.sessions[k]? = some r) (ha : c.admits a = true)
    (hu : resumeAny k { f with call := some c } a (s.amid k (Session.calling f c ∘ w)
      (ev ++ [.ctlCall (.session k) c, .ctlRet (.session k) a]) rest) = some u) :
    settle k ((s.amid k w ev (.answer k a :: rest)).call k f c) = settle k u := by
  rw [amid_call]
  refine settle_amid hr rfl rfl ha ?_
  rw [List.append_assoc]
  exact hu

/-- R52, R281: a call just issued, when the next event is not an answer that fits it, stays outstanding. -/
theorem settle_call_waits (hr : s.sessions[k]? = some r) (hw : ∀ a, c.admits a = true → s.env.head? ≠ some (.answer k a)) :
    settle k (s.call k f c) = s.call k f c := by
  rw [settle, State.call_env]
  cases henv : s.env with
  | nil => rfl
  | cons e rest =>
    rcases drain_cons k e rest (s.call k f c) with hstay | ⟨a, v, rfl, hv⟩
    · exact hstay
    · obtain ⟨g, d, hg, hd, hadm, -⟩ := answered_some hv
      have hcall : ((s.call k f c).withEnv rest).inflight? k = some { f with call := some c } := by
        simp [State.withEnv, State.inflight?, hr]
      obtain rfl : { f with call := some c } = g := Option.some.inj (hcall.symm.trans hg)
      obtain rfl : c = d := Option.some.inj hd
      exact absurd (by rw [henv]; rfl) (hw a hadm)

/-- R63, R236: the end of an operation that has changed only the flight of its session, with the whole state written out. -/
theorem amid_locked_complete (hr : s.sessions[k]? = some r) (hb : r.busy = false) (req : Nat) :
    (s.amid k (Session.locked f) ev rest).complete k req kind code res =
      { s with
        sessions := s.sessions.set k { r with lastError := lastErrorAfter r.lastError kind code, inflight := none }
        resp := ⟨statusWord kind code, res⟩
        respTo := req
        history := s.history ++ (ev ++ [.complete req ⟨statusWord kind code, res⟩])
        env := rest } := by
  rw [amid_complete _ _ _ _ _ hr, hb]
  rfl

/-- The call in the flight leaves no trace in the record of an operation that has ended. -/
theorem amid_calling_complete (g : InFlight) (w : Session → Session) (req : Nat) :
    (s.amid k (Session.calling g c ∘ w) ev rest).complete k req kind code res =
      (s.amid k w ev rest).complete k req kind code res := by
  rw [State.complete, State.complete, amid_updSession, amid_updSession]
  rfl

/-- R52, R236: the call of an operation that its answer ends. -/
theorem settle_amid_call_ends (hr : s.sessions[k]? = some r) (hb : r.busy = false) {g : InFlight} (ha : c.admits a = true)
    (hu : ∀ u, resumeAny k { f with call := some c } a u = some (u.complete k s.port.req kind code res)) :
    settle k ((s.amid k (Session.locked g) ev (.answer k a :: rest)).call k f c) =
      { s with
        sessions := s.sessions.set k { r with lastError := lastErrorAfter r.lastError kind code, inflight := none }
        resp := ⟨statusWord kind code, res⟩
        respTo := s.port.req
        history := s.history ++ (ev ++ [.ctlCall (.session k) c, .ctlRet (.session k) a] ++
          [.complete s.port.req ⟨statusWord kind code, res⟩])
        env := rest } := by
  rw [settle_amid_call hr ha (hu _), settle_complete, amid_calling_complete, amid_locked_complete hr hb]

end

theorem lastErrorAfter_ok (old : LastError) (code : Word32) : lastErrorAfter old .ok code = old := rfl

theorem lastErrorAfter_of_ne_ok (old : LastError) {kind : ResultKind} (h : kind ≠ .ok) (code : Word32) :
    lastErrorAfter old kind code = ⟨kind, code⟩ := if_neg h

theorem TxAnswer.result_ok_iff (a : TxAnswer) : a.result.1 = .ok ↔ a = .ok := by
  cases a <;> simp [TxAnswer.result]

/-! ### The operations up to their first call -/

section
variable {s : State} {r : Session} {h : Handle} {sess : BitVec 8} {count : BitVec 16}

/-- R191: SEND on a free Open session. -/
theorem exec_send {f : Frame} {more : List Frame} (hr : s.sessions[sess.toNat]? = some r) (hb : r.busy = false)
    (ha : acceptedIn (.send sess) r.state = true) (hh : r.handle = some h) (hl : s.port.framesIn = f :: more)
    (hf : framesRefused (framesNeeded (.send sess)) s.port.framesIn = none) :
    exec (.send sess) s = .next (settle sess.toNat ((s.lock sess.toNat (.send sess)).call sess.toNat
      (startFlight (.send sess) s.port) (.transmit h f s.port.low32))) := by
  rw [exec, execSend, withFrames_passes hf, sessionOp_runs hr hb ha, withHandle_of_some hh]
  simp only [startFlight, hl]

/-- R193: SENDN on a free Open session starts with frame 0. -/
theorem exec_sendn (hr : s.sessions[sess.toNat]? = some r) (hb : r.busy = false)
    (ha : acceptedIn (.sendn sess count) r.state = true) (hh : r.handle = some h)
    (hf : framesRefused (framesNeeded (.sendn sess count)) s.port.framesIn = none) :
    exec (.sendn sess count) s = .next (settle sess.toNat (sendnFrom count.toNat sess.toNat
      (startFlight (.sendn sess count) s.port) h s.port.low32 0 (s.lock sess.toNat (.sendn sess count)))) := by
  rw [exec, execSendn, withFrames_passes hf, sessionOp_runs hr hb ha, withHandle_of_some hh]
  rfl

/-- R194: RECV on a free Open session. -/
theorem exec_recv (hr : s.sessions[sess.toNat]? = some r) (hb : r.busy = false)
    (ha : acceptedIn (.recv sess) r.state = true) (hh : r.handle = some h) :
    exec (.recv sess) s = .next (settle sess.toNat ((s.lock sess.toNat (.recv sess)).call sess.toNat
      (startFlight (.recv sess) s.port) (.receive h s.port.low32))) := by
  rw [exec, execRecv, sessionOp_runs hr hb ha, withHandle_of_some hh]
  rfl

/-- R195: RECVN on a free Open session starts with no frame. -/
theorem exec_recvn (hr : s.sessions[sess.toNat]? = some r) (hb : r.busy = false)
    (ha : acceptedIn (.recvn sess count) r.state = true) (hh : r.handle = some h) :
    exec (.recvn sess count) s = .next (settle sess.toNat (recvnFrom count.toNat sess.toNat
      (startFlight (.recvn sess count) s.port) h s.port.low32 [] (s.lock sess.toNat (.recvn sess count)))) := by
  rw [exec, execRecvn, sessionOp_runs hr hb ha, withHandle_of_some hh]
  rfl

end

/-! ### What an answer makes of the operations -/

section
variable (k : Nat) (c : Cmd) (h : Handle) (t : Word32) (x : Frame) (sess : BitVec 8) (count : BitVec 16) (n : Nat)
  (got : List Frame) (s : State)

theorem resume_send (a : TxAnswer) :
    resumeAny k ⟨.send sess, c, n, got, some (.transmit h x t)⟩ (.transmitted a) s =
      some (s.complete k c.req a.result.1 a.result.2 {}) := by
  cases a <;> rfl

theorem resume_recv (a : RxAnswer) :
    resumeAny k ⟨.recv sess, c, n, got, some (.receive h t)⟩ (.received a) s =
      some (s.complete k c.req a.result.1 a.result.2.1 { framesOut := a.result.2.2 }) := by
  cases a <;> rfl

theorem resume_sendn_failed {a : TxAnswer} (ha : a ≠ .ok) :
    resumeAny k ⟨.sendn sess count, c, n, got, some (.transmit h x t)⟩ (.transmitted a) s =
      some (s.complete k c.req a.result.1 a.result.2 { r0 := BitVec.ofNat 64 n }) := by
  cases a with
  | ok => exact absurd rfl ha
  | timeout => rfl
  | ioFailure => rfl

theorem resume_recvn_failed {a : RxAnswer} (ha : a.result.1 ≠ .ok) :
    resumeAny k ⟨.recvn sess count, c, n, got, some (.receive h t)⟩ (.received a) s =
      some (s.complete k c.req a.result.1 a.result.2.1 { r0 := BitVec.ofNat 64 got.length, framesOut := got }) := by
  cases a with
  | ok => exact absurd rfl ha
  | timeout => rfl
  | ioFailure => rfl

end

/-! ### SEND and RECV -/

/-- Settles O38: SEND's one call, ended by its answer. -/
theorem sendTransmitsOneFrame : Obligations.SendTransmitsOneFrame := by
  intro sess s r h f more a rest hr hb hst hh hl hlen henv
  have hacc : acceptedIn (.send sess) r.state = true := by rw [hst]; rfl
  have hf : framesRefused (framesNeeded (.send sess)) s.port.framesIn = none :=
    (framesRefused_none ..).mpr (by simp [hl, framesNeeded, hlen])
  rw [exec_send hr hb hacc hh hl hf, lock_eq_amid, henv,
    settle_amid_call_ends hr hb rfl fun u => resume_send _ s.port h _ f sess 0 [] u a]
  simp only [lastErrorAfter, TxAnswer.result_ok_iff]
  rfl

/-- Settles O41: RECV's one call, ended by its answer. -/
theorem recvReceivesOneFrame : Obligations.RecvReceivesOneFrame := by
  intro sess s r h a rest hr hb hst hh henv
  have hacc : acceptedIn (.recv sess) r.state = true := by rw [hst]; rfl
  rw [exec_recv hr hb hacc hh, lock_eq_amid, henv,
    settle_amid_call_ends hr hb rfl fun u => resume_recv _ s.port h _ sess 0 [] u a]
  rfl

/-! ### The run of a SENDN -/

/-- The accepted frames of a SENDN: each a call and its answer (R35, R193). -/
def sentEvents (k : Nat) (h : Handle) (t : Word32) (frames : List Frame) : List HistEvent :=
  frames.flatMap fun f => [.ctlCall (.session k) (.transmit h f t), .ctlRet (.session k) (.transmitted .ok)]

theorem batchFrame?_of_lt {frames : List Frame} {count i : Nat} (h : i < count) : batchFrame? frames count i = frames[i]? :=
  if_pos h

section
variable {s : State} {k : Nat} {r : Session} {f : InFlight} {h : Handle} {t : Word32} {sess : BitVec 8} {count : BitVec 16}

theorem sendnFrom_of_frame {count i : Nat} {x : Frame} (hx : batchFrame? f.cmd.framesIn count i = some x) (u : State) :
    sendnFrom count k f h t i u = u.call k { f with next := i } (.transmit h x t) := by
  rw [sendnFrom, hx]

theorem sendnFrom_end (count : Nat) (u : State) :
    sendnFrom count k f h t count u = u.complete k f.cmd.req .ok 0#32 { r0 := BitVec.ofNat 64 count } := by
  rw [sendnFrom, batchFrame?, if_neg (Nat.lt_irrefl count)]
  rfl

/-- How a SENDN goes on does not depend on the call it made last. -/
theorem sendnFrom_calling (f g : InFlight) (w : Session → Session) (ev : List HistEvent) (rest : List EnvEvent)
    (count n i : Nat) (c d : CtlCall) :
    sendnFrom count k { f with next := n, call := some c } h t i (s.amid k (Session.calling g d ∘ w) ev rest) =
      sendnFrom count k f h t i (s.amid k w ev rest) := by
  unfold sendnFrom
  cases batchFrame? f.cmd.framesIn count i with
  | some x =>
    simp only [amid_call]
    rfl
  | none => exact amid_calling_complete ..

/-- R193: frame `i`, when the next event accepts it. -/
theorem settle_sendnFrom_accepted (hr : s.sessions[k]? = some r) (hi : f.instr = .sendn sess count) {i : Nat} {x : Frame}
    (hx : batchFrame? f.cmd.framesIn count.toNat i = some x) (w : Session → Session) (ev : List HistEvent)
    (rest : List EnvEvent) :
    settle k (sendnFrom count.toNat k f h t i (s.amid k w ev (.answer k (.transmitted .ok) :: rest))) =
      settle k (sendnFrom count.toNat k f h t (i + 1) (s.amid k w (ev ++ sentEvents k h t [x]) rest)) := by
  have hgo : ∀ u, resumeAny k { f with next := i, call := some (.transmit h x t) } (.transmitted .ok) u =
      some (sendnFrom count.toNat k { f with next := i, call := some (.transmit h x t) } h t (i + 1) u) := fun u => by
    simp only [resumeAny, hi, resumeSendn]
  rw [sendnFrom_of_frame hx]
  exact (settle_amid_call hr rfl (hgo _)).trans (congrArg (settle k) (sendnFrom_calling ..))

/-- R193: the first `m` frames, when the next `m` events accept them. -/
theorem settle_sendnFrom_run (hr : s.sessions[k]? = some r) (hi : f.instr = .sendn sess count)
    (hlen : count.toNat ≤ f.cmd.framesIn.length) (w : Session → Session) (ev : List HistEvent) {m : Nat}
    (hm : m ≤ count.toNat) (rest : List EnvEvent) :
    settle k (sendnFrom count.toNat k f h t 0
        (s.amid k w ev (List.replicate m (.answer k (.transmitted .ok)) ++ rest))) =
      settle k (sendnFrom count.toNat k f h t m (s.amid k w (ev ++ sentEvents k h t (f.cmd.framesIn.take m)) rest)) := by
  induction m generalizing rest with
  | zero => simp [sentEvents]
  | succ m ih =>
    have hlt : m < f.cmd.framesIn.length := by omega
    have hx : batchFrame? f.cmd.framesIn count.toNat m = some f.cmd.framesIn[m] :=
      (batchFrame?_of_lt hm).trans (List.getElem?_eq_getElem hlt)
    have hev : sentEvents k h t (f.cmd.framesIn.take (m + 1)) =
        sentEvents k h t (f.cmd.framesIn.take m) ++ sentEvents k h t [f.cmd.framesIn[m]] := by
      rw [List.take_succ_eq_append_getElem hlt, sentEvents, List.flatMap_append]
      rfl
    rw [List.replicate_succ', List.append_assoc, List.singleton_append, ih (Nat.le_of_lt hm),
      settle_sendnFrom_accepted hr hi hx, hev, List.append_assoc]

end

/-- Settles O39: the whole list is accepted, and there is no frame after it. -/
theorem sendnSendsAll : Obligations.SendnSendsAll := by
  intro sess count s r h rest hr hb hst hh hlen hok henv
  have hacc : acceptedIn (.sendn sess count) r.state = true := by rw [hst]; rfl
  rw [exec_sendn hr hb hacc hh ((framesRefused_none ..).mpr ⟨hlen, hok⟩), lock_eq_amid, henv,
    settle_sendnFrom_run (f := startFlight (.sendn sess count) s.port) hr rfl hlen _ _ (Nat.le_refl _),
    sendnFrom_end, settle_complete]
  refine (congrArg Host.Outcome.next (amid_locked_complete hr hb s.port.req)).trans ?_
  rw [lastErrorAfter_ok, BitVec.ofNat_toNat, ← List.append_assoc, ← List.append_assoc]
  rfl

/-- Settles O40: the frames before `f` are accepted, and the answer to `f` ends the batch. -/
theorem sendnStops : Obligations.SendnStops := by
  intro sess count s r h m f a rest hr hb hst hh hlen hok hm hfm ha henv
  have hacc : acceptedIn (.sendn sess count) r.state = true := by rw [hst]; rfl
  have hx : batchFrame? s.port.framesIn count.toNat m = some f := (batchFrame?_of_lt hm).trans hfm
  rw [exec_sendn hr hb hacc hh ((framesRefused_none ..).mpr ⟨hlen, hok⟩), lock_eq_amid, henv,
    settle_sendnFrom_run (f := startFlight (.sendn sess count) s.port) hr rfl hlen _ _ (Nat.le_of_lt hm),
    sendnFrom_of_frame hx, settle_amid_call_ends hr hb rfl fun u => resume_sendn_failed _ s.port h _ f sess count m [] u ha,
    lastErrorAfter_of_ne_ok _ (mt a.result_ok_iff.mp ha)]
  simp only [List.append_assoc, List.cons_append, List.nil_append]
  rfl

/-! ### The run of a RECVN -/

/-- The frames of a RECVN: each a call and its answer (R35, R195). -/
def receivedEvents (k : Nat) (h : Handle) (t : Word32) (frames : List Frame) : List HistEvent :=
  frames.flatMap fun f => [.ctlCall (.session k) (.receive h t), .ctlRet (.session k) (.received (.ok f))]

section
variable {s : State} {k : Nat} {r : Session} {f : InFlight} {h : Handle} {t : Word32} {sess : BitVec 8} {count : BitVec 16}

/-- How a RECVN goes on depends on the frames it is given, not on the call it made last. -/
theorem recvnFrom_calling (f g : InFlight) (w : Session → Session) (ev : List HistEvent) (rest : List EnvEvent)
    (count n : Nat) (old got : List Frame) (c d : CtlCall) :
    recvnFrom count k { f with next := n, got := old, call := some c } h t got (s.amid k (Session.calling g d ∘ w) ev rest) =
      recvnFrom count k f h t got (s.amid k w ev rest) := by
  unfold recvnFrom
  split
  · simp only [amid_call]
    rfl
  · exact amid_calling_complete ..

theorem recvnFrom_of_lt {got : List Frame} {count : Nat} (hlt : got.length < count) (u : State) :
    recvnFrom count k f h t got u = u.call k { f with next := got.length, got := got } (.receive h t) := if_pos hlt

theorem recvnFrom_of_full {got : List Frame} {count : Nat} (hfull : got.length = count) (u : State) :
    recvnFrom count k f h t got u =
      u.complete k f.cmd.req .ok 0#32 { r0 := BitVec.ofNat 64 got.length, framesOut := got } := if_neg (by omega)

/-- R195: with `got` collected, when the next event brings a frame. -/
theorem settle_recvnFrom_received (hr : s.sessions[k]? = some r) (hi : f.instr = .recvn sess count) {got : List Frame}
    (hlt : got.length < count.toNat) (w : Session → Session) (ev : List HistEvent) (x : Frame) (rest : List EnvEvent) :
    settle k (recvnFrom count.toNat k f h t got (s.amid k w ev (.answer k (.received (.ok x)) :: rest))) =
      settle k (recvnFrom count.toNat k f h t (got ++ [x]) (s.amid k w (ev ++ receivedEvents k h t [x]) rest)) := by
  have hgo : ∀ u,
      resumeAny k { f with next := got.length, got := got, call := some (.receive h t) } (.received (.ok x)) u =
        some (recvnFrom count.toNat k { f with next := got.length, got := got, call := some (.receive h t) } h t
          (got ++ [x]) u) := fun u => by
    simp only [resumeAny, hi, resumeRecvn]
  rw [recvnFrom_of_lt hlt]
  exact (settle_amid_call hr rfl (hgo _)).trans (congrArg (settle k) (recvnFrom_calling ..))

/-- R195: the next events bring `frames`, and the batch has room for them. -/
theorem settle_recvnFrom_run (hr : s.sessions[k]? = some r) (hi : f.instr = .recvn sess count) (w : Session → Session)
    (rest : List EnvEvent) (frames : List Frame) : ∀ (got : List Frame) (ev : List HistEvent),
    got.length + frames.length ≤ count.toNat →
    settle k (recvnFrom count.toNat k f h t got
        (s.amid k w ev (frames.map (fun x => EnvEvent.answer k (.received (.ok x))) ++ rest))) =
      settle k (recvnFrom count.toNat k f h t (got ++ frames) (s.amid k w (ev ++ receivedEvents k h t frames) rest)) := by
  induction frames with
  | nil => intro got ev _; simp [receivedEvents]
  | cons x frames ih =>
    intro got ev hle
    rw [List.length_cons] at hle
    have hev : receivedEvents k h t (x :: frames) = receivedEvents k h t [x] ++ receivedEvents k h t frames := rfl
    rw [List.map_cons, List.cons_append, settle_recvnFrom_received hr hi (by omega),
      ih (got ++ [x]) _ (by rw [List.length_append, List.length_singleton]; omega), hev, List.append_assoc,
      List.append_assoc, List.singleton_append]

end

/-- Settles O42: all the frames come, and the batch has no room for another. -/
theorem recvnReceivesAll : Obligations.RecvnReceivesAll := by
  intro sess count s r h frames rest hr hb hst hh hlen henv
  have hacc : acceptedIn (.recvn sess count) r.state = true := by rw [hst]; rfl
  rw [exec_recvn hr hb hacc hh, lock_eq_amid, henv,
    settle_recvnFrom_run (f := startFlight (.recvn sess count) s.port) hr rfl _ rest frames [] _ (by simp [hlen]),
    List.nil_append, recvnFrom_of_full hlen, settle_complete]
  refine (congrArg Host.Outcome.next (amid_locked_complete hr hb s.port.req)).trans ?_
  rw [lastErrorAfter_ok, hlen, BitVec.ofNat_toNat, ← List.append_assoc, ← List.append_assoc]
  rfl

/-- Settles O43: the frames that came are collected, and the next answer ends the batch. -/
theorem recvnStops : Obligations.RecvnStops := by
  intro sess count s r h frames a rest hr hb hst hh hlt ha henv
  have hacc : acceptedIn (.recvn sess count) r.state = true := by rw [hst]; rfl
  rw [exec_recvn hr hb hacc hh, lock_eq_amid, henv,
    settle_recvnFrom_run (f := startFlight (.recvn sess count) s.port) hr rfl _ _ frames [] _ (by simp; omega),
    List.nil_append, recvnFrom_of_lt hlt,
    settle_amid_call_ends hr hb rfl fun u => resume_recvn_failed _ s.port h _ sess count frames.length frames u ha,
    lastErrorAfter_of_ne_ok _ ha]
  simp only [List.append_assoc, List.cons_append, List.nil_append]
  rfl

/-! ### A batch of one -/

/-- Two states with the same controller calls in the history, the same status and the same frames on the response ports. -/
structure SameOutcome (t u : State) : Prop where
  calls : callsIn t.history = callsIn u.history
  status : t.resp.status = u.resp.status
  frames : t.resp.res.framesOut = u.resp.res.framesOut

section
variable {s t u : State} {sess : BitVec 8} {i j : Instr} {k : Nat} {r : Session} {c : CtlCall}

/-- R63, R150: two operations of one session that the same states accept come out alike if they do so where they run. -/
theorem sameOutcome_of_runs (hi : i.session? = some sess) (hj : j.session? = some sess)
    (hacc : ∀ st, acceptedIn i st = acceptedIn j st) (ht : exec i s = .next t) (hu : exec j s = .next u)
    (hrun : ∀ r, s.sessions[sess.toNat]? = some r → r.busy = false → acceptedIn i r.state = true → SameOutcome t u) :
    SameOutcome t u := by
  have hfi := framesOk_of_exec_next ht
  have hfj := framesOk_of_exec_next hu
  obtain ⟨body, he⟩ := exec_eq_sessionOp hi hfi
  rcases sessionOp_cases sess i s body with ⟨-, hn⟩ | ⟨r, hr, ⟨hb, -⟩ | ⟨hb, ha, -⟩ | ⟨hb, ha, -⟩⟩
  · rw [he, hn] at ht
    cases ht
  · rw [exec_of_busy hi hfi hr hb] at ht
    rw [exec_of_busy hj hfj hr hb] at hu
    cases ht
    cases hu
    exact ⟨rfl, rfl, rfl⟩
  · rw [exec_of_rejected hi hfi hr hb ha] at ht
    rw [exec_of_rejected hj hfj hr hb ((hacc _).symm.trans ha)] at hu
    cases ht
    cases hu
    exact ⟨by simp [callsIn], rfl, rfl⟩
  · exact hrun r hr hb ha

/-- R52, R62: two operations that issue the same call, and that every answer to it ends alike, come out alike. -/
theorem sameOutcome_of_oneCall (hr : s.sessions[k]? = some r) (hb : r.busy = false)
    (h : ∀ a, c.admits a = true → ∃ kind code res res', (∀ v,
      resumeAny k { startFlight i s.port with call := some c } a v = some (v.complete k s.port.req kind code res) ∧
        resumeAny k { startFlight j s.port with call := some c } a v = some (v.complete k s.port.req kind code res')) ∧
      res.framesOut = res'.framesOut) :
    SameOutcome (settle k ((s.lock k i).call k (startFlight i s.port) c))
      (settle k ((s.lock k j).call k (startFlight j s.port) c)) := by
  by_cases hans : ∃ a, c.admits a = true ∧ s.env.head? = some (.answer k a)
  · obtain ⟨a, ha, hhead⟩ := hans
    obtain ⟨rest, henv⟩ := List.head?_eq_some_iff.mp hhead
    obtain ⟨kind, code, res, res', hend, hres⟩ := h a ha
    rw [lock_eq_amid, lock_eq_amid, henv, settle_amid_call_ends hr hb ha fun v => (hend v).1,
      settle_amid_call_ends hr hb ha fun v => (hend v).2]
    exact ⟨by simp [callsIn], rfl, hres⟩
  · have hlock : ∀ l, (s.lock k l).sessions[k]? = some (r.locked (startFlight l s.port)) := fun l => by simp [hr]
    have hw : ∀ a, c.admits a = true → s.env.head? ≠ some (.answer k a) := fun a ha he => hans ⟨a, ha, he⟩
    rw [settle_call_waits (hlock i) hw, settle_call_waits (hlock j) hw]
    exact ⟨by simp [callsIn], rfl, rfl⟩

/-- R196 (c) for SEND. -/
theorem send_sameOutcome (ht : exec (.send sess) s = .next t) (hu : exec (.sendn sess 1#16) s = .next u) :
    SameOutcome t u := by
  refine sameOutcome_of_runs (i := .send sess) (j := .sendn sess 1#16) rfl rfl (fun _ => rfl) ht hu fun r hr hb ha => ?_
  have hf := framesOk_of_exec_next ht
  obtain ⟨f, more, hl⟩ := List.exists_cons_of_length_pos ((framesRefused_none ..).mp hf).1
  obtain ⟨h, hh⟩ : ∃ h, r.handle = some h := by
    rw [exec, execSend, withFrames_passes hf, sessionOp_runs hr hb ha] at ht
    obtain ⟨h, hh, -⟩ := withHandle_next ht
    exact ⟨h, hh⟩
  rw [exec_send hr hb ha hh hl hf] at ht
  rw [exec_sendn hr hb ha hh (framesOk_of_exec_next hu),
    sendnFrom_of_frame ((batchFrame?_of_lt (by decide)).trans (congrArg (·[0]?) hl))] at hu
  cases ht
  cases hu
  refine sameOutcome_of_oneCall (i := .send sess) (j := .sendn sess 1#16) hr hb fun a hadm => ?_
  obtain ⟨x, rfl⟩ : ∃ x, a = .transmitted x := by
    cases a <;> simp [CtlCall.admits] at hadm ⊢
  cases x <;> exact ⟨_, _, _, _, fun v => ⟨rfl, rfl⟩, rfl⟩

/-- R196 (c) for RECV. -/
theorem recv_sameOutcome (ht : exec (.recv sess) s = .next t) (hu : exec (.recvn sess 1#16) s = .next u) :
    SameOutcome t u := by
  refine sameOutcome_of_runs (i := .recv sess) (j := .recvn sess 1#16) rfl rfl (fun _ => rfl) ht hu fun r hr hb ha => ?_
  obtain ⟨h, hh⟩ : ∃ h, r.handle = some h := by
    rw [exec, execRecv, sessionOp_runs hr hb ha] at ht
    obtain ⟨h, hh, -⟩ := withHandle_next ht
    exact ⟨h, hh⟩
  rw [exec_recv hr hb ha hh] at ht
  rw [exec_recvn hr hb ha hh] at hu
  cases ht
  cases hu
  refine sameOutcome_of_oneCall (i := .recv sess) (j := .recvn sess 1#16) hr hb fun a hadm => ?_
  obtain ⟨x, rfl⟩ : ∃ x, a = .received x := by
    cases a <;> simp [CtlCall.admits] at hadm ⊢
  cases x <;> exact ⟨_, _, _, _, fun v => ⟨rfl, rfl⟩, rfl⟩

end

/-- Settles O44: `send_sameOutcome` and `recv_sameOutcome`. -/
theorem batchOfOne : Obligations.BatchOfOne := by
  refine fun sess s t u => ⟨fun ht hu => ?_, fun ht hu => ?_⟩
  · obtain ⟨hcalls, hstatus, -⟩ := send_sameOutcome ht hu
    exact ⟨hcalls, hstatus⟩
  · obtain ⟨hcalls, hstatus, hframes⟩ := recv_sameOutcome ht hu
    exact ⟨hcalls, hstatus, hframes⟩

end Sys2Proof.Machine
end

section
/-! The capability probes and the error-text lookup (44_probe_lookup.md R210 to R215). The four probes are one operation, each
with an id of its own, that its answer ends. A lookup is ended by its text in one way, whether the text comes at once or later. -/

namespace Sys2Proof.Machine

/-! ### The probes -/

/-- R210: the kind that the answer to a probe's call means. -/
def probeKind (b : Bool) : ResultKind := if b then .ok else .unsupportedFeature

/-- R210: the results that the answer to a probe's call means. -/
def probeResults (b : Bool) : Results := if b then { r0 := 1#64 } else {}

/-- R210 to R214: a probe runs the common rule with its own id, in the states with a bound controller, and its answer ends
it. -/
theorem probe_rules {i : Instr} {id : Capability} {sess : BitVec 8}
    (hi : (i, id) ∈ [(.probeTerm sess, .termination), (.probeEcho sess, .echo), (.probeBlink sess, .blink),
      (.probeTxmode sess, .txMode)]) :
    (∀ s, exec i s = probe id sess i s) ∧ acceptedIn i = acceptsBound ∧
      ∀ (k : Nat) (c : Cmd) (n : Nat) (got : List Frame) (h : Handle) (b : Bool) (u : State),
        resumeAny k ⟨i, c, n, got, some (.queryCapability h id)⟩ (.capability b) u =
          some (u.complete k c.req (probeKind b) 0#32 (probeResults b)) := by
  simp only [List.mem_cons, List.not_mem_nil, or_false, Prod.mk.injEq] at hi
  rcases hi with ⟨rfl, rfl⟩ | ⟨rfl, rfl⟩ | ⟨rfl, rfl⟩ | ⟨rfl, rfl⟩ <;>
    refine ⟨fun _ => rfl, rfl, fun k c n got h b u => ?_⟩ <;> cases b <;> rfl

/-- Settles O45: a probe's one call, ended by its answer. -/
theorem probeReportsCapability : Obligations.ProbeReportsCapability := by
  intro i id sess s r h b rest hi hr hb hst hh henv
  obtain ⟨hexec, hacc, hends⟩ := probe_rules hi
  have ha : acceptedIn i r.state = true := by
    rw [hacc]
    exact (acceptsBound_iff _).mpr hst
  rw [hexec, probe, sessionOp_runs hr hb ha, withHandle_of_some hh, lock_eq_amid, henv,
    settle_amid_call_ends hr hb rfl fun u => hends _ s.port 0 [] h b u]
  cases b <;> rfl

/-! ### The lookup -/

/-- R215: the text of an outstanding lookup ends it, with the whole state written out. -/
theorem answerText_of_lookup {s : State} {j : Nat} {c : Cmd} (hc : s.lookups[j]? = some c) (text : List Byte) :
    answerText j text s =
      { s with
        lookups := s.lookups.eraseIdx j
        resp := ⟨statusWord .ok 0#32, { textOut := text }⟩
        respTo := c.req
        history := s.history ++
          [.ctlRet (.lookup c.req) (.text text), .complete c.req ⟨statusWord .ok 0#32, { textOut := text }⟩] } := by
  simp only [answerText, hc, lookupDone, State.record, State.deliver, mkResponse, List.append_assoc, List.cons_append,
    List.nil_append]

/-- R215: an ERRTEXT just issued is the last of the outstanding lookups. -/
theorem lookupStart_eq (s : State) :
    lookupStart s =
      { s with
        lookups := s.lookups ++ [s.port]
        history := s.history ++
          [.issue s.port .errtext, .ctlCall (.lookup s.port.req) (.errorText (s.port.a0.extractLsb' 0 32))] } := by
  simp only [lookupStart, State.record, Cmd.low32, List.append_assoc, List.cons_append, List.nil_append]

theorem settleText_of_text {s : State} {j : Nat} {text : List Byte} {rest : List EnvEvent}
    (he : s.env = .text j text :: rest) : settleText j s = answerText j text { s with env := rest } := by
  simp only [settleText, he, if_true]

theorem settleText_of_env_nil {s : State} (he : s.env = []) (j : Nat) : settleText j s = s := by
  simp only [settleText, he]

theorem step_of_text {s : State} {j : Nat} {text : List Byte} {rest : List EnvEvent} (hv : s.portValid = false)
    (he : s.env = .text j text :: rest) : step s = .next (answerText j text { s with env := rest }) := by
  simp [step, hv, nextEvent, he]

/-- R215: ERRTEXT is issued and, when its text comes next, answered as any outstanding lookup is. -/
theorem exec_errtext_of_text {s : State} {text : List Byte} {rest : List EnvEvent}
    (he : s.env = .text s.lookups.length text :: rest) :
    exec .errtext s = .next (answerText s.lookups.length text { lookupStart s with env := rest }) :=
  congrArg Host.Outcome.next (settleText_of_text he)

/-- Settles O46: the text of a lookup, taken by ERRTEXT itself or by a later step. -/
theorem errtextReturnsText : Obligations.ErrtextReturnsText := by
  refine ⟨fun s text rest => ⟨fun he => ?_, fun he => ?_⟩, fun s j c text rest hv he hc => ?_⟩
  · have hlast : (s.lookups ++ [s.port])[s.lookups.length]? = some s.port := by simp
    have herase : (s.lookups ++ [s.port]).eraseIdx s.lookups.length = s.lookups := by
      simp [List.eraseIdx_append_of_length_le]
    rw [exec_errtext_of_text he, lookupStart_eq, answerText_of_lookup hlast, herase]
  · rw [exec, execErrtext, settleText_of_env_nil (s := lookupStart s) he, lookupStart_eq]
  · rw [step_of_text hv he, answerText_of_lookup (s := { s with env := rest }) hc]

end Sys2Proof.Machine
end

section
/-! A step with no command on the port (R281, R290): the world outside moves next, and with nothing to come from it the block
waits. -/

namespace Sys2Proof.Machine

theorem step_of_portValid_false {s : State} (hv : s.portValid = false) : step s = nextEvent s := by
  simp only [step, hv, Bool.false_eq_true, if_false]

theorem nextEvent_of_env_nil {s : State} (he : s.env = []) : nextEvent s = .next s := by
  simp only [nextEvent, he]

/-- Settles O7: with no command the step is the next event's, and there is none. -/
theorem stepWaits : Obligations.StepWaits := fun s hv he =>
  calc step s = nextEvent s := step_of_portValid_false hv
    _ = .next s := nextEvent_of_env_nil he

end Sys2Proof.Machine
end
